-- ==== Sys2Proof/Word.lean ====
section
/-!
DEFINITION. The word types of SGM-CORE. Registers and command words are 32 bits wide (10_state.md R23, 30_encoding.md
R90), the data space is addressed by bytes (20_memory.md R60).
-/

namespace Sys2Proof

/-- A register, a command word or a data-space address: 32 bits (R23, R60, R90). -/
abbrev Word := BitVec 32

/-- One byte of the data space (R60). -/
abbrev Byte := BitVec 8

/-- The widest element the data space holds, a census descriptor (R64). -/
abbrev DWord := BitVec 64

end Sys2Proof
end

