-- ==== Sys2Proof/Config.lean ====
section
/-!
DEFINITION. The free values: what the spec leaves open and nothing in the model may know. REG_BASE and MEM_MAP, the other
open parameters of 00_scope.md R9, are plain data of State (`Platform`), over which every statement quantifies.
-/

namespace Sys2Proof.Config

/-- LATENCY (00_scope.md R9, 70_reset_and_hazards.md R288): how many host steps lie between the acceptance of the n-th
accepted command and the core step that performs it. Finite, without bound, unknown (log entry 3). -/
opaque latency : Nat → Nat

/-- The n-th byte drawn when a reset abandons a running command (70_reset_and_hazards.md R282): unconstrained
(log entry 6). -/
opaque resetByte : Nat → Byte

end Sys2Proof.Config
end

