-- ==== Sys2Proof/Machine/State.lean ====
section
/-!
DEFINITION. The state of SGM-CORE as plain data: the register file, the sequencer state and the data space of 10_state.md R20,
the open parameters of 00_scope.md R9, and the host agent's own state (R17). Reset values are 10_state.md R44.
-/

namespace Sys2Proof.Machine

open Sys2Proof

/-- ERR_CODE (10_state.md R27, 60_exceptions.md R240). Codes 5 to 15 are never produced, so they have no constructor. -/
inductive ErrCode where
  /-- 0 NONE. -/
  | none
  /-- 1 SHAPE_MISMATCH. -/
  | shapeMismatch
  /-- 2 INVALID_PARAMETER. -/
  | invalidParameter
  /-- 3 ILLEGAL_COMMAND. -/
  | illegalCommand
  /-- 4 ADDRESS_ERROR. -/
  | addressError
  deriving DecidableEq, Repr

/-- ERR_INFO (10_state.md R28): one bit per failed entry check, bit 0 first. -/
structure ErrInfo where
  shape : Bool
  dimZero : Bool
  dZero : Bool
  kernelEven : Bool
  kernelBits : Bool
  pOrder : Bool
  postKEven : Bool
  opcode : Bool
  align : Bool
  range : Bool
  overlap : Bool
  deriving DecidableEq, Repr

/-- ERR_INFO with no bit set, its reset value (R44) and its value when a command is accepted (R28). -/
abbrev ErrInfo.zero : ErrInfo :=
  ⟨false, false, false, false, false, false, false, false, false, false, false⟩

/-- The configuration registers (10_state.md R30 to R36), each as wide as its writable bits: the bits above are RAZ/WI
(R37), which the register read supplies. -/
structure ConfigRegs where
  /-- H in bits 31:16, W in bits 15:0 (R30). -/
  dim : Word
  /-- The right image's height and width, laid out as DIM (R31). -/
  dimR : Word
  /-- D (R32). -/
  ndisp : BitVec 16
  /-- P1 (R33). -/
  p1 : BitVec 16
  /-- P2 (R34). -/
  p2 : BitVec 16
  /-- POST_K in bits 23:16, KH in bits 15:8, KW in bits 7:0 (R35). -/
  kernel : BitVec 24
  baseImgL : Word
  baseImgR : Word
  baseCenL : Word
  baseCenR : Word
  baseCost : Word
  baseAgg : Word
  baseDisp : Word
  baseScaled : Word
  baseOut : Word
  deriving DecidableEq, Repr

/-- Every configuration register at zero (R44). -/
abbrev ConfigRegs.zero : ConfigRegs := ⟨0, 0, 0, 0, 0, 0, 0, 0, 0, 0, 0, 0, 0, 0, 0⟩

/-- The data space (20_memory.md R60) as (address, byte) pairs, addresses strictly rising. An unlisted byte has no value:
reading it is UNWRITTEN_READ (70_reset_and_hazards.md R281). -/
abbrev Memory := List Host.Cell

/-- The byte addresses base, base+1, …, base+size−1. -/
structure Region where
  base : Nat
  size : Nat
  deriving DecidableEq, Repr

/-- What the platform fixes (00_scope.md R9). -/
structure Platform where
  /-- REG_BASE: the host address of the 256-byte register window. -/
  regBase : Nat
  /-- MEM_MAP, given by the addresses of the data space it does NOT back (20_memory.md R60). -/
  unbacked : List Region
  deriving DecidableEq, Repr

/-- The width of a host access: 8, 16, 32 or 64 bits. -/
inductive Width where
  | w8
  | w16
  | w32
  | w64
  deriving DecidableEq, Repr

/-- One thing the host or the platform does (00_scope.md R17, 30_encoding.md R96 and R97, 70_reset_and_hazards.md R296). -/
inductive Input where
  /-- The platform asserts reset (R280). -/
  | reset
  /-- A host read at a host bus address. -/
  | busRead (addr : Nat) (w : Width)
  /-- A host write at a host bus address; the low bits of `v` are the data. -/
  | busWrite (addr : Nat) (w : Width) (v : DWord)
  /-- A host read of the data space. -/
  | memRead (addr : Word) (w : Width)
  /-- A host write of the data space, little-endian (R62). -/
  | memWrite (addr : Word) (w : Width) (v : DWord)
  /-- `wait` of R97: read STATUS, and again until BUSY reads 0. -/
  | pollIdle
  /-- The host samples the IRQ line (R255); how the line reaches it is the platform's business (log entry 5). -/
  | readIrq
  deriving DecidableEq, Repr

/-- Why a step ends the run. A faulted run is never final (70_reset_and_hazards.md R290). -/
inductive Fault where
  /-- BUS_ERROR, raised by a host register access of the wrong width or misaligned (R39, R253). Safe: a chip may ignore it. -/
  | busError
  /-- HOST_RACE, raised by a host access to a byte of a buffer the running command uses (R291). Safe. -/
  | hostRace
  /-- UNWRITTEN_READ, raised by a host read or a command that reads a byte nothing has written (R281). Safe. -/
  | unwrittenRead
  /-- Raised by a host data-space access to an address MEM_MAP does not back, or past 0xFFFFFFFF (R60). Safe. -/
  | hostUnbacked
  /-- Raised by a host read of a command's output before the host has seen the command's completion (R294, R296). Safe. -/
  | earlyRead
  /-- The core is stuck (R60, K4): the performed command's buffers touch an address MEM_MAP does not back. The machine stops
  with it only when the host has nothing left to do. Safe. -/
  | coreStuck
  deriving DecidableEq, Repr

/-- Why the model gives a step no meaning. -/
inductive Refusal where
  /-- An instruction without a meaning, by its mnemonic. Safe. -/
  | notModelled (mnemonic : String)
  /-- A host bus access that touches no byte of the register window: it addresses another device of the platform, which the
  spec leaves to the platform (R79, R262). Safe. -/
  | foreignAddress
  deriving DecidableEq, Repr

/-- The whole machine (10_state.md R20 and the agents of 00_scope.md R17). -/
structure State where
  /-- The configuration registers (R30 to R36). -/
  cfg : ConfigRegs
  /-- Sequencer: a command was accepted and not yet performed (R22). -/
  busy : Bool
  /-- Sequencer: the last accepted command word (R22, R25). -/
  curCmd : Word
  /-- STATUS.DONE (R26). -/
  done : Bool
  /-- STATUS.ERR (R26). -/
  err : Bool
  /-- STATUS.CMD_LOST (R26). -/
  cmdLost : Bool
  /-- ERR_CODE (R27). -/
  errCode : ErrCode
  /-- ERR_INFO (R28). -/
  errInfo : ErrInfo
  /-- INT_EN: DONE_IE in bit 0, ERR_IE in bit 1, LOST_IE in bit 2 (R29). -/
  intEn : BitVec 3
  /-- The data space (R60). -/
  mem : Memory
  /-- REG_BASE and MEM_MAP (R9); no step changes them. -/
  platform : Platform
  /-- What the host and the platform still do, in order. -/
  inputs : List Input
  /-- What the host has read, newest first. -/
  replies : List DWord
  /-- The outputs of completed commands whose completion the host has not seen (R294). -/
  unseen : List Region
  /-- Host steps still to come before the core performs the accepted command (LATENCY, R9, R288). -/
  latencyLeft : Nat
  /-- How many commands were accepted: the number of LATENCY draws. -/
  accepts : Nat
  /-- How many free bytes resets have drawn (R282). -/
  draws : Nat
  deriving DecidableEq, Repr

/-- The state of R44 after power-up on a given platform, nothing written to the data space (R281) and a host that has done
and will do nothing. -/
def State.resetOn (p : Platform) : State where
  cfg := .zero
  busy := false
  curCmd := 0
  done := false
  err := false
  cmdLost := false
  errCode := .none
  errInfo := .zero
  intEn := 0
  mem := []
  platform := p
  inputs := []
  replies := []
  unseen := []
  latencyLeft := 0
  accepts := 0
  draws := 0

/-- The machine right after reset (R44), on a platform with the window at host address 0 and every byte of the data space
backed (DESIGN CHOICE: REG_BASE and MEM_MAP are open; log entry 2). -/
def State.reset : State := State.resetOn ⟨0, []⟩

end Sys2Proof.Machine
end

