-- ==== Sys2Proof/Machine/Ops.lean ====
section
/-!
DEFINITION. The named operations over the data space and the sequencer: byte and element accesses (20_memory.md R62), the
accept and drop of a CMD write (10_state.md R25), completion (70_reset_and_hazards.md R288), and rejection, which is the whole
of trap entry in SGM-CORE (60_exceptions.md R252).
-/

namespace Sys2Proof.Machine

open Sys2Proof

/-! ### The data space -/

/-- The data space holds byte addresses 0 to 0xFFFFFFFF (R60). -/
def dataSpaceSize : Nat := 2 ^ 32

/-- The byte at an address; `none` where nothing has written it (R281). -/
def Memory.byte? (m : Memory) (a : Nat) : Option Byte :=
  match m with
  | [] => none
  | (a', b) :: rest => if a = a' then some b else Memory.byte? rest a

/-- Write one byte, keeping the addresses strictly rising. -/
def Memory.writeByte (m : Memory) (a : Nat) (b : Byte) : Memory :=
  match m with
  | [] => [(a, b)]
  | (a', b') :: rest =>
    if a < a' then (a, b) :: (a', b') :: rest
    else if a = a' then (a, b) :: rest
    else (a', b') :: Memory.writeByte rest a b

/-- The canonical form: addresses strictly rising. No entry can equal what an unlisted byte reads as, since an unlisted byte
has no value. -/
abbrev Memory.wf (m : Memory) : Prop := (m.map Prod.fst).Pairwise (· < ·)

/-- Bits 8·i+7 : 8·i of a value (R62). -/
def byteOfNat (v i : Nat) : Byte := BitVec.ofNat 8 (v / 2 ^ (8 * i))

/-- MemWrite(addr, n, v) of R12 and R62: byte(addr + i) <- v[8·i+7 : 8·i] for i in 0 .. n−1. -/
def Memory.memWrite (m : Memory) (addr n v : Nat) : Memory :=
  match n with
  | 0 => m
  | k + 1 => Memory.writeByte (Memory.memWrite m addr k v) (addr + k) (byteOfNat v k)

/-- Whether each of the n bytes at addr has been written (R281). -/
def Memory.written (m : Memory) (addr n : Nat) : Bool :=
  (List.range n).all fun i => (Memory.byte? m (addr + i)).isSome

/-- MemRead(addr, n) of R12 and R62: the sum of byte(addr + i) · 2^(8·i) for i in 0 .. n−1. Used only where
`Memory.written m addr n` was checked first, so the 0 that stands for a byte with no value is never part of a result. -/
def Memory.memRead (m : Memory) (addr n : Nat) : Nat :=
  match n with
  | 0 => 0
  | k + 1 => Memory.memRead m addr k + ((Memory.byte? m (addr + k)).getD 0).toNat * 2 ^ (8 * k)

/-- One element a command writes: address, width in bytes, value. -/
structure Store where
  addr : Nat
  bytes : Nat
  value : Nat
  deriving DecidableEq, Repr

/-- The writes of a command's body, in order. -/
def Memory.storeAll (m : Memory) (stores : List Store) : Memory :=
  stores.foldl (fun m st => Memory.memWrite m st.addr st.bytes st.value) m

/-- A body's effect on the data space: its writes, if every element it reads has been written; `none` is UNWRITTEN_READ
(R281). -/
def Memory.transform (m : Memory) (readable : Bool) (stores : List Store) : Option Memory :=
  if readable then some (Memory.storeAll m stores) else none

/-! ### MEM_MAP -/

/-- Whether an address lies in a region. -/
def Region.contains (r : Region) (a : Nat) : Bool := r.base ≤ a && a < r.base + r.size

/-- Whether two regions share an address (the test of R241: both are non-empty and each begins before the other ends). -/
def Region.meets (r q : Region) : Bool :=
  0 < r.size && 0 < q.size && r.base < q.base + q.size && q.base < r.base + r.size

/-- Whether MEM_MAP backs an address (R60). -/
def Platform.backs (p : Platform) (a : Nat) : Bool :=
  a < dataSpaceSize && p.unbacked.all fun r => !r.contains a

/-- Whether MEM_MAP backs every address of a region. -/
def Platform.backsRegion (p : Platform) (r : Region) : Bool :=
  (r.size == 0 || r.base + r.size ≤ dataSpaceSize) && p.unbacked.all fun q => !q.meets r

/-! ### The sequencer -/

/-- The acceptance of a command word (R25): it also clears DONE, ERR, ERR_CODE and ERR_INFO, and LATENCY is drawn (R9). -/
def State.accept (s : State) (v : Word) : State :=
  { s with
    curCmd := v, busy := true, done := false, err := false, errCode := .none, errInfo := .zero
    latencyLeft := Config.latency s.accepts, accepts := s.accepts + 1 }

/-- A CMD write while busy is dropped and only sets CMD_LOST (R25). -/
def State.drop (s : State) : State := { s with cmdLost := true }

/-- Rejection (R252): code and information are recorded, ERR is set, the core is idle; the data space and cur_cmd are kept. -/
def State.reject (s : State) (code : ErrCode) (info : ErrInfo) : State :=
  { s with errCode := code, errInfo := info, err := true, busy := false }

/-- Completion (R288): all of the command's writes are made, DONE is set, the core is idle. `outs` are the command's
written buffers, which the host may read once it has seen the completion (R294). -/
def State.complete (s : State) (outs : List Region) (m : Memory) : State :=
  { s with mem := m, done := true, busy := false, unseen := outs ++ s.unseen }

end Sys2Proof.Machine
end

