-- ==== Sys2Proof/Machine/Flags.lean ====
section
/-!
DEFINITION. The status flags, the error registers as words, and the interrupt line (10_state.md R26 to R29, 60_exceptions.md
R240 and R255 to R257).
-/

namespace Sys2Proof.Machine

open Sys2Proof

/-- ERR_CODE as the host reads it: the code in bits 3:0, bits 31:4 zero (R27, R240). -/
def ErrCode.word : ErrCode → Word
  | .none => 0
  | .shapeMismatch => 1
  | .invalidParameter => 2
  | .illegalCommand => 3
  | .addressError => 4

/-- ERR_INFO as the host reads it (R28): SHAPE in bit 0 up to OVERLAP in bit 10, bits 31:11 zero. -/
def ErrInfo.word (e : ErrInfo) : Word :=
  0#21 ++ BitVec.ofBool e.overlap ++ BitVec.ofBool e.range ++ BitVec.ofBool e.align ++ BitVec.ofBool e.opcode ++
    BitVec.ofBool e.postKEven ++ BitVec.ofBool e.pOrder ++ BitVec.ofBool e.kernelBits ++ BitVec.ofBool e.kernelEven ++
    BitVec.ofBool e.dZero ++ BitVec.ofBool e.dimZero ++ BitVec.ofBool e.shape

/-- The information of a rejected illegal word: OPCODE only, 0x080 (R242). -/
def ErrInfo.illegalWord : ErrInfo := { ErrInfo.zero with opcode := true }

/-- The INVALID_PARAMETER checks (R240). -/
def ErrInfo.anyParameter (e : ErrInfo) : Bool :=
  e.dimZero || e.dZero || e.kernelEven || e.kernelBits || e.pOrder || e.postKEven

/-- The ADDRESS_ERROR checks (R240). -/
def ErrInfo.anyAddress (e : ErrInfo) : Bool := e.align || e.range || e.overlap

/-- The code reported: the first that applies in the order 3, 1, 2, 4 (R241, R257). -/
def ErrInfo.code (e : ErrInfo) : ErrCode :=
  if e.opcode then .illegalCommand
  else if e.shape then .shapeMismatch
  else if e.anyParameter then .invalidParameter
  else if e.anyAddress then .addressError
  else .none

/-- STATUS as the host reads it (R26): BUSY, DONE, ERR, CMD_LOST in bits 0 to 3, bits 31:4 zero. -/
def State.status (s : State) : Word :=
  0#28 ++ BitVec.ofBool s.cmdLost ++ BitVec.ofBool s.err ++ BitVec.ofBool s.done ++ BitVec.ofBool s.busy

/-- A host write to STATUS (R26): a 1 in bit 1, 2 or 3 clears DONE, ERR or CMD_LOST; every other bit has no effect. -/
def State.clearStatus (s : State) (v : Word) : State :=
  { s with
    done := s.done && !v.getLsbD 1, err := s.err && !v.getLsbD 2, cmdLost := s.cmdLost && !v.getLsbD 3 }

/-- The interrupt line (R255). -/
def State.irq (s : State) : Bool :=
  (s.done && s.intEn.getLsbD 0) || (s.err && s.intEn.getLsbD 1) || (s.cmdLost && s.intEn.getLsbD 2)

/-- A host's read of STATUS shows it the completion when DONE = 1, or BUSY = 0 with ERR = 0 (R294). -/
def State.showsCompletion (s : State) : Bool := s.done || (!s.busy && !s.err)

/-- The IRQ line shows the host DONE = 1 only when it is up and DONE_IE is the one enable that is set: the line is one for
all three sources (R257), and the writes are visible before it rises for DONE (R82; log entry 5). -/
def State.irqShowsDone (s : State) : Bool := s.irq && s.intEn == 1#3

end Sys2Proof.Machine
end

