-- ==== Sys2Proof/Syntax.lean ====
section
/-!
DEFINITION. The 17 commands of SGM-CORE (30_encoding.md R93, spec/opcode_table.json). A command has no operand field: every
operand is implicit (R91).
-/

namespace Sys2Proof

/-- The defined commands, in the order of the opcode map of R93. -/
inductive Instr where
  | nop
  | censusL
  | censusR
  | cost
  | aggE
  | aggW
  | aggS
  | aggN
  | aggSE
  | aggNW
  | aggSW
  | aggNE
  | aggAll
  | select
  | rescale
  | median
  | run
  deriving DecidableEq, Repr

end Sys2Proof
end

