-- ==== Sys2Proof/Machine/Operands.lean ====
section
/-!
DEFINITION. The implicit operands of a command (30_encoding.md R91): the parameters in the configuration registers (10_state.md
R30 to R36) and the buffers of the data space with their element addresses (20_memory.md R65 to R78).
-/

namespace Sys2Proof.Machine

open Sys2Proof

/-! ### Parameters -/

/-- H, DIM[31:16] (R30). -/
def ConfigRegs.height (c : ConfigRegs) : Nat := (c.dim.extractLsb' 16 16).toNat

/-- W, DIM[15:0] (R30). -/
def ConfigRegs.width (c : ConfigRegs) : Nat := (c.dim.extractLsb' 0 16).toNat

/-- D (R32). -/
def ConfigRegs.disparities (c : ConfigRegs) : Nat := c.ndisp.toNat

/-- P1 (R33). -/
def ConfigRegs.penalty1 (c : ConfigRegs) : Nat := c.p1.toNat

/-- P2 (R34). -/
def ConfigRegs.penalty2 (c : ConfigRegs) : Nat := c.p2.toNat

/-- KW, KERNEL[7:0] (R35). -/
def ConfigRegs.kernelW (c : ConfigRegs) : Nat := (c.kernel.extractLsb' 0 8).toNat

/-- KH, KERNEL[15:8] (R35). -/
def ConfigRegs.kernelH (c : ConfigRegs) : Nat := (c.kernel.extractLsb' 8 8).toNat

/-- POST_K, KERNEL[23:16] (R35). -/
def ConfigRegs.postK (c : ConfigRegs) : Nat := (c.kernel.extractLsb' 16 8).toNat

/-- r = KH div 2 (00_scope.md R14). -/
def ConfigRegs.halfH (c : ConfigRegs) : Nat := c.kernelH / 2

/-- c = KW div 2 (R14). -/
def ConfigRegs.halfW (c : ConfigRegs) : Nat := c.kernelW / 2

/-- The census-valid region of R14: r ≤ y < H − r and c ≤ x < W − c, the bounds as signed integers. -/
def ConfigRegs.interior (c : ConfigRegs) (y x : Nat) : Bool :=
  c.halfH ≤ y && (y : Int) < (c.height : Int) - c.halfH && c.halfW ≤ x && (x : Int) < (c.width : Int) - c.halfW

/-- The pixels (y, x) of the image, row by row (R13). -/
def ConfigRegs.pixels (c : ConfigRegs) : List (Nat × Nat) :=
  (List.range c.height).flatMap fun y => (List.range c.width).map fun x => (y, x)

/-! ### Buffers -/

/-- The nine buffers of R65. -/
inductive Buffer where
  | imgL
  | imgR
  | cenL
  | cenR
  | cost
  | agg
  | disp
  | scaled
  | out
  deriving DecidableEq, Repr

/-- Element bytes of R65; a buffer's base must be a multiple of them (R76). -/
def Buffer.elemBytes : Buffer → Nat
  | .imgL | .imgR | .cost | .scaled | .out => 1
  | .disp => 2
  | .agg => 4
  | .cenL | .cenR => 8

/-- The BASE_* register of a buffer (R65). -/
def ConfigRegs.base (c : ConfigRegs) : Buffer → Nat
  | .imgL => c.baseImgL.toNat
  | .imgR => c.baseImgR.toNat
  | .cenL => c.baseCenL.toNat
  | .cenR => c.baseCenR.toNat
  | .cost => c.baseCost.toNat
  | .agg => c.baseAgg.toNat
  | .disp => c.baseDisp.toNat
  | .scaled => c.baseScaled.toNat
  | .out => c.baseOut.toNat

/-- Size in bytes of R65, computed exactly. -/
def ConfigRegs.size (c : ConfigRegs) : Buffer → Nat
  | .imgL | .imgR | .scaled | .out => c.height * c.width
  | .cenL | .cenR => 8 * (c.height * c.width)
  | .cost => c.height * c.width * c.disparities
  | .agg => 32 * (c.height * c.width * c.disparities)
  | .disp => 2 * (c.height * c.width)

/-- The bytes of a buffer. -/
def ConfigRegs.region (c : ConfigRegs) (b : Buffer) : Region := ⟨c.base b, c.size b⟩

/-- The buffers a command uses, read or written: the marked columns of R78. -/
def Instr.used : Instr → List Buffer
  | .nop => []
  | .censusL => [.imgL, .cenL]
  | .censusR => [.imgR, .cenR]
  | .cost => [.cenL, .cenR, .cost]
  | .aggE | .aggW | .aggS | .aggN | .aggSE | .aggNW | .aggSW | .aggNE | .aggAll => [.cost, .agg]
  | .select => [.agg, .disp]
  | .rescale => [.disp, .scaled]
  | .median => [.scaled, .out]
  | .run => [.imgL, .imgR, .cenL, .cenR, .cost, .agg, .disp, .scaled, .out]

/-- The buffers a command writes: the columns R78 marks w. -/
def Instr.writes : Instr → List Buffer
  | .nop => []
  | .censusL => [.cenL]
  | .censusR => [.cenR]
  | .cost => [.cost]
  | .aggE | .aggW | .aggS | .aggN | .aggSE | .aggNW | .aggSW | .aggNE | .aggAll => [.agg]
  | .select => [.disp]
  | .rescale => [.scaled]
  | .median => [.out]
  | .run => [.cenL, .cenR, .cost, .agg, .disp, .scaled, .out]

/-! ### Elements -/

/-- The address of pixel (y, x)'s element in a buffer with one element a pixel (R67 to R70, R73 to R75). -/
def ConfigRegs.pixelAddr (c : ConfigRegs) (b : Buffer) (y x : Nat) : Nat :=
  c.base b + b.elemBytes * (y * c.width + x)

/-- The address of COST(y, x, d) (R71). -/
def ConfigRegs.costAddr (c : ConfigRegs) (y x d : Nat) : Nat :=
  c.base .cost + ((y * c.width + x) * c.disparities + d)

/-- The address of AGG(y, x, d, k) (R72). -/
def ConfigRegs.aggAddr (c : ConfigRegs) (y x d k : Nat) : Nat :=
  c.base .agg + 4 * (((y * c.width + x) * c.disparities + d) * 8 + k)

/-- The element of pixel (y, x): IMG_L, IMG_R, CEN_L, CEN_R, DISP, SCALED and OUT of R67 to R70 and R73 to R75. -/
def ConfigRegs.pixel (c : ConfigRegs) (m : Memory) (b : Buffer) (y x : Nat) : Nat :=
  Memory.memRead m (c.pixelAddr b y x) b.elemBytes

/-- COST(y, x, d) (R71). -/
def ConfigRegs.costAt (c : ConfigRegs) (m : Memory) (y x d : Nat) : Nat := Memory.memRead m (c.costAddr y x d) 1

/-- AGG(y, x, d, k) (R72). -/
def ConfigRegs.aggAt (c : ConfigRegs) (m : Memory) (y x d k : Nat) : Nat := Memory.memRead m (c.aggAddr y x d k) 4

/-- Whether the element of pixel (y, x) has been written. -/
def ConfigRegs.hasPixel (c : ConfigRegs) (m : Memory) (b : Buffer) (y x : Nat) : Bool :=
  Memory.written m (c.pixelAddr b y x) b.elemBytes

/-- Whether COST(y, x, d) has been written. -/
def ConfigRegs.hasCost (c : ConfigRegs) (m : Memory) (y x d : Nat) : Bool := Memory.written m (c.costAddr y x d) 1

/-- Whether AGG(y, x, d, k) has been written. -/
def ConfigRegs.hasAgg (c : ConfigRegs) (m : Memory) (y x d k : Nat) : Bool := Memory.written m (c.aggAddr y x d k) 4

/-- The store that writes the element of pixel (y, x). -/
def ConfigRegs.pixelStore (c : ConfigRegs) (b : Buffer) (y x v : Nat) : Store := ⟨c.pixelAddr b y x, b.elemBytes, v⟩

end Sys2Proof.Machine
end

