-- ==== Sys2Proof/Machine/Entry.lean ====
section
/-!
DEFINITION. The entry check every command but NOP runs (60_exceptions.md R241 to R251), and the perform step that all those
commands share (70_reset_and_hazards.md R288).
-/

namespace Sys2Proof.Machine

open Sys2Proof

/-- R249: a used buffer's base is not a multiple of its alignment. -/
def misaligned (i : Instr) (c : ConfigRegs) : Bool := (Instr.used i).any fun b => c.base b % b.elemBytes != 0

/-- R250: a used buffer ends beyond 2^32, computed exactly. -/
def outOfRange (i : Instr) (c : ConfigRegs) : Bool := (Instr.used i).any fun b => dataSpaceSize < c.base b + c.size b

/-- R251: a written buffer shares a byte with another used buffer. -/
def overlapping (i : Instr) (c : ConfigRegs) : Bool :=
  (Instr.writes i).any fun a => (Instr.used i).any fun b => a != b && (c.region a).meets (c.region b)

/-- Every check of R241 on a defined command other than NOP, each recorded (R243 to R251). -/
def checkEntry (i : Instr) (c : ConfigRegs) : ErrInfo where
  shape := c.dimR != c.dim
  dimZero := c.height == 0 || c.width == 0
  dZero := c.disparities == 0
  kernelEven := c.kernelH % 2 == 0 || c.kernelW % 2 == 0
  kernelBits := 63 < c.kernelH * c.kernelW
  pOrder := c.penalty2 < c.penalty1
  postKEven := c.postK % 2 == 0
  opcode := false
  align := misaligned i c
  range := outOfRange i c
  overlap := overlapping i c

/-- The buffers a command writes, as regions (R66, R78). -/
def outputs (i : Instr) (c : ConfigRegs) : List Region := (Instr.writes i).map c.region

/-- Whether MEM_MAP backs every byte of every buffer the command uses; if not, the core is stuck (R60, K4, log entry 7). -/
def buffersBacked (i : Instr) (s : State) : Bool :=
  (Instr.used i).all fun b => s.platform.backsRegion (s.cfg.region b)

/-- The perform step of R288 for every command but NOP: the entry check, and then rejection (R252), or the whole body and
completion. A stuck core has no step (R60); a read of an unwritten byte is UNWRITTEN_READ (R281). -/
def perform (i : Instr) (body : ConfigRegs → Memory → Option Memory) (s : State) : Host.Outcome State Fault Refusal :=
  let info := checkEntry i s.cfg
  if info.code ≠ .none then .next (s.reject info.code info)
  else if buffersBacked i s = false then .fault .coreStuck
  else
    match body s.cfg s.mem with
    | none => .fault .unwrittenRead
    | some m => .next (s.complete (outputs i s.cfg) m)

end Sys2Proof.Machine
end

