-- ==== Sys2Proof/Machine/Aggregate.lean ====
section
/-!
DEFINITION. The path aggregator (42_aggregate.md): the penalty and the path recurrence, the eight directions and their slices,
AGG_E to AGG_NE and AGG_ALL.
-/

namespace Sys2Proof.Machine

open Sys2Proof

/-! ### The recurrence -/

/-- pen(d, d') of R150: 0 on equal disparities, P1 at distance 1, P2 beyond. -/
def penalty (p1 p2 d d' : Nat) : Nat :=
  if d = d' then 0 else if d + 1 = d' ∨ d' + 1 = d then p1 else p2

/-- The least element of a list. The lists it is used on have length D, and D ≥ 1 for every command that runs (R245). -/
def minOf (l : List Nat) : Nat := l.min?.getD 0

/-- L_i from L_(i−1) and C_i (R151): C_i[d] + min over d' of (L_(i−1)[d'] + pen(d, d')) − min L_(i−1), exact on naturals. -/
def nextPath (p1 p2 : Nat) (prev cost : List Nat) : List Nat :=
  cost.zipIdx.map fun (cd, d) => cd + minOf (prev.zipIdx.map fun (l, d') => l + penalty p1 p2 d d') - minOf prev

/-- L_i, L_(i+1), … from L_(i−1) and C_i, C_(i+1), … (R151). -/
def pathFrom (p1 p2 : Nat) (prev : List Nat) (costs : List (List Nat)) : List (List Nat) :=
  match costs with
  | [] => []
  | cost :: rest => nextPath p1 p2 prev cost :: pathFrom p1 p2 (nextPath p1 p2 prev cost) rest

/-- PathCost of R151 on the cost vectors C_0 .. C_(M−1) of a slice: L_0 = C_0, then the recurrence (R159). -/
def pathCost (p1 p2 : Nat) (costs : List (List Nat)) : List (List Nat) :=
  match costs with
  | [] => []
  | cost :: rest => cost :: pathFrom p1 p2 cost rest

/-! ### Directions and slices -/

/-- The eight directions, named by the way a path travels (R152). -/
inductive Direction where
  | e
  | w
  | s
  | n
  | se
  | nw
  | sw
  | ne
  deriving DecidableEq, Repr

/-- The slot k of a direction in AGG (R152). -/
def Direction.slot : Direction → Nat
  | .e => 0
  | .w => 1
  | .s => 2
  | .n => 3
  | .se => 4
  | .nw => 5
  | .sw => 6
  | .ne => 7

/-- Slots 0 to 7 in order (R152, R170). -/
def Direction.all : List Direction := [.e, .w, .s, .n, .se, .nw, .sw, .ne]

/-- The SE slice of offset k, the pixels with x − y = k from the top-left end (R155). -/
def diagonal (h w : Nat) (k : Int) : List (Nat × Nat) :=
  let ylo := max 0 (-k)
  let yhi := min ((h : Int) - 1) ((w : Int) - 1 - k)
  (List.range (yhi - ylo + 1).toNat).map fun (i : Nat) => ((ylo + (i : Int)).toNat, (ylo + (i : Int) + k).toNat)

/-- The NW slice of offset k: the SE slice reversed (R155). -/
def diagonalBack (h w : Nat) (k : Int) : List (Nat × Nat) :=
  let ylo := max 0 (-k)
  let yhi := min ((h : Int) - 1) ((w : Int) - 1 - k)
  (List.range (yhi - ylo + 1).toNat).map fun (i : Nat) => ((yhi - (i : Int)).toNat, (yhi - (i : Int) + k).toNat)

/-- The SW slice of s = x + y, from the top-right end (R156). -/
def antidiagonal (h w s : Nat) : List (Nat × Nat) :=
  let ylo := max 0 ((s : Int) - ((w : Int) - 1))
  let yhi := min ((h : Int) - 1) (s : Int)
  (List.range (yhi - ylo + 1).toNat).map fun (i : Nat) => ((ylo + (i : Int)).toNat, ((s : Int) - ylo - (i : Int)).toNat)

/-- The NE slice of s = x + y: the SW slice reversed (R156). -/
def antidiagonalBack (h w s : Nat) : List (Nat × Nat) :=
  let ylo := max 0 ((s : Int) - ((w : Int) - 1))
  let yhi := min ((h : Int) - 1) (s : Int)
  (List.range (yhi - ylo + 1).toNat).map fun (i : Nat) => ((yhi - (i : Int)).toNat, ((s : Int) - yhi + (i : Int)).toNat)

/-- The diagonal offsets −(H−1) .. W−1, both ends included (R155, C4 of 90_conflicts.md). -/
def diagonalOffsets (h w : Nat) : List Int := (List.range (h + w - 1)).map fun (t : Nat) => (t : Int) - ((h : Int) - 1)

/-- The slices of a direction, each in path order (R153 to R156). -/
def slices (dir : Direction) (h w : Nat) : List (List (Nat × Nat)) :=
  match dir with
  | .e => (List.range h).map fun y => (List.range w).map fun i => (y, i)
  | .w => (List.range h).map fun y => (List.range w).map fun i => (y, w - 1 - i)
  | .s => (List.range w).map fun x => (List.range h).map fun i => (i, x)
  | .n => (List.range w).map fun x => (List.range h).map fun i => (h - 1 - i, x)
  | .se => (diagonalOffsets h w).map (diagonal h w)
  | .nw => (diagonalOffsets h w).map (diagonalBack h w)
  | .sw => (List.range (h + w - 1)).map (antidiagonal h w)
  | .ne => (List.range (h + w - 1)).map (antidiagonalBack h w)

/-! ### Commands -/

/-- C_i: the D costs of a pixel (R152). -/
def costVector (c : ConfigRegs) (m : Memory) (p : Nat × Nat) : List Nat :=
  (List.range c.disparities).map fun d => c.costAt m p.1 p.2 d

/-- Whether every cost a direction command reads has been written. -/
def aggReadable (c : ConfigRegs) (m : Memory) (dir : Direction) : Bool :=
  (slices dir c.height c.width).all fun ps => ps.all fun (y, x) =>
    (List.range c.disparities).all fun d => c.hasCost m y x d

/-- The writes of one slice: AGG(p_i, d, k) <- L_i[d] (the generic body of 42_aggregate.md). -/
def sliceStores (c : ConfigRegs) (m : Memory) (k : Nat) (ps : List (Nat × Nat)) : List Store :=
  (ps.zip (pathCost c.penalty1 c.penalty2 (ps.map (costVector c m)))).flatMap fun (p, l) =>
    l.zipIdx.map fun (v, d) => ⟨c.aggAddr p.1 p.2 d k, 4, v⟩

/-- The writes of a direction command: slot k of every cell. -/
def aggStores (c : ConfigRegs) (m : Memory) (dir : Direction) : List Store :=
  (slices dir c.height c.width).flatMap (sliceStores c m dir.slot)

/-- The body of a direction command (the generic body of 42_aggregate.md). -/
def bodyAgg (dir : Direction) (c : ConfigRegs) (m : Memory) : Option Memory :=
  Memory.transform m (aggReadable c m dir) (aggStores c m dir)

/-- The body of AGG_ALL (R170): the eight direction bodies, k = 0 .. 7. -/
def bodyAggAll (c : ConfigRegs) (m : Memory) : Option Memory :=
  Direction.all.foldlM (fun m dir => bodyAgg dir c m) m

/-- AGG_E (R162). -/
def execAggE (s : State) : Host.Outcome State Fault Refusal := perform .aggE (bodyAgg .e) s

/-- AGG_W (R163). -/
def execAggW (s : State) : Host.Outcome State Fault Refusal := perform .aggW (bodyAgg .w) s

/-- AGG_S (R164). -/
def execAggS (s : State) : Host.Outcome State Fault Refusal := perform .aggS (bodyAgg .s) s

/-- AGG_N (R165). -/
def execAggN (s : State) : Host.Outcome State Fault Refusal := perform .aggN (bodyAgg .n) s

/-- AGG_SE (R166). -/
def execAggSE (s : State) : Host.Outcome State Fault Refusal := perform .aggSE (bodyAgg .se) s

/-- AGG_NW (R167). -/
def execAggNW (s : State) : Host.Outcome State Fault Refusal := perform .aggNW (bodyAgg .nw) s

/-- AGG_SW (R168). -/
def execAggSW (s : State) : Host.Outcome State Fault Refusal := perform .aggSW (bodyAgg .sw) s

/-- AGG_NE (R169). -/
def execAggNE (s : State) : Host.Outcome State Fault Refusal := perform .aggNE (bodyAgg .ne) s

/-- AGG_ALL (R170). -/
def execAggAll (s : State) : Host.Outcome State Fault Refusal := perform .aggAll bodyAggAll s

end Sys2Proof.Machine
end

