-- ==== Sys2Proof/Machine/Census.lean ====
section
/-!
DEFINITION. The census encoder (40_census.md): the census function, CENSUS_L and CENSUS_R.
-/

namespace Sys2Proof.Machine

open Sys2Proof

/-- The window offsets (i, j) in raster order without the centre cell (R110). -/
def neighbourOffsets (kh kw : Nat) : List (Nat × Nat) :=
  ((List.range kh).flatMap fun i => (List.range kw).map fun j => (i, j)).filter
    fun p => !(p.1 == kh / 2 && p.2 == kw / 2)

/-- The samples compared with the centre of the window at (y, x), in raster order (R110). -/
def neighbours (c : ConfigRegs) (y x : Nat) : List (Nat × Nat) :=
  (neighbourOffsets c.kernelH c.kernelW).map fun p => (y - c.halfH + p.1, x - c.halfW + p.2)

/-- Packing of R110: v <- (v << 1) | b for each comparison bit, the first bit packed ending highest. -/
def packBits (bits : List Bool) : Nat := bits.foldl (fun v b => 2 * v + b.toNat) 0

/-- Census(IMG)(y, x) of R110: one bit per neighbour, 1 where it is darker than the centre; the sentinel 0 in the border
band (R112). -/
def census (c : ConfigRegs) (img : Nat → Nat → Nat) (y x : Nat) : Nat :=
  if c.interior y x then packBits ((neighbours c y x).map fun p => decide (img p.1 p.2 < img y x)) else 0

/-- Whether every sample that R110's pseudocode reads has been written. -/
def censusReadable (c : ConfigRegs) (m : Memory) (src : Buffer) : Bool :=
  c.pixels.all fun (y, x) =>
    !c.interior y x || (neighbours c y x).all fun p => c.hasPixel m src p.1 p.2 && c.hasPixel m src y x

/-- The writes of R113 and R114: the census of `src` at every pixel of `dst`. -/
def censusStores (c : ConfigRegs) (m : Memory) (src dst : Buffer) : List Store :=
  c.pixels.map fun (y, x) => c.pixelStore dst y x (census c (c.pixel m src) y x)

/-- The body of CENSUS_L (R113), without entry check and completion. -/
def bodyCensusL (c : ConfigRegs) (m : Memory) : Option Memory :=
  Memory.transform m (censusReadable c m .imgL) (censusStores c m .imgL .cenL)

/-- The body of CENSUS_R (R114). -/
def bodyCensusR (c : ConfigRegs) (m : Memory) : Option Memory :=
  Memory.transform m (censusReadable c m .imgR) (censusStores c m .imgR .cenR)

/-- CENSUS_L (R113). -/
def execCensusL (s : State) : Host.Outcome State Fault Refusal := perform .censusL bodyCensusL s

/-- CENSUS_R (R114). -/
def execCensusR (s : State) : Host.Outcome State Fault Refusal := perform .censusR bodyCensusR s

end Sys2Proof.Machine
end

