-- ==== Sys2Proof/Machine/Cost.lean ====
section
/-!
DEFINITION. The cost-volume builder (41_cost.md): Hamming distance, clamp by replication, COST.
-/

namespace Sys2Proof.Machine

open Sys2Proof

/-- The number of 1 bits of a 64-bit value (R10, R130). -/
def popcount64 (v : Nat) : Nat := (List.range 64).countP fun i => Nat.testBit v i

/-- Ham(a, b) = popcount(a xor b) for 64-bit a and b (R130). -/
def hamming (a b : Nat) : Nat := popcount64 (a ^^^ b)

/-- The right column compared at disparity d: xs = max(x − d, c), x − d as a signed integer (R132). -/
def rightColumn (c : ConfigRegs) (x d : Nat) : Nat := (max ((x : Int) - d) c.halfW).toNat

/-- COST(y, x, d) of R131 from the two census maps; 0 in the border band (R134). -/
def matchCost (c : ConfigRegs) (left right : Nat → Nat → Nat) (y x d : Nat) : Nat :=
  if c.interior y x then hamming (left y x) (right y (rightColumn c x d)) else 0

/-- Whether every descriptor that R131's pseudocode reads has been written: interior pixels only (R132, R134). -/
def costReadable (c : ConfigRegs) (m : Memory) : Bool :=
  c.pixels.all fun (y, x) =>
    !c.interior y x || (List.range c.disparities).all fun d =>
      c.hasPixel m .cenL y x && c.hasPixel m .cenR y (rightColumn c x d)

/-- The writes of R131. -/
def costStores (c : ConfigRegs) (m : Memory) : List Store :=
  c.pixels.flatMap fun (y, x) => (List.range c.disparities).map fun d =>
    ⟨c.costAddr y x d, 1, matchCost c (c.pixel m .cenL) (c.pixel m .cenR) y x d⟩

/-- The body of COST (R131). -/
def bodyCost (c : ConfigRegs) (m : Memory) : Option Memory :=
  Memory.transform m (costReadable c m) (costStores c m)

/-- COST (R131). -/
def execCost (s : State) : Host.Outcome State Fault Refusal := perform .cost bodyCost s

end Sys2Proof.Machine
end

