-- ==== Sys2Proof/Machine/Select.lean ====
section
/-!
DEFINITION. The disparity selector and post-filter (43_select.md): SELECT, RESCALE, MEDIAN.
-/

namespace Sys2Proof.Machine

open Sys2Proof

/-! ### SELECT -/

/-- S[d]: the exact sum of the eight slots (R190, R192). -/
def slotSum (agg : Nat → Nat → Nat) (d : Nat) : Nat := ((List.range 8).map fun k => agg d k).sum

/-- The winner-take-all loop of R190 over S[0] .. S[D−1]: strict comparison, so the lowest index wins a tie (R191). -/
def winner (sums : List Nat) : Nat :=
  (List.range' 1 (sums.length - 1)).foldl (fun best d => if sums.getD d 0 < sums.getD best 0 then d else best) 0

/-- Whether every AGG element SELECT reads has been written. -/
def selectReadable (c : ConfigRegs) (m : Memory) : Bool :=
  c.pixels.all fun (y, x) => (List.range c.disparities).all fun d => (List.range 8).all fun k => c.hasAgg m y x d k

/-- The sums S[0] .. S[D−1] at a pixel (R190). -/
def pixelSums (c : ConfigRegs) (m : Memory) (y x : Nat) : List Nat :=
  (List.range c.disparities).map (slotSum (c.aggAt m y x))

/-- The writes of SELECT (R190). -/
def selectStores (c : ConfigRegs) (m : Memory) : List Store :=
  c.pixels.map fun (y, x) => c.pixelStore .disp y x (winner (pixelSums c m y x))

/-- The body of SELECT (R190). -/
def bodySelect (c : ConfigRegs) (m : Memory) : Option Memory :=
  Memory.transform m (selectReadable c m) (selectStores c m)

/-- SELECT (R190). -/
def execSelect (s : State) : Host.Outcome State Fault Refusal := perform .select bodySelect s

/-! ### RESCALE -/

/-- R196: min(255, (255 · v) div D). -/
def rescale (d v : Nat) : Nat := min 255 (255 * v / d)

/-- Whether every disparity RESCALE reads has been written. -/
def rescaleReadable (c : ConfigRegs) (m : Memory) : Bool := c.pixels.all fun (y, x) => c.hasPixel m .disp y x

/-- The writes of RESCALE (R195). -/
def rescaleStores (c : ConfigRegs) (m : Memory) : List Store :=
  c.pixels.map fun (y, x) => c.pixelStore .scaled y x (rescale c.disparities (c.pixel m .disp y x))

/-- The body of RESCALE (R195). -/
def bodyRescale (c : ConfigRegs) (m : Memory) : Option Memory :=
  Memory.transform m (rescaleReadable c m) (rescaleStores c m)

/-- RESCALE (R195). -/
def execRescale (s : State) : Host.Outcome State Fault Refusal := perform .rescale bodyRescale s

/-! ### MEDIAN -/

/-- clamp(v, 0, n − 1) on a signed coordinate (R10, R201), for n ≥ 1. -/
def clampCoord (v : Int) (n : Nat) : Nat := (max 0 (min ((n : Int) - 1) v)).toNat

/-- The window offsets −h .. h for K = 2·h + 1 (R200). -/
def windowOffsets (k : Nat) : List Int := (List.range (2 * (k / 2) + 1)).map fun (t : Nat) => (t : Int) - ((k / 2 : Nat) : Int)

/-- The K·K sample positions of the window centred on (y, x), coordinates clamped to the image (R200, R201). -/
def windowPixels (c : ConfigRegs) (y x : Nat) : List (Nat × Nat) :=
  (windowOffsets c.postK).flatMap fun i => (windowOffsets c.postK).map fun j =>
    (clampCoord ((y : Int) + i) c.height, clampCoord ((x : Int) + j) c.width)

/-- Insert a value before the first element that is not below it. -/
def insertAscending (v : Nat) (l : List Nat) : List Nat :=
  match l with
  | [] => [v]
  | a :: rest => if v ≤ a then v :: a :: rest else a :: insertAscending v rest

/-- Sort ascending (R200). -/
def sortAscending (l : List Nat) : List Nat := l.foldr insertAscending []

/-- The middle element list[(K·K − 1) div 2] of the sorted samples (R200). -/
def medianOf (k : Nat) (samples : List Nat) : Nat := (sortAscending samples).getD ((k * k - 1) / 2) 0

/-- Whether every sample MEDIAN reads has been written. -/
def medianReadable (c : ConfigRegs) (m : Memory) : Bool :=
  c.pixels.all fun (y, x) => (windowPixels c y x).all fun p => c.hasPixel m .scaled p.1 p.2

/-- OUT(y, x) from the rescaled image (R200). -/
def medianAt (c : ConfigRegs) (scaled : Nat → Nat → Nat) (y x : Nat) : Nat :=
  medianOf c.postK ((windowPixels c y x).map fun p => scaled p.1 p.2)

/-- The writes of MEDIAN (R200). -/
def medianStores (c : ConfigRegs) (m : Memory) : List Store :=
  c.pixels.map fun (y, x) => c.pixelStore .out y x (medianAt c (c.pixel m .scaled) y x)

/-- The body of MEDIAN (R200). -/
def bodyMedian (c : ConfigRegs) (m : Memory) : Option Memory :=
  Memory.transform m (medianReadable c m) (medianStores c m)

/-- MEDIAN (R200). -/
def execMedian (s : State) : Host.Outcome State Fault Refusal := perform .median bodyMedian s

end Sys2Proof.Machine
end

