-- ==== Sys2Proof/Machine/Control.lean ====
section
/-!
DEFINITION. The control commands (44_control.md): NOP and RUN.
-/

namespace Sys2Proof.Machine

open Sys2Proof

/-- NOP (R220): no entry check, no memory, completes whatever the registers hold. -/
def execNop (s : State) : Host.Outcome State Fault Refusal := .next (s.complete [] s.mem)

/-- The body of RUN (R221): the seven bodies in order, each reading what the one before it wrote. -/
def bodyRun (c : ConfigRegs) (m : Memory) : Option Memory := do
  let m ← bodyCensusL c m
  let m ← bodyCensusR c m
  let m ← bodyCost c m
  let m ← bodyAggAll c m
  let m ← bodySelect c m
  let m ← bodyRescale c m
  bodyMedian c m

/-- RUN (R221). -/
def execRun (s : State) : Host.Outcome State Fault Refusal := perform .run bodyRun s

end Sys2Proof.Machine
end

