-- ==== Sys2Proof/Machine/Dispatch.lean ====
section
/-!
DEFINITION. The meaning of every command: one arm per constructor of Instr, each one direct call (30_encoding.md R93).
-/

namespace Sys2Proof.Machine

open Sys2Proof

/-- The core's perform step of a decoded command (70_reset_and_hazards.md R288). -/
def exec (i : Instr) (s : State) : Host.Outcome State Fault Refusal :=
  match i with
  | .nop => Sys2Proof.Machine.execNop s
  | .censusL => Sys2Proof.Machine.execCensusL s
  | .censusR => Sys2Proof.Machine.execCensusR s
  | .cost => Sys2Proof.Machine.execCost s
  | .aggE => Sys2Proof.Machine.execAggE s
  | .aggW => Sys2Proof.Machine.execAggW s
  | .aggS => Sys2Proof.Machine.execAggS s
  | .aggN => Sys2Proof.Machine.execAggN s
  | .aggSE => Sys2Proof.Machine.execAggSE s
  | .aggNW => Sys2Proof.Machine.execAggNW s
  | .aggSW => Sys2Proof.Machine.execAggSW s
  | .aggNE => Sys2Proof.Machine.execAggNE s
  | .aggAll => Sys2Proof.Machine.execAggAll s
  | .select => Sys2Proof.Machine.execSelect s
  | .rescale => Sys2Proof.Machine.execRescale s
  | .median => Sys2Proof.Machine.execMedian s
  | .run => Sys2Proof.Machine.execRun s

end Sys2Proof.Machine
end

