-- ==== Sys2Proof/WellFormed.lean ====
section
/-!
DEFINITION. Which command words are well-formed. A command has no operand (30_encoding.md R91), so an `Instr` has nothing to
check; a command WORD has two checks (R92), written here from the text of R92 and R94 and not from the decoder.
-/

namespace Sys2Proof

/-- An instruction is well-formed for every constructor: no command has an immediate, register or mode field (R91). -/
def Instr.wellFormed : Instr → Bool
  | .nop | .censusL | .censusR | .cost => true
  | .aggE | .aggW | .aggS | .aggN | .aggSE | .aggNW | .aggSW | .aggNE | .aggAll => true
  | .select | .rescale | .median | .run => true

/-- The first check of R92: RSVD, bits 31:8 of the word, is zero. -/
def reservedIsZero (v : Word) : Bool := v.toNat / 256 == 0

/-- The opcodes of R93: NOP, the three stages, the eight directions and AGG_ALL, the three selector steps, RUN. -/
def opcodeListed (v : Word) : Bool :=
  let op := v.toNat % 256
  op ≤ 0x03 || (0x10 ≤ op && op ≤ 0x18) || (0x20 ≤ op && op ≤ 0x22) || op == 0x30

/-- R92: a word is a defined command if and only if both checks hold. -/
def wellFormedWord (v : Word) : Bool := reservedIsZero v && opcodeListed v

end Sys2Proof
end

