-- ==== Sys2Proof/Decode.lean ====
section
/-!
DEFINITION. The command decoder, total on every 32-bit word and rejecting by name (30_encoding.md R90 to R95), and the encoder
(the word column of R93). Commands arrive as CMD register writes and are never fetched from memory (20_memory.md R63).
-/

namespace Sys2Proof

/-- Why a word is no defined command (R94). Each is rejected by the core with ILLEGAL_COMMAND; none is a no-op. -/
inductive DecodeError where
  /-- RSVD, bits 31:8, is not zero (R94, first item). -/
  | reservedBits
  /-- Opcode 0x04, held for the correlation cost that SGM-CORE does not implement (R94, second item). -/
  | heldOpcode
  /-- Any other opcode R93 does not list (R94, third item). -/
  | undefinedOpcode (opcode : Byte)
  deriving DecidableEq, Repr

/-- OPCODE, bits 7:0 of a command word (R90). -/
def opcodeField (v : Word) : Byte := v.extractLsb' 0 8

/-- RSVD, bits 31:8 of a command word (R90). -/
def reservedField (v : Word) : BitVec 24 := v.extractLsb' 8 24

/-- The opcode map of R93; every other opcode is illegal (R94). -/
def decodeOpcode (op : Byte) : Except DecodeError Instr :=
  if op = 0x00#8 then .ok .nop
  else if op = 0x01#8 then .ok .censusL
  else if op = 0x02#8 then .ok .censusR
  else if op = 0x03#8 then .ok .cost
  else if op = 0x04#8 then .error .heldOpcode
  else if op = 0x10#8 then .ok .aggE
  else if op = 0x11#8 then .ok .aggW
  else if op = 0x12#8 then .ok .aggS
  else if op = 0x13#8 then .ok .aggN
  else if op = 0x14#8 then .ok .aggSE
  else if op = 0x15#8 then .ok .aggNW
  else if op = 0x16#8 then .ok .aggSW
  else if op = 0x17#8 then .ok .aggNE
  else if op = 0x18#8 then .ok .aggAll
  else if op = 0x20#8 then .ok .select
  else if op = 0x21#8 then .ok .rescale
  else if op = 0x22#8 then .ok .median
  else if op = 0x30#8 then .ok .run
  else .error (.undefinedOpcode op)

/-- R92: a word is a defined command if and only if RSVD is zero and OPCODE is listed. -/
def decode (v : Word) : Except DecodeError Instr :=
  if reservedField v = 0#24 then decodeOpcode (opcodeField v) else .error .reservedBits

/-- The word column of R93. -/
def encode : Instr → Word
  | .nop => 0x00000000#32
  | .censusL => 0x00000001#32
  | .censusR => 0x00000002#32
  | .cost => 0x00000003#32
  | .aggE => 0x00000010#32
  | .aggW => 0x00000011#32
  | .aggS => 0x00000012#32
  | .aggN => 0x00000013#32
  | .aggSE => 0x00000014#32
  | .aggNW => 0x00000015#32
  | .aggSW => 0x00000016#32
  | .aggNE => 0x00000017#32
  | .aggAll => 0x00000018#32
  | .select => 0x00000020#32
  | .rescale => 0x00000021#32
  | .median => 0x00000022#32
  | .run => 0x00000030#32

/-- The command word that spec/opcode_table.json's numbering (bit 0 the least significant of the one 32-bit word) gives for
`nbits` bits of value `w`; the bits above `nbits` are zero. -/
def tableWord (nbits w : Nat) : Word := BitVec.ofNat 32 (w % 2 ^ nbits)

/-- What the decoder reads from a table row's word (the host's fixed name). -/
def decodeTableWord (nbits w : Nat) : Option Instr :=
  match decode (tableWord nbits w) with
  | .ok i => some i
  | .error _ => none

end Sys2Proof
end

