-- ==== Sys2Proof/Machine/Registers.lean ====
section
/-!
DEFINITION. The register window (10_state.md R23 to R38): the register map, what a read returns and what a write does.
-/

namespace Sys2Proof.Machine

open Sys2Proof

/-- The registers of R23; the nine BASE_* registers go by their buffer. -/
inductive Reg where
  | id
  | cmd
  | status
  | errCode
  | errInfo
  | intEn
  | dim
  | dimR
  | ndisp
  | p1
  | p2
  | kernel
  | base (b : Buffer)
  deriving DecidableEq, Repr

/-- The identification word 0x53474D07 (R24). -/
def Reg.idWord : Word := 0x53474D07#32

/-- The register map of R23; `none` is a reserved offset. -/
def Reg.atOffset (off : Nat) : Option Reg :=
  if off = 0x00 then some .id
  else if off = 0x04 then some .cmd
  else if off = 0x08 then some .status
  else if off = 0x0C then some .errCode
  else if off = 0x10 then some .errInfo
  else if off = 0x14 then some .intEn
  else if off = 0x20 then some .dim
  else if off = 0x24 then some .dimR
  else if off = 0x28 then some .ndisp
  else if off = 0x2C then some .p1
  else if off = 0x30 then some .p2
  else if off = 0x34 then some .kernel
  else if off = 0x40 then some (.base .imgL)
  else if off = 0x44 then some (.base .imgR)
  else if off = 0x48 then some (.base .cenL)
  else if off = 0x4C then some (.base .cenR)
  else if off = 0x50 then some (.base .cost)
  else if off = 0x54 then some (.base .agg)
  else if off = 0x58 then some (.base .disp)
  else if off = 0x5C then some (.base .scaled)
  else if off = 0x60 then some (.base .out)
  else none

/-- A BASE_* register's word (R36). -/
def ConfigRegs.baseWord (c : ConfigRegs) : Buffer → Word
  | .imgL => c.baseImgL
  | .imgR => c.baseImgR
  | .cenL => c.baseCenL
  | .cenR => c.baseCenR
  | .cost => c.baseCost
  | .agg => c.baseAgg
  | .disp => c.baseDisp
  | .scaled => c.baseScaled
  | .out => c.baseOut

/-- What a register reads (R24 to R36); bits that no field holds read 0 (R37). -/
def State.readReg (s : State) : Reg → Word
  | .id => Reg.idWord
  | .cmd => s.curCmd
  | .status => s.status
  | .errCode => s.errCode.word
  | .errInfo => s.errInfo.word
  | .intEn => s.intEn.setWidth 32
  | .dim => s.cfg.dim
  | .dimR => s.cfg.dimR
  | .ndisp => s.cfg.ndisp.setWidth 32
  | .p1 => s.cfg.p1.setWidth 32
  | .p2 => s.cfg.p2.setWidth 32
  | .kernel => s.cfg.kernel.setWidth 32
  | .base b => s.cfg.baseWord b

/-- What an offset of the window reads: a reserved offset reads 0 (R37). -/
def State.readOffset (s : State) (off : Nat) : Word :=
  match Reg.atOffset off with
  | some r => s.readReg r
  | none => 0

/-- A write to a BASE_* register (R36). -/
def ConfigRegs.writeBase (c : ConfigRegs) (b : Buffer) (v : Word) : ConfigRegs :=
  match b with
  | .imgL => { c with baseImgL := v }
  | .imgR => { c with baseImgR := v }
  | .cenL => { c with baseCenL := v }
  | .cenR => { c with baseCenR := v }
  | .cost => { c with baseCost := v }
  | .agg => { c with baseAgg := v }
  | .disp => { c with baseDisp := v }
  | .scaled => { c with baseScaled := v }
  | .out => { c with baseOut := v }

/-- A write to a configuration register while idle: the bits no field holds are ignored (R30 to R37). -/
def ConfigRegs.write (c : ConfigRegs) (r : Reg) (v : Word) : ConfigRegs :=
  match r with
  | .dim => { c with dim := v }
  | .dimR => { c with dimR := v }
  | .ndisp => { c with ndisp := v.setWidth 16 }
  | .p1 => { c with p1 := v.setWidth 16 }
  | .p2 => { c with p2 := v.setWidth 16 }
  | .kernel => { c with kernel := v.setWidth 24 }
  | .base b => c.writeBase b v
  | .id | .cmd | .status | .errCode | .errInfo | .intEn => c

/-- A write to a configuration register: ignored while busy (R38). -/
def State.writeConfig (s : State) (r : Reg) (v : Word) : State :=
  if s.busy then s else { s with cfg := s.cfg.write r v }

/-- A host write to CMD: accepted while idle, dropped while busy (R25). -/
def State.writeCmd (s : State) (v : Word) : State := if s.busy then s.drop else s.accept v

/-- What a host write to a register does: ID, ERR_CODE and ERR_INFO ignore it (R23, R24, R27, R28), INT_EN and STATUS
take it at all times (R38). -/
def State.writeReg (s : State) (r : Reg) (v : Word) : State :=
  match r with
  | .id | .errCode | .errInfo => s
  | .cmd => s.writeCmd v
  | .status => s.clearStatus v
  | .intEn => { s with intEn := v.setWidth 3 }
  | .dim | .dimR | .ndisp | .p1 | .p2 | .kernel | .base _ => s.writeConfig r v

/-- A write to an offset of the window: a reserved offset ignores it (R37). -/
def State.writeOffset (s : State) (off : Nat) (v : Word) : State :=
  match Reg.atOffset off with
  | some r => s.writeReg r v
  | none => s

end Sys2Proof.Machine
end

