-- ==== Sys2Proof/Machine/HostPort.lean ====
section
/-!
DEFINITION. What the host and the platform can do to the machine (70_reset_and_hazards.md R280 to R282, R291 to R296,
10_state.md R39, 60_exceptions.md R253): register accesses, data-space accesses, polling, reset.
-/

namespace Sys2Proof.Machine

open Sys2Proof

/-- Bytes of an access. -/
def Width.bytes : Width → Nat
  | .w8 => 1
  | .w16 => 2
  | .w32 => 4
  | .w64 => 8

/-- The window is 256 bytes (R23). -/
def windowSize : Nat := 256

/-- What a host bus access addresses. -/
inductive BusTarget where
  /-- No byte of the window: another device of the platform (R79). -/
  | foreign
  /-- The window, but not a 32-bit access at a 4-byte-aligned offset (R39). -/
  | broken
  /-- The register at this offset. -/
  | offset (off : Nat)
  deriving DecidableEq, Repr

/-- R39: register accesses are 32-bit accesses at 4-byte-aligned offsets of the window at REG_BASE. -/
def busTarget (p : Platform) (addr : Nat) (w : Width) : BusTarget :=
  if addr + w.bytes ≤ p.regBase ∨ p.regBase + windowSize ≤ addr then .foreign
  else if w = .w32 ∧ p.regBase ≤ addr ∧ (addr - p.regBase) % 4 = 0 then .offset (addr - p.regBase)
  else .broken

/-- The host gets a word back (R296). -/
def State.reply (s : State) (v : DWord) : State := { s with replies := v :: s.replies }

/-- The host has seen the completion of every completed command (R294). -/
def State.see (s : State) : State := { s with unseen := [] }

/-- A read of an offset of the window: the word goes to the host, and a STATUS read that shows the completion orders the
host's later reads after the command's writes (20_memory.md R82). -/
def State.hostReadOffset (s : State) (off : Nat) : State :=
  let t := s.reply ((s.readOffset off).setWidth 64)
  if Reg.atOffset off = some .status && s.showsCompletion then t.see else t

/-- A sample of the IRQ line: its level goes to the host (R255), and where only DONE can hold it up, the host has seen the
completion (R82, R294; log entry 5). -/
def State.hostReadIrq (s : State) : State :=
  let t := s.reply ((BitVec.ofBool s.irq).setWidth 64)
  if s.irqShowsDone then t.see else t

/-- A host read on the bus (R39, R253). -/
def hostBusRead (addr : Nat) (w : Width) (s : State) : Host.Outcome State Fault Refusal :=
  match busTarget s.platform addr w with
  | .foreign => .refused .foreignAddress
  | .broken => .fault .busError
  | .offset off => .next (s.hostReadOffset off)

/-- A host write on the bus (R39, R253). -/
def hostBusWrite (addr : Nat) (w : Width) (v : DWord) (s : State) : Host.Outcome State Fault Refusal :=
  match busTarget s.platform addr w with
  | .foreign => .refused .foreignAddress
  | .broken => .fault .busError
  | .offset off => .next (s.writeOffset off (v.setWidth 32))

/-- The buffers of the accepted command: those R78 marks for it; an illegal word uses none. -/
def State.commandUses (s : State) : List Region :=
  match decode s.curCmd with
  | .ok i => (Instr.used i).map s.cfg.region
  | .error _ => []

/-- The buffers the accepted command writes. -/
def State.commandWrites (s : State) : List Region :=
  match decode s.curCmd with
  | .ok i => outputs i s.cfg
  | .error _ => []

/-- R291: the access touches a byte of a buffer that the running command uses. -/
def State.races (s : State) (r : Region) : Bool := s.busy && s.commandUses.any r.meets

/-- A host read of the data space (R62, R281, R291, R294). -/
def hostMemRead (addr : Word) (w : Width) (s : State) : Host.Outcome State Fault Refusal :=
  let r : Region := ⟨addr.toNat, w.bytes⟩
  if s.races r then .fault .hostRace
  else if s.unseen.any r.meets then .fault .earlyRead
  else if s.platform.backsRegion r = false then .fault .hostUnbacked
  else if Memory.written s.mem r.base r.size = false then .fault .unwrittenRead
  else .next (s.reply (BitVec.ofNat 64 (Memory.memRead s.mem r.base r.size)))

/-- A host write of the data space (R62, R291). -/
def hostMemWrite (addr : Word) (w : Width) (v : DWord) (s : State) : Host.Outcome State Fault Refusal :=
  let r : Region := ⟨addr.toNat, w.bytes⟩
  if s.races r then .fault .hostRace
  else if s.platform.backsRegion r = false then .fault .hostUnbacked
  else .next { s with mem := Memory.memWrite s.mem r.base r.size v.toNat }

/-- The bytes that a reset leaves open (R282): those of the written buffers of the command it abandons, where there is
memory. -/
def State.abandoned (s : State) : List Nat :=
  if s.busy then
    (s.commandWrites.flatMap fun r => (List.range r.size).map fun i => r.base + i).filter s.platform.backs
  else []

/-- Draw a free byte for each address, the draws numbered from n. -/
def Memory.drawAll (m : Memory) (n : Nat) (addrs : List Nat) : Memory :=
  match addrs with
  | [] => m
  | a :: rest => Memory.drawAll (Memory.writeByte m a (Config.resetByte n)) (n + 1) rest

/-- The platform's reset (R280 to R282): every register and the sequencer take the values of R44; the data space is kept,
but for the free bytes of an abandoned command's outputs; no DONE or ERR is reported. The platform, and what the host has
done and will do, are no part of what reset resets. -/
def State.applyReset (s : State) : State :=
  { State.resetOn s.platform with
    mem := Memory.drawAll s.mem s.draws s.abandoned
    draws := s.draws + s.abandoned.length
    inputs := s.inputs, replies := s.replies, unseen := s.unseen, accepts := s.accepts }

/-- What one input does. -/
def hostAct (input : Input) (s : State) : Host.Outcome State Fault Refusal :=
  match input with
  | .reset => .next s.applyReset
  | .busRead addr w => hostBusRead addr w s
  | .busWrite addr w v => hostBusWrite addr w v s
  | .memRead addr w => hostMemRead addr w s
  | .memWrite addr w v => hostMemWrite addr w v s
  | .pollIdle => .next (s.hostReadOffset 0x08)
  | .readIrq => .next s.hostReadIrq

/-- The inputs left after the first was taken: `wait` polls again while BUSY reads 1 (30_encoding.md R97). -/
def State.nextInputs (s : State) : List Input :=
  match s.inputs with
  | [] => []
  | .pollIdle :: rest => if s.busy then .pollIdle :: rest else rest
  | _ :: rest => rest

/-- The state in which the host's next input acts: it has been taken, and one host step of LATENCY has passed (R288). -/
def State.takeInput (s : State) : State := { s with inputs := s.nextInputs, latencyLeft := s.latencyLeft - 1 }

/-- One host step. With nothing left to do the machine stays as it is, which is no fault (R296). -/
def hostStep (s : State) : Host.Outcome State Fault Refusal :=
  match s.inputs with
  | [] => .next s
  | input :: _ => hostAct input s.takeInput

end Sys2Proof.Machine
end

