-- ==== Sys2Proof/Machine/Sequencer.lean ====
section
/-!
DEFINITION. The two agents' steps and whose turn it is (00_scope.md R17, 70_reset_and_hazards.md R288).
-/

namespace Sys2Proof.Machine

open Sys2Proof

/-- The core's perform step (R288): the accepted word's command, or the rejection of an illegal word (60_exceptions.md
R242). -/
def coreStep (s : State) : Host.Outcome State Fault Refusal :=
  match decode s.curCmd with
  | .ok i => exec i s
  | .error _ => .next (s.reject ErrInfo.illegalWord.code .illegalWord)

/-- The core moves while busy, once LATENCY host steps have passed, or when the host has nothing left to do (weak fairness,
R288). -/
def State.coreTurn (s : State) : Bool := s.busy && (s.latencyLeft == 0 || s.inputs.isEmpty)

/-- One step of the machine. A stuck core has no step (20_memory.md R60): the host goes on, and only when it has nothing
left to do does the machine stop. -/
def agentStep (s : State) : Host.Outcome State Fault Refusal :=
  if s.coreTurn then
    match coreStep s with
    | .next t => .next t
    | .fault .coreStuck => if s.inputs.isEmpty then .fault .coreStuck else hostStep s
    | .fault f => .fault f
    | .refused r => .refused r
  else hostStep s

/-- The acceptance of a command word with LATENCY 0, so that the very next step performs it (log entry 4). -/
def State.issueNow (s : State) (v : Word) : State := { s.accept v with latencyLeft := 0 }

end Sys2Proof.Machine
end

