-- ==== Sys2Proof/Machine/Step.lean ====
section
/-!
DEFINITION. One step of the machine, and how the host's checks place a command.
-/

namespace Sys2Proof.Machine

open Sys2Proof

/-- One step of the machine: the core's or the host's (70_reset_and_hazards.md R288). -/
def step (s : State) : Host.Outcome State Fault Refusal := agentStep s

/-- `s` with a command word accepted (10_state.md R25) and LATENCY 0, so that the next step performs it. The core fetches
nothing (20_memory.md R63): acceptance is how a command comes to run (log entry 4). -/
def State.withFetchWord (s : State) (nbits w : Nat) : State := s.issueNow (tableWord nbits w)

end Sys2Proof.Machine
end

