-- ==== Sys2Proof/Safety.lean ====
section
/-!
DEFINITION. What the claims are stated with: the machine's invariant, the conditions under which a command runs (written from
the rules, not from the entry check's code), and the values of the outputs as the rules describe them.
-/

namespace Sys2Proof

open Machine

/-! ### The invariant -/

/-- The data space is in canonical form and inside the 32-bit space (20_memory.md R60); DONE and ERR are never both 1 and are
both 0 while busy (10_state.md R26); ERR_CODE is the code R257 gives ERR_INFO; ERR = 1 comes with a code other than NONE,
and DONE = 1 or BUSY = 1 with ERR_CODE and ERR_INFO cleared (R25, R27, R28). -/
abbrev Inv (s : State) : Prop :=
  Memory.wf s.mem ∧ (∀ cell ∈ s.mem, cell.1 < 2 ^ 32) ∧
  ¬(s.done = true ∧ s.err = true) ∧
  (s.busy = true → s.done = false ∧ s.err = false) ∧
  s.errCode = s.errInfo.code ∧
  (s.err = true → s.errCode ≠ .none) ∧
  (s.done = true ∨ s.busy = true → s.errInfo = .zero)

/-! ### When a command runs -/

/-- The parameters pass R243 to R248 of 60_exceptions.md. -/
abbrev ParametersLegal (c : ConfigRegs) : Prop :=
  c.dimR = c.dim ∧ 1 ≤ c.height ∧ 1 ≤ c.width ∧ 1 ≤ c.disparities ∧ c.kernelH % 2 = 1 ∧ c.kernelW % 2 = 1 ∧
  c.kernelH * c.kernelW ≤ 63 ∧ c.penalty1 ≤ c.penalty2 ∧ c.postK % 2 = 1

/-- The buffers a command uses pass R249 to R251: aligned, inside the data space, and no written one shares a byte with
another used one. -/
abbrev BuffersLegal (i : Instr) (c : ConfigRegs) : Prop :=
  (∀ b ∈ Instr.used i, c.base b % b.elemBytes = 0 ∧ c.base b + c.size b ≤ 2 ^ 32) ∧
  ∀ a ∈ Instr.writes i, ∀ b ∈ Instr.used i, a ≠ b →
    c.base a + c.size a ≤ c.base b ∨ c.base b + c.size b ≤ c.base a

/-- MEM_MAP backs every byte of every buffer the command uses (20_memory.md R60). -/
abbrev BuffersBacked (i : Instr) (s : State) : Prop :=
  ∀ b ∈ Instr.used i, ∀ o < s.cfg.size b, s.platform.backs (s.cfg.base b + o) = true

/-- The command passes its entry check and its buffers have memory. -/
abbrev Legal (i : Instr) (s : State) : Prop :=
  ParametersLegal s.cfg ∧ BuffersLegal i s.cfg ∧ BuffersBacked i s

/-! ### Which elements a command reads -/

/-- Every sample the census of `b` compares has been written (40_census.md R110). -/
abbrev CensusSamplesWritten (c : ConfigRegs) (m : Memory) (b : Buffer) : Prop :=
  ∀ y < c.height, ∀ x < c.width, c.interior y x = true → ∀ i < c.kernelH, ∀ j < c.kernelW,
    ¬(i = c.halfH ∧ j = c.halfW) →
      c.hasPixel m b (y - c.halfH + i) (x - c.halfW + j) = true ∧ c.hasPixel m b y x = true

/-- Every descriptor COST reads has been written: those of interior pixels (41_cost.md R131). -/
abbrev DescriptorsWritten (c : ConfigRegs) (m : Memory) : Prop :=
  ∀ y < c.height, ∀ x < c.width, c.interior y x = true →
    c.hasPixel m .cenL y x = true ∧ c.hasPixel m .cenR y x = true

/-- Every cost has been written (42_aggregate.md). -/
abbrev CostsWritten (c : ConfigRegs) (m : Memory) : Prop :=
  ∀ y < c.height, ∀ x < c.width, ∀ d < c.disparities, c.hasCost m y x d = true

/-- Every slot of every aggregation cell has been written (43_select.md R190). -/
abbrev SlotsWritten (c : ConfigRegs) (m : Memory) : Prop :=
  ∀ y < c.height, ∀ x < c.width, ∀ d < c.disparities, ∀ k < 8, c.hasAgg m y x d k = true

/-- Every element of a buffer with one element a pixel has been written. -/
abbrev PixelsWritten (c : ConfigRegs) (m : Memory) (b : Buffer) : Prop :=
  ∀ y < c.height, ∀ x < c.width, c.hasPixel m b y x = true

/-! ### What a command leaves alone -/

/-- Every byte outside the regions reads as before. -/
abbrev SameOutside (rs : List Region) (m m' : Memory) : Prop :=
  ∀ a, (∀ r ∈ rs, ¬(r.base ≤ a ∧ a < r.base + r.size)) → Memory.byte? m' a = Memory.byte? m a

/-- Completion as R288 of 70_reset_and_hazards.md gives it: the writes are made, DONE is set, the core is idle; the outputs
become readable to the host once it sees the completion (R294); everything else is kept. -/
abbrev Completes (i : Instr) (s : State) (m : Memory) : Prop :=
  exec i s = .next { s with
    mem := m, done := true, busy := false, unseen := (Instr.writes i).map s.cfg.region ++ s.unseen }

/-! ### The outputs as the rules describe them -/

/-- N = KH·KW − 1, the bits of a descriptor (R110). -/
abbrev descriptorBits (c : ConfigRegs) : Nat := c.kernelH * c.kernelW - 1

/-- The descriptor bit of the neighbour at window offset (i, j) (R111): N − 1 − t, where t is its raster index among the
neighbours. -/
abbrev descriptorBit (c : ConfigRegs) (i j : Nat) : Nat :=
  let q := i * c.kernelW + j
  let qc := c.halfH * c.kernelW + c.halfW
  descriptorBits c - 1 - (if q < qc then q else q - 1)

/-- `v` is the census descriptor of `img` at (y, x) (R110, R111, R112). -/
abbrev IsDescriptor (c : ConfigRegs) (img : Nat → Nat → Nat) (y x v : Nat) : Prop :=
  if c.halfH ≤ y ∧ y + c.halfH < c.height ∧ c.halfW ≤ x ∧ x + c.halfW < c.width then
    v < 2 ^ descriptorBits c ∧
    ∀ i < c.kernelH, ∀ j < c.kernelW, ¬(i = c.halfH ∧ j = c.halfW) →
      v.testBit (descriptorBit c i j) = decide (img (y - c.halfH + i) (x - c.halfW + j) < img y x)
  else v = 0

/-- pen(d, d') of R150 by the distance |d − d'|. -/
abbrev pathPenalty (c : ConfigRegs) (d d' : Nat) : Nat :=
  let dist := max d d' - min d d'
  if dist = 0 then 0 else if dist = 1 then c.penalty1 else c.penalty2

/-- `v` is the least of f 0 .. f (n − 1). -/
abbrev IsLeastOver (n : Nat) (f : Nat → Nat) (v : Nat) : Prop := (∃ d < n, f d = v) ∧ ∀ d < n, v ≤ f d

/-- The step (dy, dx) of a direction (the table of R152). -/
def directionStep : Direction → Int × Int
  | .e => (0, 1)
  | .w => (0, -1)
  | .s => (1, 0)
  | .n => (-1, 0)
  | .se => (1, 1)
  | .nw => (-1, -1)
  | .sw => (1, -1)
  | .ne => (-1, 1)

/-- The command of a direction (R152). -/
def directionInstr : Direction → Instr
  | .e => .aggE
  | .w => .aggW
  | .s => .aggS
  | .n => .aggN
  | .se => .aggSE
  | .nw => .aggNW
  | .sw => .aggSW
  | .ne => .aggNE

/-- Slot k of AGG in `m'` holds the path costs of direction `dir` over the costs in `m` (R151, R152, R159): a pixel whose
predecessor lies outside the image starts its slice with L = C, and any other pixel continues from its predecessor. -/
abbrev HoldsPathCosts (c : ConfigRegs) (m m' : Memory) (dir : Direction) : Prop :=
  ∀ y < c.height, ∀ x < c.width, ∀ d < c.disparities,
    let py : Int := (y : Int) - (directionStep dir).1
    let px : Int := (x : Int) - (directionStep dir).2
    c.hasAgg m' y x d dir.slot = true ∧
    if 0 ≤ py ∧ py < c.height ∧ 0 ≤ px ∧ px < c.width then
      ∃ least step : Nat,
        IsLeastOver c.disparities (fun d' => c.aggAt m' py.toNat px.toNat d' dir.slot) least ∧
        IsLeastOver c.disparities
          (fun d' => c.aggAt m' py.toNat px.toNat d' dir.slot + pathPenalty c d d') step ∧
        c.aggAt m' y x d dir.slot + least = c.costAt m y x d + step
    else c.aggAt m' y x d dir.slot = c.costAt m y x d

/-- The bytes of slot k of AGG. -/
abbrev slotRegions (c : ConfigRegs) (k : Nat) : List Region :=
  c.pixels.flatMap fun p => (List.range c.disparities).map fun d => ⟨c.aggAddr p.1 p.2 d k, 4⟩

/-- S[d], the sum of the eight slots (R190). -/
abbrev slotTotal (c : ConfigRegs) (m : Memory) (y x d : Nat) : Nat :=
  c.aggAt m y x d 0 + c.aggAt m y x d 1 + c.aggAt m y x d 2 + c.aggAt m y x d 3 +
  c.aggAt m y x d 4 + c.aggAt m y x d 5 + c.aggAt m y x d 6 + c.aggAt m y x d 7

/-- The K·K samples of the median window at (y, x), edge samples repeated (R200, R201). -/
abbrev medianSamples (c : ConfigRegs) (m : Memory) (y x : Nat) : List Nat :=
  (List.range c.postK).flatMap fun i => (List.range c.postK).map fun j =>
    c.pixel m .scaled (min (c.height - 1) (y + i - c.postK / 2)) (min (c.width - 1) (x + j - c.postK / 2))

/-- `v` is the middle element, at index (K·K − 1) div 2, of the samples in ascending order: it is one of them, at most that
many lie below it, and more than that many lie at or below it (R200). -/
abbrev IsMiddle (k : Nat) (samples : List Nat) (v : Nat) : Prop :=
  v ∈ samples ∧ samples.countP (· < v) ≤ (k * k - 1) / 2 ∧ (k * k - 1) / 2 < samples.countP (· ≤ v)

/-- The commands of a list performed one after the other; `none` where one does not answer a next state. -/
def execAll (l : List Instr) (s : State) : Option State :=
  match l with
  | [] => some s
  | i :: rest =>
    match exec i s with
    | .next t => execAll rest t
    | .fault _ => none
    | .refused _ => none

/-- The recurrence of R151 without the subtraction of the running minimum (R161). -/
def plainFrom (p1 p2 : Nat) (prev : List Nat) (costs : List (List Nat)) : List (List Nat) :=
  match costs with
  | [] => []
  | cost :: rest =>
    let next := cost.zipIdx.map fun (cd, d) => cd + minOf (prev.zipIdx.map fun (l, d') => l + penalty p1 p2 d d')
    next :: plainFrom p1 p2 next rest

/-- PathCost without the overflow guard (R161). -/
def plainPathCost (p1 p2 : Nat) (costs : List (List Nat)) : List (List Nat) :=
  match costs with
  | [] => []
  | cost :: rest => cost :: plainFrom p1 p2 cost rest

/-- The element d of the vector i of a list of vectors. -/
abbrev entry (vectors : List (List Nat)) (i d : Nat) : Nat := (vectors.getD i []).getD d 0

/-- Every byte written in `m` is written with the same value in `m'`. -/
abbrev Extends (m m' : Memory) : Prop := ∀ a b, Memory.byte? m a = some b → Memory.byte? m' a = some b

/-- The core has no step: the command it would perform touches an address without memory (20_memory.md R60, K4; log
entry 7). -/
def coreIsStuck (s : State) : Bool :=
  match coreStep s with
  | .fault .coreStuck => true
  | _ => false

/-- The host's next input acts in this state's next step: the core is idle, LATENCY has not passed, or the core is stuck
(R288, R60; log entries 3 and 7). -/
abbrev HostActs (s : State) (input : Input) (rest : List Input) : Prop :=
  s.inputs = input :: rest ∧ (s.busy = false ∨ 0 < s.latencyLeft ∨ coreIsStuck s = true)

/-- It is the core's turn: it is busy, and LATENCY has passed or the host has nothing left to do (R288). -/
abbrev CoreActs (s : State) : Prop := s.busy = true ∧ (s.latencyLeft = 0 ∨ s.inputs = [])

/-- MEM_MAP backs every byte of a host access (R60). -/
abbrev AccessBacked (s : State) (addr : Word) (w : Width) : Prop :=
  ∀ o < w.bytes, s.platform.backs (addr.toNat + o) = true

/-- A host access touches a byte of a region. -/
abbrev AccessMeets (addr : Word) (w : Width) (r : Region) : Prop :=
  ∃ o < w.bytes, r.base ≤ addr.toNat + o ∧ addr.toNat + o < r.base + r.size

/-- A host access touches a byte of a buffer. -/
abbrev AccessTouches (c : ConfigRegs) (addr : Word) (w : Width) (b : Buffer) : Prop := AccessMeets addr w (c.region b)

/-- A host access keeps clear of the buffers of the command that runs, if one does (70_reset_and_hazards.md R291, R296). -/
abbrev AccessClear (s : State) (addr : Word) (w : Width) : Prop :=
  s.busy = true → ∀ i, decode s.curCmd = .ok i → ∀ b ∈ Instr.used i, ¬AccessTouches s.cfg addr w b

/-- The inputs that can show the host a completion, and when they do: a STATUS read that gives DONE = 1, or BUSY = 0 with
ERR = 0 (R294), and an IRQ line that is up while DONE_IE is the only enable set (R82, R257; log entry 5). -/
abbrev ShowsCompletion (s : State) (input : Input) : Prop :=
  ((input = .busRead (s.platform.regBase + 8) .w32 ∨ input = .pollIdle) ∧
    (s.done = true ∨ (s.busy = false ∧ s.err = false))) ∨
  (input = .readIrq ∧ s.done = true ∧ s.intEn = 1#3)

end Sys2Proof
end

