-- ==== Sys2Proof/Certificates/Slice0/Obligations.lean ====
section
/-!
DEFINITION. The statements for the provers, about the machine and no program. Each docstring names the rules of the spec it
states or rests on.
-/

open Sys2Proof Sys2Proof.Machine

/-! ### Encoding -/

/-- Decoding the encoding of a well-formed command gives it back, and no other word decodes to it (30_encoding.md R92,
R93). -/
def Obligations.DecodeAndEncodeAgree : Prop :=
  (∀ i : Instr, i.wellFormed = true → decode (encode i) = .ok i) ∧
  ∀ (v : Word) (i : Instr), decode v = .ok i → v = encode i

/-- R92: a word is a defined command if and only if v[31:8] = 0 and v[7:0] is one of the opcodes of R93, and decoding is
total: every other word is illegal. -/
def Obligations.WordIsDefinedExactlyByReservedBitsAndOpcode : Prop :=
  ∀ v : Word,
    ((∃ i, decode v = .ok i) ↔
      v.toNat / 256 = 0 ∧
      v.toNat % 256 ∈ [0x00, 0x01, 0x02, 0x03, 0x10, 0x11, 0x12, 0x13, 0x14, 0x15, 0x16, 0x17, 0x18, 0x20, 0x21, 0x22, 0x30]) ∧
    ((∃ i, decode v = .ok i) ∨ ∃ e, decode v = .error e)

/-- The command words of R93, written out, and the direction opcodes 0x10 + k. -/
def Obligations.CommandWordsDecodeAsListed : Prop :=
  decode 0x00000000#32 = .ok .nop ∧ decode 0x00000001#32 = .ok .censusL ∧ decode 0x00000002#32 = .ok .censusR ∧
  decode 0x00000003#32 = .ok .cost ∧ decode 0x00000018#32 = .ok .aggAll ∧ decode 0x00000020#32 = .ok .select ∧
  decode 0x00000021#32 = .ok .rescale ∧ decode 0x00000022#32 = .ok .median ∧ decode 0x00000030#32 = .ok .run ∧
  ∀ dir ∈ Direction.all, decode (BitVec.ofNat 32 (0x10 + dir.slot)) = .ok (directionInstr dir)

/-! ### The step -/

/-- On the core's turn a step performs the decoded command, and if the core is stuck the host goes on, or the machine stops
when the host has nothing left to do (70_reset_and_hazards.md R288, 20_memory.md R60). Whose turn it is, and when a stuck core
stops the machine, is the model's choice (log entries 3 and 7). -/
def Obligations.StepPerformsTheAcceptedCommand : Prop :=
  ∀ (s : State) (i : Instr), CoreActs s → decode s.curCmd = .ok i →
    ((∀ r, exec i s = .fault r → r ≠ .coreStuck) → step s = exec i s) ∧
    (exec i s = .fault .coreStuck → s.inputs = [] → step s = .fault .coreStuck) ∧
    (exec i s = .fault .coreStuck → s.inputs ≠ [] → step s = hostStep s)

/-- R92, R94, R242: a word that is no defined command is rejected with ILLEGAL_COMMAND and ERR_INFO = 0x080, and nothing else
changes but ERR and busy. -/
def Obligations.IllegalWordIsRejected : Prop :=
  ∀ s : State, CoreActs s →
    (s.curCmd.toNat / 256 ≠ 0 ∨
      s.curCmd.toNat % 256 ∉
        [0x00, 0x01, 0x02, 0x03, 0x10, 0x11, 0x12, 0x13, 0x14, 0x15, 0x16, 0x17, 0x18, 0x20, 0x21, 0x22, 0x30]) →
    ∃ info : ErrInfo, info.word = 0x080#32 ∧
      step s = .next { s with errCode := .illegalCommand, errInfo := info, err := true, busy := false }

/-- When it is not the core's turn the host's next input acts, and a machine with no input and nothing running stays as it
is (R288, R296). That the host is a list of inputs is the model's choice (log entries 3 and 4). -/
def Obligations.HostActsWhenTheCoreDoesNot : Prop :=
  (∀ (s : State) (input : Input) (rest : List Input), HostActs s input rest → step s = hostAct input s.takeInput) ∧
  ∀ s : State, s.busy = false → s.inputs = [] → step s = .next s

/-- REG_BASE and MEM_MAP are parameters: no step changes them (00_scope.md R9). -/
def Obligations.NoStepChangesThePlatform : Prop :=
  ∀ s t : State, step s = .next t → t.platform = s.platform

/-! ### Invariants -/

/-- The invariant holds after reset, on every platform (10_state.md R44). -/
def Obligations.InvariantHoldsAfterReset : Prop :=
  Inv State.reset ∧ ∀ p : Platform, Inv (State.resetOn p)

/-- Every step keeps the invariant: canonical memory inside the 32-bit space, DONE and ERR never both set and both clear
while busy, ERR_CODE the code of ERR_INFO (10_state.md R25 to R28). -/
def Obligations.EveryStepKeepsTheInvariant : Prop :=
  ∀ s t : State, Inv s → step s = .next t → Inv t

/-! ### Registers -/

/-- After reset every offset of the window reads 0 but ID, IRQ is low, the core is idle and no byte of the data space has a
value; NOP completes and every other command is rejected with INVALID_PARAMETER and ERR_INFO 0x04E (R44). The platform and
the host's side of State.reset are the model's choice (log entries 2 to 6); the statement holds for every platform. -/
def Obligations.ResetLeavesTheResetValues : Prop :=
  ∀ p : Platform,
    (∀ off, (State.resetOn p).readOffset off = if off = 0 then 0x53474D07#32 else 0) ∧
    (State.resetOn p).irq = false ∧ (State.resetOn p).busy = false ∧
    (∀ a, Memory.byte? (State.resetOn p).mem a = none) ∧
    (∃ t, exec .nop (State.resetOn p) = .next t ∧ t.status = 2#32) ∧
    ∀ i : Instr, i ≠ .nop → ∃ t, exec i (State.resetOn p) = .next t ∧ t.status = 4#32 ∧
      t.errCode.word = 2#32 ∧ t.errInfo.word = 0x04E#32

/-- R24, R27, R28: ID reads 0x53474D07 at all times; a write to ID, ERR_CODE or ERR_INFO has no effect. -/
def Obligations.ReadOnlyRegistersIgnoreWrites : Prop :=
  ∀ (s : State) (v : Word),
    s.readOffset 0x00 = 0x53474D07#32 ∧ s.writeOffset 0x00 v = s ∧ s.writeOffset 0x0C v = s ∧ s.writeOffset 0x10 v = s

/-- R37: a reserved offset reads 0 and ignores writes; the reserved bits of NDISP, P1, P2, KERNEL, INT_EN and STATUS read 0
and take no part in a write. -/
def Obligations.ReservedOffsetsAndBitsAreRazWi : Prop :=
  ∀ (s : State) (v : Word),
    (∀ off ∈ [0x18, 0x1C, 0x38, 0x3C] ++ (List.range 39).map (fun n => 0x64 + 4 * n),
      s.readOffset off = 0 ∧ s.writeOffset off v = s) ∧
    ∀ p ∈ [(0x28, 16), (0x2C, 16), (0x30, 16), (0x34, 24), (0x14, 3), (0x08, 4)],
      (∀ n, p.2 ≤ n → (s.readOffset p.1).getLsbD n = false) ∧
      ∀ v' : Word, (∀ n < p.2, v'.getLsbD n = v.getLsbD n) → s.writeOffset p.1 v' = s.writeOffset p.1 v

/-- While idle a write to a configuration register makes that register read the written word, less its reserved bits, and
changes no other register and nothing else of the state (R30 to R36). -/
def Obligations.ConfigurationWriteReadsBack : Prop :=
  ∀ (s : State) (v : Word), s.busy = false →
    ∀ p ∈ [(0x20, 32), (0x24, 32), (0x28, 16), (0x2C, 16), (0x30, 16), (0x34, 24), (0x40, 32), (0x44, 32), (0x48, 32),
        (0x4C, 32), (0x50, 32), (0x54, 32), (0x58, 32), (0x5C, 32), (0x60, 32)],
      (s.writeOffset p.1 v).readOffset p.1 = BitVec.ofNat 32 (v.toNat % 2 ^ p.2) ∧
      (∀ off, off ≠ p.1 → (s.writeOffset p.1 v).readOffset off = s.readOffset off) ∧
      ∃ c, s.writeOffset p.1 v = { s with cfg := c }

/-- R25: while idle a CMD write of any word is accepted: CMD reads it, BUSY is set, DONE, ERR, ERR_CODE and ERR_INFO are
cleared. While busy it only sets CMD_LOST. LATENCY is drawn at acceptance and may be any number (log entry 3). -/
def Obligations.CmdWriteIsAcceptedOrDropped : Prop :=
  ∀ (s : State) (v : Word) (rest : List Input),
    HostActs s (.busWrite (s.platform.regBase + 4) .w32 (v.setWidth 64)) rest →
    s.readOffset 0x04 = s.curCmd ∧
    (s.busy = false → ∃ t n, step s = .next t ∧ t.readOffset 0x04 = v ∧
      t = { s.takeInput with
        curCmd := v, busy := true, done := false, err := false, errCode := .none, errInfo := .zero
        latencyLeft := n, accepts := s.accepts + 1 }) ∧
    (s.busy = true → step s = .next { s.takeInput with cmdLost := true })

/-- While busy (R38, R292) no host input but reset changes a configuration register or the accepted word, and INT_EN and STATUS
writes land. -/
def Obligations.ConfigurationIsFixedWhileBusy : Prop :=
  (∀ (s t : State) (input : Input), s.busy = true → input ≠ .reset → hostAct input s = .next t →
    t.cfg = s.cfg ∧ t.curCmd = s.curCmd ∧ t.busy = true) ∧
  ∀ (s : State) (v : Word),
    (s.writeOffset 0x14 v).readOffset 0x14 = BitVec.ofNat 32 (v.toNat % 8) ∧
    (v.getLsbD 3 = true → (s.writeOffset 0x08 v).cmdLost = false)

/-- R26: STATUS reads BUSY, DONE, ERR, CMD_LOST in bits 0 to 3; a write clears DONE, ERR and CMD_LOST where it has a 1 and
changes nothing else. -/
def Obligations.StatusReadsFlagsAndClearsByOne : Prop :=
  ∀ (s : State) (v : Word),
    ((s.readOffset 0x08).getLsbD 0 = s.busy ∧ (s.readOffset 0x08).getLsbD 1 = s.done ∧
      (s.readOffset 0x08).getLsbD 2 = s.err ∧ (s.readOffset 0x08).getLsbD 3 = s.cmdLost) ∧
    s.writeOffset 0x08 v = { s with
      done := if v.getLsbD 1 then false else s.done
      err := if v.getLsbD 2 then false else s.err
      cmdLost := if v.getLsbD 3 then false else s.cmdLost }

/-- R39, R253: a host access that touches the window with another width than 32 bits, or not at a 4-byte-aligned offset, is a
BUS_ERROR. That a 64-bit access and one that reaches into the window from below are such accesses is log entry 9. -/
def Obligations.BrokenRegisterAccessIsABusError : Prop :=
  ∀ (s : State) (addr : Nat) (w : Width) (v : DWord) (rest : List Input),
    addr < s.platform.regBase + 256 → s.platform.regBase < addr + w.bytes →
    (w ≠ .w32 ∨ addr < s.platform.regBase ∨ (addr - s.platform.regBase) % 4 ≠ 0) →
    (HostActs s (.busRead addr w) rest → step s = .fault .busError) ∧
    (HostActs s (.busWrite addr w v) rest → step s = .fault .busError)

/-- A 32-bit read at an aligned offset of the window gives the host the register's word and changes nothing of the block
(R23, R296). While busy this holds of every register, by R292 and the model's reading of the table of R296 (log entry 8). The
list `replies` and `unseen`, which a STATUS read that shows a completion empties, are the model's own (log entries 4
and 5). -/
def Obligations.RegisterReadGivesTheWord : Prop :=
  ∀ (s : State) (off : Nat) (rest : List Input), off < 256 → off % 4 = 0 →
    HostActs s (.busRead (s.platform.regBase + off) .w32) rest →
    step s = .next { s with
      inputs := rest, latencyLeft := s.latencyLeft - 1
      unseen := if off = 8 ∧ (s.done = true ∨ (s.busy = false ∧ s.err = false)) then [] else s.unseen
      replies := (s.readOffset off).setWidth 64 :: s.replies }

/-- A 32-bit write at an aligned offset of the window does to the block what the write of that offset does (R23, R38, R39),
and nothing else but the taking of the input. -/
def Obligations.RegisterWriteReachesTheRegister : Prop :=
  ∀ (s : State) (off : Nat) (v : DWord) (rest : List Input), off < 256 → off % 4 = 0 →
    HostActs s (.busWrite (s.platform.regBase + off) .w32 v) rest →
    step s = .next
      (State.writeOffset { s with inputs := rest, latencyLeft := s.latencyLeft - 1 } off (v.setWidth 32))

/-- `wait` of 30_encoding.md R97: each poll gives the host STATUS, and it is repeated until BUSY reads 0. -/
def Obligations.WaitPollsUntilIdle : Prop :=
  ∀ (s : State) (rest : List Input), HostActs s .pollIdle rest →
    ∃ t, step s = .next t ∧ t.replies = s.status.setWidth 64 :: s.replies ∧
      t.inputs = if s.busy then .pollIdle :: rest else rest

/-- R255: IRQ is (DONE and DONE_IE) or (ERR and ERR_IE) or (CMD_LOST and LOST_IE) of the words STATUS and INT_EN read, and it
is up right after the step that sets an enabled status bit: a completion with DONE_IE, a rejection with ERR_IE, also of an
illegal word, and a dropped CMD write with LOST_IE. -/
def Obligations.IrqFollowsStatusAndEnables : Prop :=
  (∀ s : State, s.irq =
    (((s.readOffset 0x08).getLsbD 1 && (s.readOffset 0x14).getLsbD 0) ||
      ((s.readOffset 0x08).getLsbD 2 && (s.readOffset 0x14).getLsbD 1) ||
      ((s.readOffset 0x08).getLsbD 3 && (s.readOffset 0x14).getLsbD 2))) ∧
  (∀ s t : State, (coreStep s = .next t ∨ ∃ i, exec i s = .next t) →
    (t.err = false → s.intEn.getLsbD 0 = true → t.irq = true) ∧
    (t.err = true → s.intEn.getLsbD 1 = true → t.irq = true) ∧
    (t.done = true → s.intEn.getLsbD 0 = true → t.irq = true)) ∧
  ∀ (s : State) (v : DWord) (rest : List Input), s.busy = true → s.intEn.getLsbD 2 = true →
    HostActs s (.busWrite (s.platform.regBase + 4) .w32 v) rest → ∃ t, step s = .next t ∧ t.irq = true

/-! ### The data space and the host's duties -/

/-- R61, R62, R296: a host write lays its value down little-endian and leaves every other byte and the whole block; a host
read gives the value the bytes spell; and a read of an element just written gives it back. They go through while idle, and
while busy outside the running command's buffers; a read must also keep clear of the outputs whose completion the host has
not seen (log entry 5). -/
def Obligations.HostWriteThenReadGivesTheValue : Prop :=
  (∀ (s : State) (addr : Word) (w : Width) (v : DWord) (rest : List Input),
    HostActs s (.memWrite addr w v) rest → AccessBacked s addr w → AccessClear s addr w →
    ∃ m, step s = .next { s with inputs := rest, latencyLeft := s.latencyLeft - 1, mem := m } ∧
      (∀ o < w.bytes, Memory.byte? m (addr.toNat + o) = some (BitVec.ofNat 8 (v.toNat / 2 ^ (8 * o)))) ∧
      ∀ a, ¬(addr.toNat ≤ a ∧ a < addr.toNat + w.bytes) → Memory.byte? m a = Memory.byte? s.mem a) ∧
  (∀ (s : State) (addr : Word) (w : Width) (n : Nat) (rest : List Input),
    HostActs s (.memRead addr w) rest → AccessBacked s addr w → AccessClear s addr w →
    (∀ r ∈ s.unseen, ¬AccessMeets addr w r) → n < 2 ^ (8 * w.bytes) →
    (∀ o < w.bytes, Memory.byte? s.mem (addr.toNat + o) = some (BitVec.ofNat 8 (n / 2 ^ (8 * o)))) →
    step s = .next { s with
      inputs := rest, latencyLeft := s.latencyLeft - 1, replies := BitVec.ofNat 64 n :: s.replies }) ∧
  ∀ (s t : State) (addr : Word) (w : Width) (v : DWord) (rest : List Input),
    HostActs s (.memWrite addr w v) (.memRead addr w :: rest) → AccessBacked s addr w → AccessClear s addr w →
    (∀ r ∈ s.unseen, ¬AccessMeets addr w r) → step s = .next t → HostActs t (.memRead addr w) rest →
    ∃ u, step t = .next u ∧ u.replies = BitVec.ofNat 64 (v.toNat % 2 ^ (8 * w.bytes)) :: s.replies

/-- R291: while busy, also while the core is stuck, a host read or write of a byte of a buffer the running command uses is a
HOST_RACE. That it is one also where the byte is unwritten or has no memory is log entry 10, and that a command about to be
rejected uses its buffers is log entry 13. -/
def Obligations.TouchingARunningBufferIsAHostRace : Prop :=
  ∀ (s : State) (i : Instr) (b : Buffer) (addr : Word) (w : Width) (v : DWord) (rest : List Input),
    s.busy = true → decode s.curCmd = .ok i → b ∈ Instr.used i → AccessTouches s.cfg addr w b →
    (HostActs s (.memRead addr w) rest → step s = .fault .hostRace) ∧
    (HostActs s (.memWrite addr w v) rest → step s = .fault .hostRace)

/-- R281: a host read of a byte nothing has written is an UNWRITTEN_READ, while idle and while busy. The faults that rank before
it are log entry 10. -/
def Obligations.HostReadOfUnwrittenByteFaults : Prop :=
  ∀ (s : State) (addr : Word) (w : Width) (rest : List Input),
    HostActs s (.memRead addr w) rest → AccessBacked s addr w → AccessClear s addr w →
    (∀ r ∈ s.unseen, ¬AccessMeets addr w r) → (∃ o < w.bytes, Memory.byte? s.mem (addr.toNat + o) = none) → step s = .fault .unwrittenRead

/-- A host read of a completed command's output faults until the host has seen the completion. What shows it is a STATUS read
that gives DONE = 1, or BUSY = 0 with ERR = 0 (R294), or a sample of an IRQ line that only DONE can hold up (R82), and no other
host action. R294 and R296 forbid the early read; that it is a fault with a name of its own, ranked after HOST_RACE, and that
an IRQ sample shows the completion, is the model's reading (log entries 5 and 10). -/
def Obligations.OutputsAreReadOnlyAfterDoneIsSeen : Prop :=
  (∀ (s : State) (addr : Word) (w : Width) (r : Region) (rest : List Input),
    HostActs s (.memRead addr w) rest → AccessClear s addr w → r ∈ s.unseen → AccessMeets addr w r →
    step s = .fault .earlyRead) ∧
  (∀ (s : State) (input : Input) (rest : List Input), HostActs s input rest → ShowsCompletion s input →
    ∃ t, step s = .next t ∧ t.unseen = []) ∧
  ∀ (s t : State) (input : Input) (rest : List Input), HostActs s input rest → ¬ShowsCompletion s input →
    step s = .next t → t.unseen = s.unseen

/-- R280 to R282: reset takes every register to its reset value and IRQ low, and keeps the data space; if it abandons a
running or stuck command, only the bytes of that command's written buffers may change, and each of them that has memory then holds a
free byte (log entry 6). -/
def Obligations.ResetInputRestoresRegistersAndKeepsMemory : Prop :=
  ∀ (s : State) (rest : List Input), HostActs s .reset rest →
    ∃ t, step s = .next t ∧ (∀ off, t.readOffset off = if off = 0 then 0x53474D07#32 else 0) ∧
      t.irq = false ∧ t.busy = false ∧ t.inputs = rest ∧ t.platform = s.platform ∧
      (s.busy = false → t.mem = s.mem) ∧
      (∀ a, (∀ i, decode s.curCmd = .ok i → ∀ b ∈ Instr.writes i, ¬(s.cfg.base b ≤ a ∧ a < s.cfg.base b + s.cfg.size b)) →
        Memory.byte? t.mem a = Memory.byte? s.mem a) ∧
      ∀ i b a, s.busy = true → decode s.curCmd = .ok i → b ∈ Instr.writes i → s.platform.backs a = true →
        s.cfg.base b ≤ a → a < s.cfg.base b + s.cfg.size b →
        ∃ n, s.draws ≤ n ∧ n < t.draws ∧ Memory.byte? t.mem a = some (Config.resetByte n)

/-! ### The entry check -/

/-- R252: a command whose parameters or buffers fail a check is rejected: an error code and the failed checks are recorded,
ERR is set, the core is idle, and everything else is kept, the data space and cur_cmd among it. -/
def Obligations.RejectionIsPrecise : Prop :=
  ∀ (i : Instr) (s : State), i ≠ .nop → ¬(ParametersLegal s.cfg ∧ BuffersLegal i s.cfg) →
    ∃ code info, code ≠ .none ∧
      exec i s = .next { s with errCode := code, errInfo := info, err := true, busy := false }

/-- R241, R243 to R251, R257: ERR_INFO records every failed check, each in its own bit, and ERR_CODE is the first that
applies of SHAPE_MISMATCH, INVALID_PARAMETER, ADDRESS_ERROR. -/
def Obligations.EveryFailedCheckIsRecorded : Prop :=
  ∀ (i : Instr) (s : State), i ≠ .nop → ¬(ParametersLegal s.cfg ∧ BuffersLegal i s.cfg) →
    ∃ t, exec i s = .next t ∧
      ((t.readOffset 0x10).getLsbD 0 = true ↔ s.cfg.dimR ≠ s.cfg.dim) ∧
      ((t.readOffset 0x10).getLsbD 1 = true ↔ s.cfg.height = 0 ∨ s.cfg.width = 0) ∧
      ((t.readOffset 0x10).getLsbD 2 = true ↔ s.cfg.disparities = 0) ∧
      ((t.readOffset 0x10).getLsbD 3 = true ↔ s.cfg.kernelH % 2 = 0 ∨ s.cfg.kernelW % 2 = 0) ∧
      ((t.readOffset 0x10).getLsbD 4 = true ↔ 63 < s.cfg.kernelH * s.cfg.kernelW) ∧
      ((t.readOffset 0x10).getLsbD 5 = true ↔ s.cfg.penalty2 < s.cfg.penalty1) ∧
      ((t.readOffset 0x10).getLsbD 6 = true ↔ s.cfg.postK % 2 = 0) ∧
      (t.readOffset 0x10).getLsbD 7 = false ∧
      ((t.readOffset 0x10).getLsbD 8 = true ↔ ∃ b ∈ Instr.used i, s.cfg.base b % b.elemBytes ≠ 0) ∧
      ((t.readOffset 0x10).getLsbD 9 = true ↔ ∃ b ∈ Instr.used i, 2 ^ 32 < s.cfg.base b + s.cfg.size b) ∧
      ((t.readOffset 0x10).getLsbD 10 = true ↔ ∃ a ∈ Instr.writes i, ∃ b ∈ Instr.used i, a ≠ b ∧
        0 < s.cfg.size a ∧ 0 < s.cfg.size b ∧
        s.cfg.base a < s.cfg.base b + s.cfg.size b ∧ s.cfg.base b < s.cfg.base a + s.cfg.size a) ∧
      t.readOffset 0x0C =
        if s.cfg.dimR ≠ s.cfg.dim then 1#32 else if ¬ParametersLegal s.cfg then 2#32 else 4#32

/-- R249 to R251: with legal parameters a misaligned buffer, one that runs past 2^32, or a written one that shares a byte with
another used one is an ADDRESS_ERROR. -/
def Obligations.BadBuffersAreAddressErrors : Prop :=
  ∀ (i : Instr) (s : State) (b : Buffer), i ≠ .nop → ParametersLegal s.cfg → b ∈ Instr.used i →
    (s.cfg.base b % b.elemBytes ≠ 0 →
      ∃ t, exec i s = .next t ∧ t.errCode = .addressError ∧ t.errInfo.align = true ∧ t.mem = s.mem) ∧
    (2 ^ 32 < s.cfg.base b + s.cfg.size b →
      ∃ t, exec i s = .next t ∧ t.errCode = .addressError ∧ t.errInfo.range = true ∧ t.mem = s.mem) ∧
    ∀ a ∈ Instr.writes i, a ≠ b →
      s.cfg.base a < s.cfg.base b + s.cfg.size b → s.cfg.base b < s.cfg.base a + s.cfg.size a →
      ∃ t, exec i s = .next t ∧ t.errCode = .addressError ∧ t.errInfo.overlap = true ∧ t.mem = s.mem

/-- A command that passes its entry check but whose buffers touch an address without memory leaves the core stuck (20_memory.md
R60, K4 of 93_implementation_defined.md; the reading by whole buffers is log entry 7). -/
def Obligations.UnbackedBufferLeavesTheCoreStuck : Prop :=
  ∀ (i : Instr) (s : State), i ≠ .nop → ParametersLegal s.cfg → BuffersLegal i s.cfg → ¬BuffersBacked i s →
    exec i s = .fault .coreStuck

/-- A command that reads an element nothing has written is an UNWRITTEN_READ (70_reset_and_hazards.md R281, K1). Which
elements a command reads is log entry 12. RUN reads nothing but the images before it writes it. -/
def Obligations.CommandReadingUnwrittenElementFaults : Prop :=
  ∀ s : State,
    (Legal .censusL s → ¬CensusSamplesWritten s.cfg s.mem .imgL → exec .censusL s = .fault .unwrittenRead) ∧
    (Legal .censusR s → ¬CensusSamplesWritten s.cfg s.mem .imgR → exec .censusR s = .fault .unwrittenRead) ∧
    (Legal .cost s → ¬DescriptorsWritten s.cfg s.mem → exec .cost s = .fault .unwrittenRead) ∧
    (∀ dir, Legal (directionInstr dir) s → ¬CostsWritten s.cfg s.mem →
      exec (directionInstr dir) s = .fault .unwrittenRead) ∧
    (Legal .aggAll s → ¬CostsWritten s.cfg s.mem → exec .aggAll s = .fault .unwrittenRead) ∧
    (Legal .select s → ¬SlotsWritten s.cfg s.mem → exec .select s = .fault .unwrittenRead) ∧
    (Legal .rescale s → ¬PixelsWritten s.cfg s.mem .disp → exec .rescale s = .fault .unwrittenRead) ∧
    (Legal .median s → ¬PixelsWritten s.cfg s.mem .scaled → exec .median s = .fault .unwrittenRead) ∧
    (Legal .run s → ¬(CensusSamplesWritten s.cfg s.mem .imgL ∧ CensusSamplesWritten s.cfg s.mem .imgR) →
      exec .run s = .fault .unwrittenRead)

/-! ### Every command -/

/-- R66, R27, R41: a command changes no register but STATUS's DONE, ERR and BUSY, ERR_CODE and ERR_INFO, nothing of the host's
side but which outputs are still unseen, and no byte outside the buffers R78 marks w for it. -/
def Obligations.EveryCommandChangesOnlyItsOutputsAndStatus : Prop :=
  ∀ (i : Instr) (s t : State), exec i s = .next t →
    t = { s with
      mem := t.mem, busy := false, done := t.done, err := t.err, errCode := t.errCode, errInfo := t.errInfo
      unseen := t.unseen } ∧
    SameOutside ((Instr.writes i).map s.cfg.region) s.mem t.mem

/-- R26, R257: a command performed with DONE and ERR clear ends with exactly one of them set, and an ERR leaves the data space
as it was. -/
def Obligations.CommandEndsWithDoneOrErr : Prop :=
  ∀ (i : Instr) (s t : State), s.done = false → s.err = false → exec i s = .next t →
    t.done = !t.err ∧ (t.err = true → t.mem = s.mem)

/-- A command's result depends on written bytes only: over a data space in which more bytes are written, it ends in the same
way and every byte with a value has the same value (R281). -/
def Obligations.UnwrittenBytesInfluenceNoResult : Prop :=
  ∀ (i : Instr) (s t : State) (m : Memory), exec i s = .next t → Extends s.mem m →
    ∃ t', exec i { s with mem := m } = .next t' ∧ t' = { t with mem := t'.mem } ∧ Extends t.mem t'.mem

/-- NOP (R220), word 0x00000000, completes whatever the registers hold and changes no memory. -/
def Obligations.NopCompletes : Prop :=
  decode 0x00000000#32 = .ok .nop ∧ ∀ s : State, exec .nop s = .next { s with done := true, busy := false }

/-! ### Census -/

/-- CENSUS_L (R113, R110, R111, R112) completes; every element of CEN_L is the left descriptor, or the sentinel 0 in the border
band; every byte outside CEN_L is unchanged. -/
def Obligations.CensusLWritesLeftDescriptors : Prop :=
  ∀ s : State, Legal .censusL s → CensusSamplesWritten s.cfg s.mem .imgL →
    ∃ m, Completes .censusL s m ∧
      (∀ y < s.cfg.height, ∀ x < s.cfg.width, s.cfg.hasPixel m .cenL y x = true ∧
        IsDescriptor s.cfg (s.cfg.pixel s.mem .imgL) y x (s.cfg.pixel m .cenL y x)) ∧
      SameOutside [s.cfg.region .cenL] s.mem m

/-- CENSUS_R (R114, R110, R111, R112), from the right image only (R115). -/
def Obligations.CensusRWritesRightDescriptors : Prop :=
  ∀ s : State, Legal .censusR s → CensusSamplesWritten s.cfg s.mem .imgR →
    ∃ m, Completes .censusR s m ∧
      (∀ y < s.cfg.height, ∀ x < s.cfg.width, s.cfg.hasPixel m .cenR y x = true ∧
        IsDescriptor s.cfg (s.cfg.pixel s.mem .imgR) y x (s.cfg.pixel m .cenR y x)) ∧
      SameOutside [s.cfg.region .cenR] s.mem m

/-- R117: the census is the same for any strictly increasing change of the samples. -/
def Obligations.CensusIsInvariantUnderMonotoneChange : Prop :=
  ∀ (c : ConfigRegs) (img : Nat → Nat → Nat) (f : Nat → Nat),
    (∀ a b, a ≤ 255 → b ≤ 255 → a < b → f a < f b) → (∀ y x, img y x ≤ 255) →
    ∀ y x, census c (fun y x => f (img y x)) y x = census c img y x

/-! ### Cost -/

/-- R130: Ham(a, b) is the number of 1 bits of a xor b, from 0 to 64, and it is what the loop 'clear the lowest set bit of the
xor, count, until it is 0' counts. -/
def Obligations.HammingCountsClearedBits : Prop :=
  (∀ a < 2 ^ 64, ∀ b < 2 ^ 64, hamming a b = popcount64 (a ^^^ b) ∧ hamming a b ≤ 64) ∧
  ∀ z < 2 ^ 64, popcount64 z = if z = 0 then 0 else popcount64 (z &&& (z - 1)) + 1

/-- COST (R131) completes: at an interior pixel the Hamming distance of CEN_L(y, x) and CEN_R(y, max(x − d, c)) (R130, R132),
in the border band 0 (R134); at most 64 (R133); every byte outside COST is unchanged. -/
def Obligations.CostWritesTheHammingVolume : Prop :=
  ∀ s : State, Legal .cost s → DescriptorsWritten s.cfg s.mem →
    ∃ m, Completes .cost s m ∧
      (∀ y < s.cfg.height, ∀ x < s.cfg.width, ∀ d < s.cfg.disparities, s.cfg.hasCost m y x d = true ∧
        s.cfg.costAt m y x d ≤ 64 ∧
        s.cfg.costAt m y x d =
          if s.cfg.halfH ≤ y ∧ y + s.cfg.halfH < s.cfg.height ∧ s.cfg.halfW ≤ x ∧ x + s.cfg.halfW < s.cfg.width then
            hamming (s.cfg.pixel s.mem .cenL y x) (s.cfg.pixel s.mem .cenR y (max (x - d) s.cfg.halfW))
          else 0) ∧
      SameOutside [s.cfg.region .cost] s.mem m

/-- R133: where the descriptors of interior pixels are below 2^N, as CENSUS_L and CENSUS_R write them, every cost COST leaves
in memory is at most N = KH·KW − 1, and so is the cost it computes from any two such maps. -/
def Obligations.CostsOfDescriptorsAreAtMostN : Prop :=
  (∀ s : State, Legal .cost s → DescriptorsWritten s.cfg s.mem →
    (∀ y < s.cfg.height, ∀ x < s.cfg.width, s.cfg.interior y x = true →
      s.cfg.pixel s.mem .cenL y x < 2 ^ descriptorBits s.cfg ∧ s.cfg.pixel s.mem .cenR y x < 2 ^ descriptorBits s.cfg) →
    ∃ m, Completes .cost s m ∧
      ∀ y < s.cfg.height, ∀ x < s.cfg.width, ∀ d < s.cfg.disparities,
        s.cfg.hasCost m y x d = true ∧ s.cfg.costAt m y x d ≤ descriptorBits s.cfg) ∧
  ∀ (c : ConfigRegs) (left right : Nat → Nat → Nat),
    (∀ y x, c.interior y x = true → left y x < 2 ^ descriptorBits c ∧ right y x < 2 ^ descriptorBits c) →
    ∀ y x d, matchCost c left right y x d ≤ descriptorBits c

/-- R135: where CEN_L = CEN_R element by element, COST leaves cost 0 at disparity 0 of every pixel. -/
def Obligations.IdenticalDescriptorsCostZeroAtDisparityZero : Prop :=
  ∀ s : State, Legal .cost s → DescriptorsWritten s.cfg s.mem →
    (∀ y < s.cfg.height, ∀ x < s.cfg.width, s.cfg.pixel s.mem .cenL y x = s.cfg.pixel s.mem .cenR y x) →
    ∃ m, Completes .cost s m ∧ ∀ y < s.cfg.height, ∀ x < s.cfg.width, s.cfg.costAt m y x 0 = 0

/-! ### Path aggregation -/

/-- The eight direction commands (R162 to R169, R150 to R159) complete: slot k of every cell holds the path cost along the
direction, from the predecessor pixel's costs; every byte outside slot k is unchanged (R66). -/
def Obligations.DirectionCommandsWritePathCosts : Prop :=
  ∀ (dir : Direction) (s : State), Legal (directionInstr dir) s → CostsWritten s.cfg s.mem →
    ∃ m, Completes (directionInstr dir) s m ∧ HoldsPathCosts s.cfg s.mem m dir ∧
      SameOutside (slotRegions s.cfg dir.slot) s.mem m

/-- AGG_ALL (R170) completes with the path costs of all eight directions in their slots; every byte outside AGG is
unchanged. -/
def Obligations.AggAllWritesAllPathCosts : Prop :=
  ∀ s : State, Legal .aggAll s → CostsWritten s.cfg s.mem →
    ∃ m, Completes .aggAll s m ∧ (∀ dir : Direction, HoldsPathCosts s.cfg s.mem m dir) ∧
      SameOutside [s.cfg.region .agg] s.mem m

/-- R170: AGG_ALL leaves the same data space as the eight direction commands issued in any order. -/
def Obligations.AggAllEqualsTheDirectionsInAnyOrder : Prop :=
  ∀ (s : State) (dirs : List Direction), Memory.wf s.mem → Legal .aggAll s → CostsWritten s.cfg s.mem →
    dirs.Perm Direction.all →
    ∃ t u, exec .aggAll s = .next t ∧ execAll (dirs.map directionInstr) s = some u ∧ u.mem = t.mem

/-- R160: for i ≥ 1 a path cost lies between the cost and the cost plus P2; with costs up to 255 and P2 up to 65535 every path
cost is at most 65790. -/
def Obligations.PathCostsStayInRange : Prop :=
  ∀ (p1 p2 n : Nat) (costs : List (List Nat)), p1 ≤ p2 → 1 ≤ n → (∀ c ∈ costs, c.length = n) →
    ∀ i < costs.length, ∀ d < n,
      (1 ≤ i → entry costs i d ≤ entry (pathCost p1 p2 costs) i d ∧
        entry (pathCost p1 p2 costs) i d ≤ entry costs i d + p2) ∧
      ((∀ c ∈ costs, ∀ v ∈ c, v ≤ 255) → p2 ≤ 65535 → entry (pathCost p1 p2 costs) i d ≤ 65790)

/-- R161: without the subtracted minimum the path costs at a position differ by one amount for every d, so differences and the
argmin are the same. -/
def Obligations.GuardKeepsDifferencesAndArgmin : Prop :=
  ∀ (p1 p2 n : Nat) (costs : List (List Nat)), 1 ≤ n → (∀ c ∈ costs, c.length = n) →
    ∀ i < costs.length,
      (∃ k, ∀ d < n, entry (plainPathCost p1 p2 costs) i d = entry (pathCost p1 p2 costs) i d + k) ∧
      winner ((plainPathCost p1 p2 costs).getD i []) = winner ((pathCost p1 p2 costs).getD i [])

/-- R161: with P1 ≤ P2 the inner minimum is min(L[d], L[d−1] + P1, L[d+1] + P1, m + P2), the terms outside 0 .. D−1 left
out. -/
def Obligations.InnerMinimumHasTheShortForm : Prop :=
  ∀ (p1 p2 : Nat) (prev cost : List Nat) (d : Nat), p1 ≤ p2 → prev.length = cost.length → d < cost.length →
    (nextPath p1 p2 prev cost).getD d 0 + minOf prev =
      cost.getD d 0 +
        minOf ([prev.getD d 0, minOf prev + p2] ++ (if 1 ≤ d then [prev.getD (d - 1) 0 + p1] else []) ++
          (if d + 1 < prev.length then [prev.getD (d + 1) 0 + p1] else []))

/-- R157, R152: the slices of each direction hold each pixel of the image exactly once and no other pixel; along a slice each
position is its predecessor plus the direction's step, and the pixel before its first lies outside the image. -/
def Obligations.SlicesPartitionTheImage : Prop :=
  ∀ (dir : Direction) (h w : Nat),
    (slices dir h w).flatten.Nodup ∧
    (∀ p : Nat × Nat, p ∈ (slices dir h w).flatten ↔ p.1 < h ∧ p.2 < w) ∧
    ∀ ps ∈ slices dir h w,
      (∀ i, i + 1 < ps.length →
        ((ps.getD (i + 1) (0, 0)).1 : Int) = (ps.getD i (0, 0)).1 + (directionStep dir).1 ∧
        ((ps.getD (i + 1) (0, 0)).2 : Int) = (ps.getD i (0, 0)).2 + (directionStep dir).2) ∧
      (0 < ps.length →
        let y : Int := (ps.getD 0 (0, 0)).1 - (directionStep dir).1
        let x : Int := (ps.getD 0 (0, 0)).2 - (directionStep dir).2
        ¬(0 ≤ y ∧ y < h ∧ 0 ≤ x ∧ x < w))

/-! ### Selection and post-filter -/

/-- SELECT (R190 to R193) completes: DISP is an index below D with the least exact sum of the eight slots, and every lower
index has a greater sum; every byte outside DISP is unchanged. -/
def Obligations.SelectWritesTheLowestMinimum : Prop :=
  ∀ s : State, Legal .select s → SlotsWritten s.cfg s.mem →
    ∃ m, Completes .select s m ∧
      (∀ y < s.cfg.height, ∀ x < s.cfg.width,
        s.cfg.hasPixel m .disp y x = true ∧ s.cfg.pixel m .disp y x < s.cfg.disparities ∧
        ∀ d < s.cfg.disparities,
          slotTotal s.cfg s.mem y x (s.cfg.pixel m .disp y x) ≤ slotTotal s.cfg s.mem y x d ∧
          (d < s.cfg.pixel m .disp y x →
            slotTotal s.cfg s.mem y x (s.cfg.pixel m .disp y x) < slotTotal s.cfg s.mem y x d)) ∧
      SameOutside [s.cfg.region .disp] s.mem m

/-- RESCALE (R195, R196) completes: SCALED = min(255, (255 · DISP) div D); every byte outside SCALED is unchanged. -/
def Obligations.RescaleWritesTheScaledIndex : Prop :=
  ∀ s : State, Legal .rescale s → PixelsWritten s.cfg s.mem .disp →
    ∃ m, Completes .rescale s m ∧
      (∀ y < s.cfg.height, ∀ x < s.cfg.width, s.cfg.hasPixel m .scaled y x = true ∧
        s.cfg.pixel m .scaled y x = min 255 (255 * s.cfg.pixel s.mem .disp y x / s.cfg.disparities)) ∧
      SameOutside [s.cfg.region .scaled] s.mem m

/-- R197, R195: rescaling is monotone and at most 255, and at most 254 for an index below D. -/
def Obligations.RescalingIsMonotoneAndBounded : Prop :=
  ∀ d v v' : Nat, 1 ≤ d →
    (v ≤ v' → rescale d v ≤ rescale d v') ∧ rescale d v ≤ 255 ∧ (v < d → rescale d v ≤ 254)

/-- MEDIAN (R200, R201) completes: OUT is the middle of the K·K window samples, edge samples repeated; every byte outside OUT
is unchanged. -/
def Obligations.MedianWritesTheMiddleSample : Prop :=
  ∀ s : State, Legal .median s → PixelsWritten s.cfg s.mem .scaled →
    ∃ m, Completes .median s m ∧
      (∀ y < s.cfg.height, ∀ x < s.cfg.width, s.cfg.hasPixel m .out y x = true ∧
        IsMiddle s.cfg.postK (medianSamples s.cfg s.mem y x) (s.cfg.pixel m .out y x)) ∧
      SameOutside [s.cfg.region .out] s.mem m

/-- R202: the median of an odd-length list commutes with every monotone non-decreasing map. -/
def Obligations.MedianCommutesWithMonotoneMaps : Prop :=
  ∀ (k : Nat) (samples : List Nat) (f : Nat → Nat), k % 2 = 1 → samples.length = k * k →
    (∀ a b, a ≤ b → f a ≤ f b) → medianOf k (samples.map f) = f (medianOf k samples)

/-! ### RUN -/

/-- RUN (R221) completes, and the data space it leaves holds the whole pipeline, every element written (R66): both descriptor maps from the images, the cost
volume from the descriptors, the path costs of all eight directions, the winning disparities, their rescaling and its median.
Every byte outside the seven written buffers is unchanged. -/
def Obligations.RunComputesTheWholePipeline : Prop :=
  ∀ s : State, Legal .run s → CensusSamplesWritten s.cfg s.mem .imgL → CensusSamplesWritten s.cfg s.mem .imgR →
    ∃ m, Completes .run s m ∧
      (∀ y < s.cfg.height, ∀ x < s.cfg.width,
        (∀ b ∈ [Buffer.cenL, .cenR, .disp, .scaled, .out], s.cfg.hasPixel m b y x = true) ∧
        IsDescriptor s.cfg (s.cfg.pixel s.mem .imgL) y x (s.cfg.pixel m .cenL y x) ∧
        IsDescriptor s.cfg (s.cfg.pixel s.mem .imgR) y x (s.cfg.pixel m .cenR y x) ∧
        (∀ d < s.cfg.disparities, s.cfg.hasCost m y x d = true ∧ s.cfg.costAt m y x d =
          if s.cfg.halfH ≤ y ∧ y + s.cfg.halfH < s.cfg.height ∧ s.cfg.halfW ≤ x ∧ x + s.cfg.halfW < s.cfg.width then
            hamming (s.cfg.pixel m .cenL y x) (s.cfg.pixel m .cenR y (max (x - d) s.cfg.halfW))
          else 0) ∧
        s.cfg.pixel m .disp y x < s.cfg.disparities ∧
        (∀ d < s.cfg.disparities,
          slotTotal s.cfg m y x (s.cfg.pixel m .disp y x) ≤ slotTotal s.cfg m y x d ∧
          (d < s.cfg.pixel m .disp y x →
            slotTotal s.cfg m y x (s.cfg.pixel m .disp y x) < slotTotal s.cfg m y x d)) ∧
        s.cfg.pixel m .scaled y x = min 255 (255 * s.cfg.pixel m .disp y x / s.cfg.disparities) ∧
        IsMiddle s.cfg.postK (medianSamples s.cfg m y x) (s.cfg.pixel m .out y x)) ∧
      (∀ dir : Direction, HoldsPathCosts s.cfg m m dir) ∧
      SameOutside ((Instr.writes .run).map s.cfg.region) s.mem m

/-- R221: RUN leaves the same data space as CENSUS_L, CENSUS_R, COST, AGG_ALL, SELECT, RESCALE, MEDIAN issued one by one. -/
def Obligations.RunEqualsTheSevenCommands : Prop :=
  ∀ s : State, Legal .run s → CensusSamplesWritten s.cfg s.mem .imgL → CensusSamplesWritten s.cfg s.mem .imgR →
    ∃ t u, exec .run s = .next t ∧
      execAll [.censusL, .censusR, .cost, .aggAll, .select, .rescale, .median] s = some u ∧ u.mem = t.mem

/-- 00_scope.md R18: running the full pipeline twice on the same inputs leaves the same data space. -/
def Obligations.RunTwiceLeavesTheSameMemory : Prop :=
  ∀ s : State, Memory.wf s.mem → Legal .run s →
    CensusSamplesWritten s.cfg s.mem .imgL → CensusSamplesWritten s.cfg s.mem .imgR →
    ∃ t u, exec .run s = .next t ∧ exec .run t = .next u ∧ u.mem = t.mem

/-- R221: where left and right image are equal, RUN leaves disparity 0, and so 0 in SCALED and OUT, at every pixel. -/
def Obligations.RunOnEqualImagesGivesDisparityZero : Prop :=
  ∀ s : State, Legal .run s → CensusSamplesWritten s.cfg s.mem .imgL → CensusSamplesWritten s.cfg s.mem .imgR →
    (∀ y < s.cfg.height, ∀ x < s.cfg.width, s.cfg.pixel s.mem .imgL y x = s.cfg.pixel s.mem .imgR y x) →
    ∃ m, Completes .run s m ∧ ∀ y < s.cfg.height, ∀ x < s.cfg.width,
      s.cfg.pixel m .disp y x = 0 ∧ s.cfg.pixel m .scaled y x = 0 ∧ s.cfg.pixel m .out y x = 0
end

