-- ==== Sys2Proof/Laws/Memory.lean ====
section
/-!
SUPPORT. The laws of the data space: what a read gives after a write, and that every memory operation keeps the canonical
form (20_memory.md R61, R62).
-/

namespace Sys2Proof.Machine

open Sys2Proof

/-! ### One byte -/

@[simp] theorem Memory.byte?_nil (a : Nat) : Memory.byte? [] a = none := rfl

/-- A byte reads as the value most recently written to it, and every other byte as before (R61). -/
@[simp] theorem Memory.byte?_writeByte (m : Memory) (a : Nat) (b : Byte) (x : Nat) :
    Memory.byte? (Memory.writeByte m a b) x = if x = a then some b else Memory.byte? m x := by
  induction m with
  | nil => simp [Memory.writeByte, Memory.byte?]
  | cons cell rest ih =>
    obtain ⟨a', b'⟩ := cell
    by_cases hx : x = a
    · subst hx
      simp only [Memory.writeByte]
      split
      · simp [Memory.byte?]
      · split
        · simp [Memory.byte?]
        · next _ hne => simp [Memory.byte?, hne, ih]
    · simp only [Memory.writeByte]
      split
      · simp [Memory.byte?, hx]
      · split
        · next _ heq => subst heq; simp [Memory.byte?, hx]
        · simp [Memory.byte?, hx, ih]

/-- The cells of a memory after a byte is written are the old ones and the new one. -/
theorem Memory.mem_writeByte {m : Memory} {a : Nat} {b : Byte} {cell : Host.Cell}
    (h : cell ∈ Memory.writeByte m a b) : cell = (a, b) ∨ cell ∈ m := by
  induction m with
  | nil => simpa [Memory.writeByte] using h
  | cons c rest ih =>
    obtain ⟨a', b'⟩ := c
    simp only [Memory.writeByte] at h
    split at h
    · simpa using h
    · split at h
      · rcases List.mem_cons.1 h with h | h
        · exact .inl h
        · exact .inr (List.mem_cons_of_mem _ h)
      · rcases List.mem_cons.1 h with h | h
        · exact .inr (h ▸ List.mem_cons_self)
        · exact (ih h).imp_right (List.mem_cons_of_mem _)

/-- Writing a byte keeps the canonical form. -/
theorem Memory.wf_writeByte {m : Memory} (h : Memory.wf m) (a : Nat) (b : Byte) :
    Memory.wf (Memory.writeByte m a b) := by
  induction m with
  | nil => simp [Memory.writeByte, Memory.wf]
  | cons c rest ih =>
    obtain ⟨a', b'⟩ := c
    have hrest : Memory.wf rest := (List.pairwise_cons.1 (by simpa [Memory.wf] using h)).2
    have hlow : ∀ x ∈ rest.map Prod.fst, a' < x := (List.pairwise_cons.1 (by simpa [Memory.wf] using h)).1
    simp only [Memory.writeByte]
    split
    · next hlt =>
      refine List.pairwise_cons.2 ⟨?_, h⟩
      intro x hx
      rcases List.mem_cons.1 (show x ∈ a' :: rest.map Prod.fst from hx) with rfl | hx
      · exact hlt
      · exact hlt.trans (hlow x hx)
    · split
      · next heq => subst heq; exact List.pairwise_cons.2 ⟨hlow, hrest⟩
      · next hnlt hne =>
        refine List.pairwise_cons.2 ⟨?_, ih hrest⟩
        intro x hx
        obtain ⟨cell, hcell, rfl⟩ := List.mem_map.1 hx
        rcases Memory.mem_writeByte hcell with rfl | hc
        · show a' < a
          omega
        · exact hlow _ (List.mem_map_of_mem hc)

/-- The first cell of a memory in canonical form holds the least address. -/
theorem Memory.byte?_eq_none_of_lt {m : Memory} {a : Nat} (h : ∀ x ∈ m.map Prod.fst, a < x) :
    Memory.byte? m a = none := by
  induction m with
  | nil => rfl
  | cons c rest ih =>
    obtain ⟨a', b'⟩ := c
    have h1 : a < a' := h a' (by simp)
    simp only [Memory.byte?, if_neg (Nat.ne_of_lt h1)]
    exact ih fun x hx => h x (by simp at hx ⊢; exact .inr hx)

/-- Two memories in canonical form that read the same at every address are the same data. -/
theorem Memory.ext_of_wf {m m' : Memory} (h : Memory.wf m) (h' : Memory.wf m')
    (heq : ∀ a, Memory.byte? m a = Memory.byte? m' a) : m = m' := by
  induction m generalizing m' with
  | nil =>
    cases m' with
    | nil => rfl
    | cons c rest => simpa [Memory.byte?] using heq c.1
  | cons c rest ih =>
    obtain ⟨a, b⟩ := c
    cases m' with
    | nil => simpa [Memory.byte?] using heq a
    | cons c' rest' =>
      obtain ⟨a', b'⟩ := c'
      obtain ⟨hlow, hrest⟩ := List.pairwise_cons.1 (show List.Pairwise (· < ·) (a :: rest.map Prod.fst) from h)
      obtain ⟨hlow', hrest'⟩ := List.pairwise_cons.1 (show List.Pairwise (· < ·) (a' :: rest'.map Prod.fst) from h')
      have haa : a = a' := by
        rcases Nat.lt_trichotomy a a' with hlt | heq' | hlt
        · have hnone : Memory.byte? ((a', b') :: rest') a = none :=
            Memory.byte?_eq_none_of_lt fun x hx => by
              rcases List.mem_cons.1 (show x ∈ a' :: rest'.map Prod.fst from hx) with rfl | hx
              · exact hlt
              · exact hlt.trans (hlow' x hx)
          have := heq a
          rw [hnone] at this
          simp [Memory.byte?] at this
        · exact heq'
        · have hnone : Memory.byte? ((a, b) :: rest) a' = none :=
            Memory.byte?_eq_none_of_lt fun x hx => by
              rcases List.mem_cons.1 (show x ∈ a :: rest.map Prod.fst from hx) with rfl | hx
              · exact hlt
              · exact hlt.trans (hlow x hx)
          have := heq a'
          rw [hnone] at this
          simp [Memory.byte?] at this
      subst haa
      have hb : b = b' := by simpa [Memory.byte?] using heq a
      subst hb
      congr 1
      refine ih hrest hrest' fun x => ?_
      by_cases hx : x = a
      · subst hx
        rw [Memory.byte?_eq_none_of_lt hlow, Memory.byte?_eq_none_of_lt hlow']
      · simpa [Memory.byte?, hx] using heq x

/-! ### Elements -/

/-- What every byte reads after MemWrite (R62). -/
@[simp] theorem Memory.byte?_memWrite (m : Memory) (addr n v x : Nat) :
    Memory.byte? (Memory.memWrite m addr n v) x =
      if addr ≤ x ∧ x < addr + n then some (byteOfNat v (x - addr)) else Memory.byte? m x := by
  induction n with
  | zero => simp only [Memory.memWrite]; rw [if_neg (by omega)]
  | succ k ih =>
    rw [Memory.memWrite, Memory.byte?_writeByte, ih]
    by_cases hx : x = addr + k
    · subst hx
      rw [if_pos rfl, if_pos (by omega)]
      simp
    · rw [if_neg hx]
      by_cases hin : addr ≤ x ∧ x < addr + k
      · rw [if_pos hin, if_pos (by omega)]
      · rw [if_neg hin, if_neg (by omega)]

/-- MemWrite keeps the canonical form. -/
theorem Memory.wf_memWrite {m : Memory} (h : Memory.wf m) (addr n v : Nat) :
    Memory.wf (Memory.memWrite m addr n v) := by
  induction n with
  | zero => exact h
  | succ k ih => exact Memory.wf_writeByte ih _ _

/-- Every cell after MemWrite is an old one or lies at a written address. -/
theorem Memory.mem_memWrite {m : Memory} {addr n v : Nat} {cell : Host.Cell}
    (h : cell ∈ Memory.memWrite m addr n v) : (addr ≤ cell.1 ∧ cell.1 < addr + n) ∨ cell ∈ m := by
  induction n with
  | zero => exact .inr h
  | succ k ih =>
    rcases Memory.mem_writeByte h with rfl | h
    · exact .inl ⟨by simp, by simp⟩
    · exact (ih h).imp_left fun h => ⟨h.1, by omega⟩

/-- An element is written exactly when each of its bytes is. -/
theorem Memory.written_iff {m : Memory} {addr n : Nat} :
    Memory.written m addr n = true ↔ ∀ i < n, (Memory.byte? m (addr + i)).isSome = true := by
  simp [Memory.written]

/-- An element's value depends on its own bytes only. -/
theorem Memory.memRead_congr {m m' : Memory} {addr n : Nat}
    (h : ∀ i < n, Memory.byte? m (addr + i) = Memory.byte? m' (addr + i)) :
    Memory.memRead m addr n = Memory.memRead m' addr n := by
  induction n with
  | zero => rfl
  | succ k ih => rw [Memory.memRead, Memory.memRead, ih fun i hi => h i (by omega), h k (by omega)]

/-- Whether an element is written depends on its own bytes only. -/
theorem Memory.written_congr {m m' : Memory} {addr n : Nat}
    (h : ∀ i < n, Memory.byte? m (addr + i) = Memory.byte? m' (addr + i)) :
    Memory.written m addr n = Memory.written m' addr n := by
  rw [Bool.eq_iff_iff, Memory.written_iff, Memory.written_iff]
  exact forall₂_congr fun i hi => by rw [h i hi]

/-- MemRead after MemWrite to the same place gives the n low bytes of the value (R62). -/
theorem Memory.memRead_memWrite_self (m : Memory) (addr n v : Nat) :
    Memory.memRead (Memory.memWrite m addr n v) addr n = v % 256 ^ n := by
  suffices h : ∀ k ≤ n, Memory.memRead (Memory.memWrite m addr n v) addr k = v % 256 ^ k from h n le_rfl
  intro k hk
  induction k with
  | zero => simp [Memory.memRead, Nat.mod_one]
  | succ k ih =>
    rw [Memory.memRead, ih (by omega), Memory.byte?_memWrite, if_pos (by omega)]
    have hpow : (2 : Nat) ^ (8 * k) = 256 ^ k := by rw [Nat.pow_mul]
    simp only [Nat.add_sub_cancel_left, byteOfNat, Option.getD_some, BitVec.toNat_ofNat, hpow]
    rw [show (2 : Nat) ^ 8 = 256 from rfl, Nat.pow_succ, Nat.mod_mul, Nat.mul_comm]

/-- What MemWrite wrote is written. -/
theorem Memory.written_memWrite_self (m : Memory) (addr n v : Nat) :
    Memory.written (Memory.memWrite m addr n v) addr n = true := by
  refine Memory.written_iff.2 fun i hi => ?_
  rw [Memory.byte?_memWrite, if_pos (by omega)]
  rfl

/-! ### The writes of a command -/

@[simp] theorem Memory.storeAll_nil (m : Memory) : Memory.storeAll m [] = m := rfl

@[simp] theorem Memory.storeAll_cons (m : Memory) (st : Store) (rest : List Store) :
    Memory.storeAll m (st :: rest) = Memory.storeAll (Memory.memWrite m st.addr st.bytes st.value) rest := rfl

theorem Memory.storeAll_append (m : Memory) (l l' : List Store) :
    Memory.storeAll m (l ++ l') = Memory.storeAll (Memory.storeAll m l) l' := by
  simp [Memory.storeAll, List.foldl_append]

/-- A command's writes keep the canonical form. -/
theorem Memory.wf_storeAll {m : Memory} (h : Memory.wf m) (l : List Store) : Memory.wf (Memory.storeAll m l) := by
  induction l generalizing m with
  | nil => exact h
  | cons st rest ih => exact ih (Memory.wf_memWrite h _ _ _)

/-- A byte that no store covers reads as before. -/
theorem Memory.byte?_storeAll_outside {m : Memory} {l : List Store} {x : Nat}
    (h : ∀ st ∈ l, ¬(st.addr ≤ x ∧ x < st.addr + st.bytes)) :
    Memory.byte? (Memory.storeAll m l) x = Memory.byte? m x := by
  induction l generalizing m with
  | nil => rfl
  | cons st rest ih =>
    rw [Memory.storeAll_cons, ih fun s hs => h s (List.mem_cons_of_mem _ hs), Memory.byte?_memWrite,
      if_neg (h st List.mem_cons_self)]

/-- A byte that some store covers, where all the stores that cover it agree on it, reads as they say. -/
theorem Memory.byte?_storeAll_covered {m : Memory} {l : List Store} {x : Nat} {b : Byte}
    (hcov : ∃ st ∈ l, st.addr ≤ x ∧ x < st.addr + st.bytes)
    (hagree : ∀ st ∈ l, st.addr ≤ x ∧ x < st.addr + st.bytes → byteOfNat st.value (x - st.addr) = b) :
    Memory.byte? (Memory.storeAll m l) x = some b := by
  induction l generalizing m with
  | nil => obtain ⟨st, hst, _⟩ := hcov; simp at hst
  | cons st rest ih =>
    rw [Memory.storeAll_cons]
    by_cases hrest : ∃ st' ∈ rest, st'.addr ≤ x ∧ x < st'.addr + st'.bytes
    · exact ih hrest fun s hs => hagree s (List.mem_cons_of_mem _ hs)
    · have hout : ∀ st' ∈ rest, ¬(st'.addr ≤ x ∧ x < st'.addr + st'.bytes) := fun s hs hc => hrest ⟨s, hs, hc⟩
      obtain ⟨s, hs, hc⟩ := hcov
      rcases List.mem_cons.1 hs with rfl | hs
      · rw [Memory.byte?_storeAll_outside hout, Memory.byte?_memWrite, if_pos hc,
          hagree s List.mem_cons_self hc]
      · exact absurd hc (hout s hs)

/-- Every cell after a command's writes is an old one or lies at a stored address. -/
theorem Memory.mem_storeAll {m : Memory} {l : List Store} {cell : Host.Cell} (h : cell ∈ Memory.storeAll m l) :
    (∃ st ∈ l, st.addr ≤ cell.1 ∧ cell.1 < st.addr + st.bytes) ∨ cell ∈ m := by
  induction l generalizing m with
  | nil => exact .inr h
  | cons st rest ih =>
    rcases ih h with ⟨s, hs, hc⟩ | h
    · exact .inl ⟨s, List.mem_cons_of_mem _ hs, hc⟩
    · rcases Memory.mem_memWrite h with hc | h
      · exact .inl ⟨st, List.mem_cons_self, hc⟩
      · exact .inr h

/-- Everything a body's effect on the data space can be: its inputs are written, and its stores are made. -/
theorem Memory.transform_eq_some {m m' : Memory} {readable : Bool} {l : List Store} :
    Memory.transform m readable l = some m' ↔ readable = true ∧ m' = Memory.storeAll m l := by
  cases readable <;> simp [Memory.transform, eq_comm]

/-! ### The draws of a reset -/

/-- A reset's draws keep the canonical form. -/
theorem Memory.wf_drawAll {m : Memory} (h : Memory.wf m) (n : Nat) (l : List Nat) :
    Memory.wf (Memory.drawAll m n l) := by
  induction l generalizing m n with
  | nil => exact h
  | cons a rest ih => exact ih (Memory.wf_writeByte h _ _) _

/-- A byte that is not drawn reads as before. -/
theorem Memory.byte?_drawAll_outside {m : Memory} {n : Nat} {l : List Nat} {x : Nat} (h : x ∉ l) :
    Memory.byte? (Memory.drawAll m n l) x = Memory.byte? m x := by
  induction l generalizing m n with
  | nil => rfl
  | cons a rest ih =>
    simp only [List.mem_cons, not_or] at h
    rw [Memory.drawAll, ih h.2, Memory.byte?_writeByte, if_neg h.1]

/-- Every cell after a reset's draws is an old one or lies at a drawn address. -/
theorem Memory.mem_drawAll {m : Memory} {n : Nat} {l : List Nat} {cell : Host.Cell}
    (h : cell ∈ Memory.drawAll m n l) : cell.1 ∈ l ∨ cell ∈ m := by
  induction l generalizing m n with
  | nil => exact .inr h
  | cons a rest ih =>
    rcases ih h with h | h
    · exact .inl (List.mem_cons_of_mem _ h)
    · rcases Memory.mem_writeByte h with rfl | h
      · exact .inl List.mem_cons_self
      · exact .inr h

/-! ### Regions -/

/-- Two regions meet exactly when some address lies in both. -/
theorem Region.meets_iff (r q : Region) : r.meets q = true ↔ ∃ a, r.contains a = true ∧ q.contains a = true := by
  simp only [Region.meets, Region.contains, Bool.and_eq_true, decide_eq_true_eq]
  constructor
  · rintro ⟨⟨⟨h1, h2⟩, h3⟩, h4⟩
    exact ⟨max r.base q.base, by omega, by omega⟩
  · rintro ⟨a, h1, h2⟩
    omega

/-- MEM_MAP backs a region exactly when it backs each of its addresses (R60). -/
theorem Platform.backsRegion_iff (p : Platform) (r : Region) :
    p.backsRegion r = true ↔ ∀ o < r.size, p.backs (r.base + o) = true := by
  have hmeet : ∀ q : Region, q.meets r = true ↔ ∃ o < r.size, q.contains (r.base + o) = true := fun q => by
    rw [Region.meets_iff]
    constructor
    · rintro ⟨a, h1, h2⟩
      simp only [Region.contains, Bool.and_eq_true, decide_eq_true_eq] at h1 h2 ⊢
      exact ⟨a - r.base, by omega, by omega, by omega⟩
    · rintro ⟨o, ho, h⟩
      refine ⟨r.base + o, h, ?_⟩
      simp only [Region.contains, Bool.and_eq_true, decide_eq_true_eq]
      omega
  simp only [Platform.backsRegion, Platform.backs, Bool.and_eq_true, List.all_eq_true, Bool.or_eq_true,
    beq_iff_eq, decide_eq_true_eq, Bool.not_eq_true']
  constructor
  · rintro ⟨hr, hq⟩ o ho
    refine ⟨by omega, fun q hqm => ?_⟩
    by_contra hc
    have := (hmeet q).2 ⟨o, ho, by simpa using hc⟩
    simp [hq q hqm] at this
  · intro h
    refine ⟨?_, fun q hqm => ?_⟩
    · by_cases hz : r.size = 0
      · exact .inl hz
      · have := (h (r.size - 1) (by omega)).1
        exact .inr (by omega)
    · by_contra hc
      obtain ⟨o, ho, hcon⟩ := (hmeet q).1 (by simpa using hc)
      have := (h o ho).2 q hqm
      simp [hcon] at this

end Sys2Proof.Machine
end

