-- ==== Sys2Proof/Laws/Elements.lean ====
section
/-!
SUPPORT. The geometry of the buffers (20_memory.md R65 to R77): which pixels there are, where their elements lie, and what an
element reads after a command wrote one element a pixel.
-/

namespace Sys2Proof.Machine

open Sys2Proof

/-- The pixels of the image (00_scope.md R13). -/
@[simp] theorem ConfigRegs.mem_pixels {c : ConfigRegs} {p : Nat × Nat} :
    p ∈ c.pixels ↔ p.1 < c.height ∧ p.2 < c.width := by
  obtain ⟨y, x⟩ := p
  simp [ConfigRegs.pixels]

/-- A property of every pixel, as the raster loops check it. -/
theorem ConfigRegs.all_pixels {c : ConfigRegs} {p : Nat × Nat → Bool} :
    c.pixels.all p = true ↔ ∀ y < c.height, ∀ x < c.width, p (y, x) = true := by
  rw [List.all_eq_true]
  exact ⟨fun h y hy x hx => h (y, x) (ConfigRegs.mem_pixels.2 ⟨hy, hx⟩),
    fun h p hp => h p.1 (ConfigRegs.mem_pixels.1 hp).1 p.2 (ConfigRegs.mem_pixels.1 hp).2⟩

/-- A raster index lies below H·W. -/
theorem raster_lt {h w y x : Nat} (hy : y < h) (hx : x < w) : y * w + x < h * w := by
  calc y * w + x < y * w + w := by omega
    _ = (y + 1) * w := by ring
    _ ≤ h * w := Nat.mul_le_mul_right w hy

/-- Two pixels with one raster index are the same pixel. -/
theorem raster_inj {w y x y' x' : Nat} (hx : x < w) (hx' : x' < w) (h : y * w + x = y' * w + x') :
    y = y' ∧ x = x' := by
  have hy : y = y' := by
    have h1 : (y * w + x) / w = y := by rw [Nat.mul_comm, Nat.mul_add_div (by omega), Nat.div_eq_of_lt hx]; simp
    have h2 : (y' * w + x') / w = y' := by rw [Nat.mul_comm, Nat.mul_add_div (by omega), Nat.div_eq_of_lt hx']; simp
    rw [← h1, ← h2, h]
  subst hy
  exact ⟨rfl, by omega⟩

/-- A buffer with one element a pixel (every buffer but COST and AGG). -/
def Buffer.onePerPixel : Buffer → Bool
  | .cost | .agg => false
  | .imgL | .imgR | .cenL | .cenR | .disp | .scaled | .out => true

/-- The size of a buffer with one element a pixel (R65). -/
theorem ConfigRegs.size_onePerPixel (c : ConfigRegs) {b : Buffer} (h : b.onePerPixel = true) :
    c.size b = b.elemBytes * (c.height * c.width) := by
  cases b <;> simp_all [ConfigRegs.size, Buffer.elemBytes, Buffer.onePerPixel]

/-- A pixel's element lies inside its buffer (R77). -/
theorem ConfigRegs.pixelAddr_in_region (c : ConfigRegs) {b : Buffer} (h : b.onePerPixel = true) {y x : Nat}
    (hy : y < c.height) (hx : x < c.width) :
    c.base b ≤ c.pixelAddr b y x ∧ c.pixelAddr b y x + b.elemBytes ≤ c.base b + c.size b := by
  rw [c.size_onePerPixel h]
  refine ⟨Nat.le_add_right _ _, ?_⟩
  have hr := raster_lt hy hx
  calc c.pixelAddr b y x + b.elemBytes = c.base b + b.elemBytes * (y * c.width + x + 1) := by
        rw [ConfigRegs.pixelAddr]; ring
    _ ≤ c.base b + b.elemBytes * (c.height * c.width) := by gcongr; omega

/-- A cost's byte lies inside COST (R77). -/
theorem ConfigRegs.costAddr_in_region (c : ConfigRegs) {y x d : Nat}
    (hy : y < c.height) (hx : x < c.width) (hd : d < c.disparities) :
    c.base .cost ≤ c.costAddr y x d ∧ c.costAddr y x d + 1 ≤ c.base .cost + c.size .cost := by
  have h := raster_lt (raster_lt hy hx) hd
  simp only [ConfigRegs.costAddr, ConfigRegs.size]
  omega

/-- A slot's element lies inside AGG (R77). -/
theorem ConfigRegs.aggAddr_in_region (c : ConfigRegs) {y x d k : Nat}
    (hy : y < c.height) (hx : x < c.width) (hd : d < c.disparities) (hk : k < 8) :
    c.base .agg ≤ c.aggAddr y x d k ∧ c.aggAddr y x d k + 4 ≤ c.base .agg + c.size .agg := by
  have h := raster_lt (raster_lt (raster_lt hy hx) hd) hk
  simp only [ConfigRegs.aggAddr, ConfigRegs.size]
  omega

/-- Elements of one buffer that share a byte are the same element. -/
theorem element_eq_of_shared_byte {base n i j a : Nat} (hi : base + n * i ≤ a ∧ a < base + n * i + n)
    (hj : base + n * j ≤ a ∧ a < base + n * j + n) : i = j := by
  rcases Nat.lt_trichotomy i j with h | h | h
  · have : n * (i + 1) ≤ n * j := Nat.mul_le_mul_left n h
    rw [Nat.mul_add, Nat.mul_one] at this
    omega
  · exact h
  · have : n * (j + 1) ≤ n * i := Nat.mul_le_mul_left n h
    rw [Nat.mul_add, Nat.mul_one] at this
    omega

/-- If after a command's writes each byte of an element reads as the value spells it, the element is written and reads as the
value (R62). -/
theorem Memory.memRead_of_bytes {m : Memory} {addr n v : Nat}
    (h : ∀ i < n, Memory.byte? m (addr + i) = some (byteOfNat v i)) :
    Memory.written m addr n = true ∧ Memory.memRead m addr n = v % 256 ^ n := by
  have heq : ∀ i < n, Memory.byte? m (addr + i) = Memory.byte? (Memory.memWrite m addr n v) (addr + i) := fun i hi => by
    rw [h i hi, Memory.byte?_memWrite, if_pos (by omega), Nat.add_sub_cancel_left]
  exact ⟨by rw [Memory.written_congr heq, Memory.written_memWrite_self],
    by rw [Memory.memRead_congr heq, Memory.memRead_memWrite_self]⟩

/-- After a command wrote f y x to every pixel of a buffer, each element is written and reads as f y x (R66). -/
theorem ConfigRegs.pixel_storeAll (c : ConfigRegs) (m : Memory) (b : Buffer) (f : Nat → Nat → Nat) {y x : Nat}
    (hy : y < c.height) (hx : x < c.width) :
    c.hasPixel (Memory.storeAll m (c.pixels.map fun p => c.pixelStore b p.1 p.2 (f p.1 p.2))) b y x = true ∧
    c.pixel (Memory.storeAll m (c.pixels.map fun p => c.pixelStore b p.1 p.2 (f p.1 p.2))) b y x =
      f y x % 256 ^ b.elemBytes := by
  refine Memory.memRead_of_bytes fun i hi => Memory.byte?_storeAll_covered ?_ ?_
  · exact ⟨c.pixelStore b y x (f y x), List.mem_map.2 ⟨(y, x), by simp [hy, hx], rfl⟩,
      by simp only [ConfigRegs.pixelStore]; omega⟩
  · intro st hst hc
    obtain ⟨⟨y', x'⟩, hp, rfl⟩ := List.mem_map.1 hst
    simp only [ConfigRegs.pixelStore, ConfigRegs.pixelAddr] at hc hi ⊢
    have hidx := element_eq_of_shared_byte (j := y * c.width + x) hc ⟨by omega, by omega⟩
    obtain ⟨rfl, rfl⟩ := raster_inj (ConfigRegs.mem_pixels.1 hp).2 hx hidx
    rw [Nat.add_sub_cancel_left]

end Sys2Proof.Machine
end

