-- ==== Sys2Proof/Laws/State.lean ====
section
/-!
SUPPORT. What each update of the state leaves in each field, one lemma per field per update, so that no proof unfolds a
record update.
-/

namespace Sys2Proof.Machine

open Sys2Proof

/-! ### acceptance (10_state.md R25) -/

@[simp] theorem State.accept_cfg (s : State) (v : Word) : (s.accept v).cfg = s.cfg := rfl
@[simp] theorem State.accept_busy (s : State) (v : Word) : (s.accept v).busy = true := rfl
@[simp] theorem State.accept_curCmd (s : State) (v : Word) : (s.accept v).curCmd = v := rfl
@[simp] theorem State.accept_done (s : State) (v : Word) : (s.accept v).done = false := rfl
@[simp] theorem State.accept_err (s : State) (v : Word) : (s.accept v).err = false := rfl
@[simp] theorem State.accept_cmdLost (s : State) (v : Word) : (s.accept v).cmdLost = s.cmdLost := rfl
@[simp] theorem State.accept_errCode (s : State) (v : Word) : (s.accept v).errCode = .none := rfl
@[simp] theorem State.accept_errInfo (s : State) (v : Word) : (s.accept v).errInfo = .zero := rfl
@[simp] theorem State.accept_intEn (s : State) (v : Word) : (s.accept v).intEn = s.intEn := rfl
@[simp] theorem State.accept_mem (s : State) (v : Word) : (s.accept v).mem = s.mem := rfl
@[simp] theorem State.accept_platform (s : State) (v : Word) : (s.accept v).platform = s.platform := rfl
@[simp] theorem State.accept_inputs (s : State) (v : Word) : (s.accept v).inputs = s.inputs := rfl
@[simp] theorem State.accept_replies (s : State) (v : Word) : (s.accept v).replies = s.replies := rfl
@[simp] theorem State.accept_unseen (s : State) (v : Word) : (s.accept v).unseen = s.unseen := rfl
@[simp] theorem State.accept_latencyLeft (s : State) (v : Word) : (s.accept v).latencyLeft = Config.latency s.accepts := rfl
@[simp] theorem State.accept_accepts (s : State) (v : Word) : (s.accept v).accepts = s.accepts + 1 := rfl
@[simp] theorem State.accept_draws (s : State) (v : Word) : (s.accept v).draws = s.draws := rfl

/-! ### a dropped CMD write (10_state.md R25) -/

@[simp] theorem State.drop_cfg (s : State) : (s.drop).cfg = s.cfg := rfl
@[simp] theorem State.drop_busy (s : State) : (s.drop).busy = s.busy := rfl
@[simp] theorem State.drop_curCmd (s : State) : (s.drop).curCmd = s.curCmd := rfl
@[simp] theorem State.drop_done (s : State) : (s.drop).done = s.done := rfl
@[simp] theorem State.drop_err (s : State) : (s.drop).err = s.err := rfl
@[simp] theorem State.drop_cmdLost (s : State) : (s.drop).cmdLost = true := rfl
@[simp] theorem State.drop_errCode (s : State) : (s.drop).errCode = s.errCode := rfl
@[simp] theorem State.drop_errInfo (s : State) : (s.drop).errInfo = s.errInfo := rfl
@[simp] theorem State.drop_intEn (s : State) : (s.drop).intEn = s.intEn := rfl
@[simp] theorem State.drop_mem (s : State) : (s.drop).mem = s.mem := rfl
@[simp] theorem State.drop_platform (s : State) : (s.drop).platform = s.platform := rfl
@[simp] theorem State.drop_inputs (s : State) : (s.drop).inputs = s.inputs := rfl
@[simp] theorem State.drop_replies (s : State) : (s.drop).replies = s.replies := rfl
@[simp] theorem State.drop_unseen (s : State) : (s.drop).unseen = s.unseen := rfl
@[simp] theorem State.drop_latencyLeft (s : State) : (s.drop).latencyLeft = s.latencyLeft := rfl
@[simp] theorem State.drop_accepts (s : State) : (s.drop).accepts = s.accepts := rfl
@[simp] theorem State.drop_draws (s : State) : (s.drop).draws = s.draws := rfl

/-! ### rejection (60_exceptions.md R252) -/

@[simp] theorem State.reject_cfg (s : State) (code : ErrCode) (info : ErrInfo) : (s.reject code info).cfg = s.cfg := rfl
@[simp] theorem State.reject_busy (s : State) (code : ErrCode) (info : ErrInfo) : (s.reject code info).busy = false := rfl
@[simp] theorem State.reject_curCmd (s : State) (code : ErrCode) (info : ErrInfo) : (s.reject code info).curCmd = s.curCmd := rfl
@[simp] theorem State.reject_done (s : State) (code : ErrCode) (info : ErrInfo) : (s.reject code info).done = s.done := rfl
@[simp] theorem State.reject_err (s : State) (code : ErrCode) (info : ErrInfo) : (s.reject code info).err = true := rfl
@[simp] theorem State.reject_cmdLost (s : State) (code : ErrCode) (info : ErrInfo) : (s.reject code info).cmdLost = s.cmdLost := rfl
@[simp] theorem State.reject_errCode (s : State) (code : ErrCode) (info : ErrInfo) : (s.reject code info).errCode = code := rfl
@[simp] theorem State.reject_errInfo (s : State) (code : ErrCode) (info : ErrInfo) : (s.reject code info).errInfo = info := rfl
@[simp] theorem State.reject_intEn (s : State) (code : ErrCode) (info : ErrInfo) : (s.reject code info).intEn = s.intEn := rfl
@[simp] theorem State.reject_mem (s : State) (code : ErrCode) (info : ErrInfo) : (s.reject code info).mem = s.mem := rfl
@[simp] theorem State.reject_platform (s : State) (code : ErrCode) (info : ErrInfo) : (s.reject code info).platform = s.platform := rfl
@[simp] theorem State.reject_inputs (s : State) (code : ErrCode) (info : ErrInfo) : (s.reject code info).inputs = s.inputs := rfl
@[simp] theorem State.reject_replies (s : State) (code : ErrCode) (info : ErrInfo) : (s.reject code info).replies = s.replies := rfl
@[simp] theorem State.reject_unseen (s : State) (code : ErrCode) (info : ErrInfo) : (s.reject code info).unseen = s.unseen := rfl
@[simp] theorem State.reject_latencyLeft (s : State) (code : ErrCode) (info : ErrInfo) : (s.reject code info).latencyLeft = s.latencyLeft := rfl
@[simp] theorem State.reject_accepts (s : State) (code : ErrCode) (info : ErrInfo) : (s.reject code info).accepts = s.accepts := rfl
@[simp] theorem State.reject_draws (s : State) (code : ErrCode) (info : ErrInfo) : (s.reject code info).draws = s.draws := rfl

/-! ### completion (70_reset_and_hazards.md R288) -/

@[simp] theorem State.complete_cfg (s : State) (outs : List Region) (m : Memory) : (s.complete outs m).cfg = s.cfg := rfl
@[simp] theorem State.complete_busy (s : State) (outs : List Region) (m : Memory) : (s.complete outs m).busy = false := rfl
@[simp] theorem State.complete_curCmd (s : State) (outs : List Region) (m : Memory) : (s.complete outs m).curCmd = s.curCmd := rfl
@[simp] theorem State.complete_done (s : State) (outs : List Region) (m : Memory) : (s.complete outs m).done = true := rfl
@[simp] theorem State.complete_err (s : State) (outs : List Region) (m : Memory) : (s.complete outs m).err = s.err := rfl
@[simp] theorem State.complete_cmdLost (s : State) (outs : List Region) (m : Memory) : (s.complete outs m).cmdLost = s.cmdLost := rfl
@[simp] theorem State.complete_errCode (s : State) (outs : List Region) (m : Memory) : (s.complete outs m).errCode = s.errCode := rfl
@[simp] theorem State.complete_errInfo (s : State) (outs : List Region) (m : Memory) : (s.complete outs m).errInfo = s.errInfo := rfl
@[simp] theorem State.complete_intEn (s : State) (outs : List Region) (m : Memory) : (s.complete outs m).intEn = s.intEn := rfl
@[simp] theorem State.complete_mem (s : State) (outs : List Region) (m : Memory) : (s.complete outs m).mem = m := rfl
@[simp] theorem State.complete_platform (s : State) (outs : List Region) (m : Memory) : (s.complete outs m).platform = s.platform := rfl
@[simp] theorem State.complete_inputs (s : State) (outs : List Region) (m : Memory) : (s.complete outs m).inputs = s.inputs := rfl
@[simp] theorem State.complete_replies (s : State) (outs : List Region) (m : Memory) : (s.complete outs m).replies = s.replies := rfl
@[simp] theorem State.complete_unseen (s : State) (outs : List Region) (m : Memory) : (s.complete outs m).unseen = outs ++ s.unseen := rfl
@[simp] theorem State.complete_latencyLeft (s : State) (outs : List Region) (m : Memory) : (s.complete outs m).latencyLeft = s.latencyLeft := rfl
@[simp] theorem State.complete_accepts (s : State) (outs : List Region) (m : Memory) : (s.complete outs m).accepts = s.accepts := rfl
@[simp] theorem State.complete_draws (s : State) (outs : List Region) (m : Memory) : (s.complete outs m).draws = s.draws := rfl

/-! ### a word the host gets back (70_reset_and_hazards.md R296) -/

@[simp] theorem State.reply_cfg (s : State) (v : DWord) : (s.reply v).cfg = s.cfg := rfl
@[simp] theorem State.reply_busy (s : State) (v : DWord) : (s.reply v).busy = s.busy := rfl
@[simp] theorem State.reply_curCmd (s : State) (v : DWord) : (s.reply v).curCmd = s.curCmd := rfl
@[simp] theorem State.reply_done (s : State) (v : DWord) : (s.reply v).done = s.done := rfl
@[simp] theorem State.reply_err (s : State) (v : DWord) : (s.reply v).err = s.err := rfl
@[simp] theorem State.reply_cmdLost (s : State) (v : DWord) : (s.reply v).cmdLost = s.cmdLost := rfl
@[simp] theorem State.reply_errCode (s : State) (v : DWord) : (s.reply v).errCode = s.errCode := rfl
@[simp] theorem State.reply_errInfo (s : State) (v : DWord) : (s.reply v).errInfo = s.errInfo := rfl
@[simp] theorem State.reply_intEn (s : State) (v : DWord) : (s.reply v).intEn = s.intEn := rfl
@[simp] theorem State.reply_mem (s : State) (v : DWord) : (s.reply v).mem = s.mem := rfl
@[simp] theorem State.reply_platform (s : State) (v : DWord) : (s.reply v).platform = s.platform := rfl
@[simp] theorem State.reply_inputs (s : State) (v : DWord) : (s.reply v).inputs = s.inputs := rfl
@[simp] theorem State.reply_replies (s : State) (v : DWord) : (s.reply v).replies = v :: s.replies := rfl
@[simp] theorem State.reply_unseen (s : State) (v : DWord) : (s.reply v).unseen = s.unseen := rfl
@[simp] theorem State.reply_latencyLeft (s : State) (v : DWord) : (s.reply v).latencyLeft = s.latencyLeft := rfl
@[simp] theorem State.reply_accepts (s : State) (v : DWord) : (s.reply v).accepts = s.accepts := rfl
@[simp] theorem State.reply_draws (s : State) (v : DWord) : (s.reply v).draws = s.draws := rfl

/-! ### the host sees the completion (70_reset_and_hazards.md R294) -/

@[simp] theorem State.see_cfg (s : State) : (s.see).cfg = s.cfg := rfl
@[simp] theorem State.see_busy (s : State) : (s.see).busy = s.busy := rfl
@[simp] theorem State.see_curCmd (s : State) : (s.see).curCmd = s.curCmd := rfl
@[simp] theorem State.see_done (s : State) : (s.see).done = s.done := rfl
@[simp] theorem State.see_err (s : State) : (s.see).err = s.err := rfl
@[simp] theorem State.see_cmdLost (s : State) : (s.see).cmdLost = s.cmdLost := rfl
@[simp] theorem State.see_errCode (s : State) : (s.see).errCode = s.errCode := rfl
@[simp] theorem State.see_errInfo (s : State) : (s.see).errInfo = s.errInfo := rfl
@[simp] theorem State.see_intEn (s : State) : (s.see).intEn = s.intEn := rfl
@[simp] theorem State.see_mem (s : State) : (s.see).mem = s.mem := rfl
@[simp] theorem State.see_platform (s : State) : (s.see).platform = s.platform := rfl
@[simp] theorem State.see_inputs (s : State) : (s.see).inputs = s.inputs := rfl
@[simp] theorem State.see_replies (s : State) : (s.see).replies = s.replies := rfl
@[simp] theorem State.see_unseen (s : State) : (s.see).unseen = [] := rfl
@[simp] theorem State.see_latencyLeft (s : State) : (s.see).latencyLeft = s.latencyLeft := rfl
@[simp] theorem State.see_accepts (s : State) : (s.see).accepts = s.accepts := rfl
@[simp] theorem State.see_draws (s : State) : (s.see).draws = s.draws := rfl

/-! ### a STATUS write (10_state.md R26) -/

@[simp] theorem State.clearStatus_cfg (s : State) (v : Word) : (s.clearStatus v).cfg = s.cfg := rfl
@[simp] theorem State.clearStatus_busy (s : State) (v : Word) : (s.clearStatus v).busy = s.busy := rfl
@[simp] theorem State.clearStatus_curCmd (s : State) (v : Word) : (s.clearStatus v).curCmd = s.curCmd := rfl
@[simp] theorem State.clearStatus_done (s : State) (v : Word) : (s.clearStatus v).done = (s.done && !v.getLsbD 1) := rfl
@[simp] theorem State.clearStatus_err (s : State) (v : Word) : (s.clearStatus v).err = (s.err && !v.getLsbD 2) := rfl
@[simp] theorem State.clearStatus_cmdLost (s : State) (v : Word) : (s.clearStatus v).cmdLost = (s.cmdLost && !v.getLsbD 3) := rfl
@[simp] theorem State.clearStatus_errCode (s : State) (v : Word) : (s.clearStatus v).errCode = s.errCode := rfl
@[simp] theorem State.clearStatus_errInfo (s : State) (v : Word) : (s.clearStatus v).errInfo = s.errInfo := rfl
@[simp] theorem State.clearStatus_intEn (s : State) (v : Word) : (s.clearStatus v).intEn = s.intEn := rfl
@[simp] theorem State.clearStatus_mem (s : State) (v : Word) : (s.clearStatus v).mem = s.mem := rfl
@[simp] theorem State.clearStatus_platform (s : State) (v : Word) : (s.clearStatus v).platform = s.platform := rfl
@[simp] theorem State.clearStatus_inputs (s : State) (v : Word) : (s.clearStatus v).inputs = s.inputs := rfl
@[simp] theorem State.clearStatus_replies (s : State) (v : Word) : (s.clearStatus v).replies = s.replies := rfl
@[simp] theorem State.clearStatus_unseen (s : State) (v : Word) : (s.clearStatus v).unseen = s.unseen := rfl
@[simp] theorem State.clearStatus_latencyLeft (s : State) (v : Word) : (s.clearStatus v).latencyLeft = s.latencyLeft := rfl
@[simp] theorem State.clearStatus_accepts (s : State) (v : Word) : (s.clearStatus v).accepts = s.accepts := rfl
@[simp] theorem State.clearStatus_draws (s : State) (v : Word) : (s.clearStatus v).draws = s.draws := rfl

/-! ### the taking of an input (70_reset_and_hazards.md R288) -/

@[simp] theorem State.takeInput_cfg (s : State) : (s.takeInput).cfg = s.cfg := rfl
@[simp] theorem State.takeInput_busy (s : State) : (s.takeInput).busy = s.busy := rfl
@[simp] theorem State.takeInput_curCmd (s : State) : (s.takeInput).curCmd = s.curCmd := rfl
@[simp] theorem State.takeInput_done (s : State) : (s.takeInput).done = s.done := rfl
@[simp] theorem State.takeInput_err (s : State) : (s.takeInput).err = s.err := rfl
@[simp] theorem State.takeInput_cmdLost (s : State) : (s.takeInput).cmdLost = s.cmdLost := rfl
@[simp] theorem State.takeInput_errCode (s : State) : (s.takeInput).errCode = s.errCode := rfl
@[simp] theorem State.takeInput_errInfo (s : State) : (s.takeInput).errInfo = s.errInfo := rfl
@[simp] theorem State.takeInput_intEn (s : State) : (s.takeInput).intEn = s.intEn := rfl
@[simp] theorem State.takeInput_mem (s : State) : (s.takeInput).mem = s.mem := rfl
@[simp] theorem State.takeInput_platform (s : State) : (s.takeInput).platform = s.platform := rfl
@[simp] theorem State.takeInput_inputs (s : State) : (s.takeInput).inputs = s.nextInputs := rfl
@[simp] theorem State.takeInput_replies (s : State) : (s.takeInput).replies = s.replies := rfl
@[simp] theorem State.takeInput_unseen (s : State) : (s.takeInput).unseen = s.unseen := rfl
@[simp] theorem State.takeInput_latencyLeft (s : State) : (s.takeInput).latencyLeft = s.latencyLeft - 1 := rfl
@[simp] theorem State.takeInput_accepts (s : State) : (s.takeInput).accepts = s.accepts := rfl
@[simp] theorem State.takeInput_draws (s : State) : (s.takeInput).draws = s.draws := rfl

/-! ### acceptance with LATENCY 0 -/

@[simp] theorem State.issueNow_cfg (s : State) (v : Word) : (s.issueNow v).cfg = s.cfg := rfl
@[simp] theorem State.issueNow_busy (s : State) (v : Word) : (s.issueNow v).busy = true := rfl
@[simp] theorem State.issueNow_curCmd (s : State) (v : Word) : (s.issueNow v).curCmd = v := rfl
@[simp] theorem State.issueNow_done (s : State) (v : Word) : (s.issueNow v).done = false := rfl
@[simp] theorem State.issueNow_err (s : State) (v : Word) : (s.issueNow v).err = false := rfl
@[simp] theorem State.issueNow_cmdLost (s : State) (v : Word) : (s.issueNow v).cmdLost = s.cmdLost := rfl
@[simp] theorem State.issueNow_errCode (s : State) (v : Word) : (s.issueNow v).errCode = .none := rfl
@[simp] theorem State.issueNow_errInfo (s : State) (v : Word) : (s.issueNow v).errInfo = .zero := rfl
@[simp] theorem State.issueNow_intEn (s : State) (v : Word) : (s.issueNow v).intEn = s.intEn := rfl
@[simp] theorem State.issueNow_mem (s : State) (v : Word) : (s.issueNow v).mem = s.mem := rfl
@[simp] theorem State.issueNow_platform (s : State) (v : Word) : (s.issueNow v).platform = s.platform := rfl
@[simp] theorem State.issueNow_inputs (s : State) (v : Word) : (s.issueNow v).inputs = s.inputs := rfl
@[simp] theorem State.issueNow_replies (s : State) (v : Word) : (s.issueNow v).replies = s.replies := rfl
@[simp] theorem State.issueNow_unseen (s : State) (v : Word) : (s.issueNow v).unseen = s.unseen := rfl
@[simp] theorem State.issueNow_latencyLeft (s : State) (v : Word) : (s.issueNow v).latencyLeft = 0 := rfl
@[simp] theorem State.issueNow_accepts (s : State) (v : Word) : (s.issueNow v).accepts = s.accepts + 1 := rfl
@[simp] theorem State.issueNow_draws (s : State) (v : Word) : (s.issueNow v).draws = s.draws := rfl

/-! ### reset (70_reset_and_hazards.md R280) -/

@[simp] theorem State.applyReset_cfg (s : State) : (s.applyReset).cfg = .zero := rfl
@[simp] theorem State.applyReset_busy (s : State) : (s.applyReset).busy = false := rfl
@[simp] theorem State.applyReset_curCmd (s : State) : (s.applyReset).curCmd = 0 := rfl
@[simp] theorem State.applyReset_done (s : State) : (s.applyReset).done = false := rfl
@[simp] theorem State.applyReset_err (s : State) : (s.applyReset).err = false := rfl
@[simp] theorem State.applyReset_cmdLost (s : State) : (s.applyReset).cmdLost = false := rfl
@[simp] theorem State.applyReset_errCode (s : State) : (s.applyReset).errCode = .none := rfl
@[simp] theorem State.applyReset_errInfo (s : State) : (s.applyReset).errInfo = .zero := rfl
@[simp] theorem State.applyReset_intEn (s : State) : (s.applyReset).intEn = 0 := rfl
@[simp] theorem State.applyReset_mem (s : State) : (s.applyReset).mem = Memory.drawAll s.mem s.draws s.abandoned := rfl
@[simp] theorem State.applyReset_platform (s : State) : (s.applyReset).platform = s.platform := rfl
@[simp] theorem State.applyReset_inputs (s : State) : (s.applyReset).inputs = s.inputs := rfl
@[simp] theorem State.applyReset_replies (s : State) : (s.applyReset).replies = s.replies := rfl
@[simp] theorem State.applyReset_unseen (s : State) : (s.applyReset).unseen = s.unseen := rfl
@[simp] theorem State.applyReset_latencyLeft (s : State) : (s.applyReset).latencyLeft = 0 := rfl
@[simp] theorem State.applyReset_accepts (s : State) : (s.applyReset).accepts = s.accepts := rfl
@[simp] theorem State.applyReset_draws (s : State) : (s.applyReset).draws = s.draws + s.abandoned.length := rfl

end Sys2Proof.Machine
end

