-- ==== Sys2Proof/Laws/Exec.lean ====
section
/-!
SUPPORT. What the perform step, the two agents and one step can do, said once, so that proofs cite these lemmas instead of
unfolding the machine.
-/

namespace Sys2Proof.Machine

open Sys2Proof

/-- The body of each command: what it does to the data space after its entry check. -/
def bodyOf (i : Instr) : ConfigRegs → Memory → Option Memory :=
  match i with
  | .nop => fun _ m => some m
  | .censusL => bodyCensusL
  | .censusR => bodyCensusR
  | .cost => bodyCost
  | .aggE => bodyAgg .e
  | .aggW => bodyAgg .w
  | .aggS => bodyAgg .s
  | .aggN => bodyAgg .n
  | .aggSE => bodyAgg .se
  | .aggNW => bodyAgg .nw
  | .aggSW => bodyAgg .sw
  | .aggNE => bodyAgg .ne
  | .aggAll => bodyAggAll
  | .select => bodySelect
  | .rescale => bodyRescale
  | .median => bodyMedian
  | .run => bodyRun

/-- Every command but NOP is the shared perform step with its own body (R288). -/
theorem exec_eq_perform {i : Instr} (h : i ≠ .nop) (s : State) : exec i s = perform i (bodyOf i) s := by
  cases i <;> first | exact absurd rfl h | rfl

/-- NOP completes and changes no memory (R220). -/
theorem exec_nop (s : State) : exec .nop s = .next (s.complete [] s.mem) := rfl

/-- A failed entry check rejects (R252). -/
theorem perform_reject {i : Instr} {body : ConfigRegs → Memory → Option Memory} {s : State}
    (h : (checkEntry i s.cfg).code ≠ .none) :
    perform i body s = .next (s.reject (checkEntry i s.cfg).code (checkEntry i s.cfg)) := by
  simp [perform, h]

/-- A passed entry check, backed buffers and a body that finds its inputs written complete (R288). -/
theorem perform_complete {i : Instr} {body : ConfigRegs → Memory → Option Memory} {s : State} {m : Memory}
    (hcheck : (checkEntry i s.cfg).code = .none) (hback : buffersBacked i s = true)
    (hbody : body s.cfg s.mem = some m) :
    perform i body s = .next (s.complete (outputs i s.cfg) m) := by
  simp [perform, hcheck, hback, hbody]

/-- Everything the perform step can answer as a next state: rejection, or completion of the body. -/
theorem perform_next {i : Instr} {body : ConfigRegs → Memory → Option Memory} {s t : State}
    (h : perform i body s = .next t) :
    ((checkEntry i s.cfg).code ≠ .none ∧ t = s.reject (checkEntry i s.cfg).code (checkEntry i s.cfg)) ∨
    ((checkEntry i s.cfg).code = .none ∧ buffersBacked i s = true ∧
      ∃ m, body s.cfg s.mem = some m ∧ t = s.complete (outputs i s.cfg) m) := by
  simp only [perform] at h
  split at h
  · next hc => exact .inl ⟨hc, by simpa using h.symm⟩
  · next hc =>
    split at h
    · cases h
    · next hb =>
      split at h
      · cases h
      · next m hm => exact .inr ⟨not_not.1 hc, by simpa using hb, m, hm, by simpa using h.symm⟩

/-- Everything a command can answer as a next state. -/
theorem exec_next {i : Instr} {s t : State} (h : exec i s = .next t) :
    (i ≠ .nop ∧ (checkEntry i s.cfg).code ≠ .none ∧
      t = s.reject (checkEntry i s.cfg).code (checkEntry i s.cfg)) ∨
    (∃ m, bodyOf i s.cfg s.mem = some m ∧ (i ≠ .nop → (checkEntry i s.cfg).code = .none ∧ buffersBacked i s = true) ∧
      t = s.complete (outputs i s.cfg) m) := by
  by_cases hi : i = .nop
  · subst hi
    rw [exec_nop] at h
    exact .inr ⟨s.mem, rfl, fun hne => absurd rfl hne, by simpa [outputs, Instr.writes] using h.symm⟩
  · rw [exec_eq_perform hi] at h
    rcases perform_next h with ⟨hc, ht⟩ | ⟨hc, hb, m, hm, ht⟩
    · exact .inl ⟨hi, hc, ht⟩
    · exact .inr ⟨m, hm, fun _ => ⟨hc, hb⟩, ht⟩

/-- Everything the core's step can answer as a next state. -/
theorem coreStep_next {s t : State} (h : coreStep s = .next t) :
    (∃ i, decode s.curCmd = .ok i ∧ exec i s = .next t) ∨
    (∃ e, decode s.curCmd = .error e ∧ t = s.reject .illegalCommand .illegalWord) := by
  simp only [coreStep] at h
  split at h
  · next i hi => exact .inl ⟨i, hi, h⟩
  · next e he => exact .inr ⟨e, he, by simpa [ErrInfo.code, ErrInfo.illegalWord] using h.symm⟩

/-- Everything one step can answer as a next state: the core's step on its turn, or a host step. -/
theorem step_next {s t : State} (h : step s = .next t) :
    (s.busy = true ∧ coreStep s = .next t) ∨ hostStep s = .next t := by
  simp only [step, agentStep] at h
  split at h
  · next hturn =>
    have hb : s.busy = true := by
      simp only [State.coreTurn, Bool.and_eq_true] at hturn
      exact hturn.1
    split at h
    · next u hu => exact .inl ⟨hb, by rw [hu]; exact h⟩
    · split at h
      · cases h
      · exact .inr h
    · cases h
    · cases h
  · exact .inr h

/-- Everything a host step can answer as a next state: nothing left to do, or what its next input does. -/
theorem hostStep_next {s t : State} (h : hostStep s = .next t) :
    (s.inputs = [] ∧ t = s) ∨
    ∃ input rest, s.inputs = input :: rest ∧ hostAct input s.takeInput = .next t := by
  simp only [hostStep] at h
  split at h
  · next hnil => exact .inl ⟨hnil, by simpa using h.symm⟩
  · next input rest hcons => exact .inr ⟨input, rest, hcons, h⟩

/-! ### Host accesses -/

/-- Everything a bus read can answer as a next state (R39). -/
theorem hostBusRead_next {addr : Nat} {w : Width} {s t : State} (h : hostBusRead addr w s = .next t) :
    ∃ off, busTarget s.platform addr w = .offset off ∧ t = s.hostReadOffset off := by
  simp only [hostBusRead] at h
  split at h
  · cases h
  · cases h
  · next off ho => exact ⟨off, ho, by simpa using h.symm⟩

/-- STATUS is at offset 0x08 and at no other (R23). -/
theorem Reg.atOffset_eq_status_iff (off : Nat) : Reg.atOffset off = some .status ↔ off = 8 := by
  refine ⟨fun h => ?_, fun h => by subst h; rfl⟩
  have other {c : Prop} [Decidable c] {r : Reg} {e : Option Reg} (hr : r ≠ .status)
      (h : (if c then some r else e) = some .status) : e = some .status := by
    split at h
    · exact absurd (Option.some.inj h) hr
    · exact h
  by_contra hne
  replace h := other (by decide) (other (by decide) h)
  rw [if_neg hne] at h
  iterate 18 replace h := other (by decide) h
  cases h

/-- Everything a read of an offset does: the host gets the word, and a STATUS read that shows the completion empties
`unseen` (R82, R294). -/
theorem State.hostReadOffset_eq (s : State) (off : Nat) :
    s.hostReadOffset off = { s with
      replies := (s.readOffset off).setWidth 64 :: s.replies
      unseen := if Reg.atOffset off = some .status ∧ s.showsCompletion = true then [] else s.unseen } := by
  by_cases h : Reg.atOffset off = some .status ∧ s.showsCompletion = true <;>
    simp [State.hostReadOffset, State.reply, State.see, h]

/-- Everything a sample of the IRQ line does (R255, R82). -/
theorem State.hostReadIrq_eq (s : State) :
    s.hostReadIrq = { s with
      replies := (BitVec.ofBool s.irq).setWidth 64 :: s.replies
      unseen := if s.irqShowsDone = true then [] else s.unseen } := by
  by_cases h : s.irqShowsDone = true <;> simp [State.hostReadIrq, State.reply, State.see, h]

/-- Everything a bus write can answer as a next state (R39). -/
theorem hostBusWrite_next {addr : Nat} {w : Width} {v : DWord} {s t : State} (h : hostBusWrite addr w v s = .next t) :
    ∃ off, busTarget s.platform addr w = .offset off ∧ t = s.writeOffset off (v.setWidth 32) := by
  simp only [hostBusWrite] at h
  split at h
  · cases h
  · cases h
  · next off ho => exact ⟨off, ho, by simpa using h.symm⟩

/-- Everything a host read of the data space can answer as a next state (R281, R291, R294). -/
theorem hostMemRead_next {addr : Word} {w : Width} {s t : State} (h : hostMemRead addr w s = .next t) :
    s.platform.backsRegion ⟨addr.toNat, w.bytes⟩ = true ∧ s.races ⟨addr.toNat, w.bytes⟩ = false ∧
    Memory.written s.mem addr.toNat w.bytes = true ∧
    t = s.reply (BitVec.ofNat 64 (Memory.memRead s.mem addr.toNat w.bytes)) := by
  simp only [hostMemRead] at h
  split at h
  · cases h
  · next hr =>
    split at h
    · cases h
    · split at h
      · cases h
      · next hb =>
        split at h
        · cases h
        · next hw => exact ⟨by simpa using hb, by simpa using hr, by simpa using hw, by simpa using h.symm⟩

/-- Everything a host write of the data space can answer as a next state (R291). -/
theorem hostMemWrite_next {addr : Word} {w : Width} {v : DWord} {s t : State}
    (h : hostMemWrite addr w v s = .next t) :
    s.platform.backsRegion ⟨addr.toNat, w.bytes⟩ = true ∧ s.races ⟨addr.toNat, w.bytes⟩ = false ∧
    t = { s with mem := Memory.memWrite s.mem addr.toNat w.bytes v.toNat } := by
  simp only [hostMemWrite] at h
  split at h
  · cases h
  · next hr =>
    split at h
    · cases h
    · next hb => exact ⟨by simpa using hb, by simpa using hr, by simpa using h.symm⟩

/-! ### Canonical form -/

/-- Every command's body keeps the data space in canonical form. -/
theorem wf_bodyOf {i : Instr} {c : ConfigRegs} {m m' : Memory} (h : bodyOf i c m = some m') (hm : Memory.wf m) :
    Memory.wf m' := by
  have htr : ∀ {b : Bool} {l : List Store} {m m' : Memory},
      Memory.transform m b l = some m' → Memory.wf m → Memory.wf m' := fun ht hw => by
    obtain ⟨-, rfl⟩ := Memory.transform_eq_some.1 ht
    exact Memory.wf_storeAll hw _
  have hall : ∀ (dirs : List Direction) {m m' : Memory},
      dirs.foldlM (fun m dir => bodyAgg dir c m) m = some m' → Memory.wf m → Memory.wf m' := by
    intro dirs
    induction dirs with
    | nil => intro m m' h hm; simp only [List.foldlM_nil] at h; cases h; exact hm
    | cons d rest ih =>
      intro m m' h hm
      rw [List.foldlM_cons] at h
      obtain ⟨m1, h1, h2⟩ := Option.bind_eq_some_iff.1 h
      exact ih h2 (htr h1 hm)
  cases i with
  | nop => cases h; exact hm
  | aggAll => exact hall _ h hm
  | run =>
    simp only [bodyOf, bodyRun, Option.bind_eq_bind, Option.bind_eq_some_iff] at h
    obtain ⟨m1, h1, m2, h2, m3, h3, m4, h4, m5, h5, m6, h6, h7⟩ := h
    exact htr h7 (htr h6 (htr h5 (hall _ h4 (htr h3 (htr h2 (htr h1 hm))))))
  | _ => exact htr h hm

end Sys2Proof.Machine
end

