-- ==== Sys2Proof/Laws/Entry.lean ====
section
/-!
SUPPORT. The entry check and the region tests in the words of the rules: what passing them means (60_exceptions.md R241 to
R251, 20_memory.md R60, 00_scope.md R14), and when a command completes.
-/

namespace Sys2Proof.Machine

open Sys2Proof

/-- The interior of R14 with no subtraction. -/
theorem ConfigRegs.interior_iff (c : ConfigRegs) (y x : Nat) :
    c.interior y x = true ↔
      c.halfH ≤ y ∧ y + c.halfH < c.height ∧ c.halfW ≤ x ∧ x + c.halfW < c.width := by
  simp only [ConfigRegs.interior, Bool.and_eq_true, decide_eq_true_eq]
  omega

/-- Where every sample of an image is written, so are those the census compares. -/
theorem censusSamplesWritten_of_pixels {c : ConfigRegs} {m : Memory} {b : Buffer} (h : PixelsWritten c m b) :
    CensusSamplesWritten c m b := by
  intro y hy x hx hin i hi j hj _
  obtain ⟨h1, h2, h3, h4⟩ := (c.interior_iff y x).1 hin
  simp only [ConfigRegs.halfH, ConfigRegs.halfW] at *
  exact ⟨h _ (by omega) _ (by omega), h y hy x hx⟩

/-- No check fails exactly when every bit of the information is clear. -/
theorem ErrInfo.code_eq_none_iff (e : ErrInfo) : e.code = .none ↔ e = .zero := by
  rcases e with ⟨a, b, c, d, e, f, g, h, i, j, k⟩
  revert a b c d e f g h i j k
  decide

/-- Two buffers of at least one byte share no byte exactly when one ends before the other begins. -/
theorem ConfigRegs.meets_iff (c : ConfigRegs) {a b : Buffer} (ha : 0 < c.size a) (hb : 0 < c.size b) :
    (c.region a).meets (c.region b) = true ↔
      ¬(c.base a + c.size a ≤ c.base b ∨ c.base b + c.size b ≤ c.base a) := by
  simp only [Region.meets, Bool.and_eq_true, decide_eq_true_eq]
  simp only [ConfigRegs.region]
  omega

/-- Every buffer of a legal image has a byte. -/
theorem ConfigRegs.size_pos {c : ConfigRegs} (h : ParametersLegal c) (b : Buffer) : 0 < c.size b := by
  obtain ⟨-, hh, hw, hd, -⟩ := h
  have hp : 0 < c.height * c.width := Nat.mul_pos hh hw
  have hv : 0 < c.height * c.width * c.disparities := Nat.mul_pos hp hd
  cases b <;> simp only [ConfigRegs.size] <;> omega

/-- MEM_MAP backs the buffers of a command, in the words of R60. -/
theorem buffersBacked_iff (i : Instr) (s : State) : buffersBacked i s = true ↔ BuffersBacked i s := by
  simp only [buffersBacked, List.all_eq_true, Platform.backsRegion_iff, ConfigRegs.region]

/-- R249: no used buffer is misaligned. -/
theorem misaligned_iff (i : Instr) (c : ConfigRegs) :
    misaligned i c = false ↔ ∀ b ∈ Instr.used i, c.base b % b.elemBytes = 0 := by
  simp [misaligned]

/-- R250: no used buffer ends past 2^32. -/
theorem outOfRange_iff (i : Instr) (c : ConfigRegs) :
    outOfRange i c = false ↔ ∀ b ∈ Instr.used i, c.base b + c.size b ≤ 2 ^ 32 := by
  simp only [outOfRange, List.any_eq_false, decide_eq_true_eq, Nat.not_lt]
  exact Iff.rfl

/-- R251: no written buffer shares a byte with another used one. -/
theorem overlapping_iff {i : Instr} {c : ConfigRegs} (h : ParametersLegal c) :
    overlapping i c = false ↔ ∀ a ∈ Instr.writes i, ∀ b ∈ Instr.used i, a ≠ b →
      c.base a + c.size a ≤ c.base b ∨ c.base b + c.size b ≤ c.base a := by
  simp only [overlapping, List.any_eq_false, List.any_eq_true, Bool.and_eq_true, bne_iff_ne, not_exists, not_and,
    c.meets_iff (ConfigRegs.size_pos h _) (ConfigRegs.size_pos h _), not_not]

/-- The entry check of R241 passes exactly when the parameters are legal (R243 to R248) and the buffers are (R249 to
R251). -/
theorem checkEntry_code_eq_none_iff (i : Instr) (c : ConfigRegs) :
    (checkEntry i c).code = .none ↔ ParametersLegal c ∧ BuffersLegal i c := by
  have hsplit : (checkEntry i c).code = .none ↔
      ParametersLegal c ∧ misaligned i c = false ∧ outOfRange i c = false ∧ overlapping i c = false := by
    rw [ErrInfo.code_eq_none_iff]
    simp only [checkEntry, ErrInfo.zero, ErrInfo.mk.injEq, bne_eq_false_iff_eq, Bool.or_eq_false_iff,
      beq_eq_false_iff_ne, decide_eq_false_iff_not, true_and]
    constructor
    · rintro ⟨h1, ⟨h2, h3⟩, h4, ⟨h5, h6⟩, h7, h8, h9, h⟩
      exact ⟨⟨h1, by omega, by omega, by omega, by omega, by omega, by omega, by omega, by omega⟩, h⟩
    · rintro ⟨⟨h1, h2, h3, h4, h5, h6, h7, h8, h9⟩, h⟩
      exact ⟨h1, ⟨by omega, by omega⟩, by omega, ⟨by omega, by omega⟩, by omega, by omega, by omega, h⟩
  rw [hsplit]
  refine and_congr_right fun hp => ?_
  rw [misaligned_iff, outOfRange_iff, overlapping_iff hp]
  exact ⟨fun ⟨h1, h2, h3⟩ => ⟨fun b hb => ⟨h1 b hb, h2 b hb⟩, h3⟩,
    fun ⟨h, h3⟩ => ⟨fun b hb => (h b hb).1, fun b hb => (h b hb).2, h3⟩⟩

/-- A legal command whose inputs are written completes with its body's data space. -/
theorem perform_of_legal {i : Instr} {body : ConfigRegs → Memory → Option Memory} {s : State} {m : Memory}
    (h : Legal i s) (hm : body s.cfg s.mem = some m) :
    perform i body s = .next (s.complete (outputs i s.cfg) m) := by
  obtain ⟨hp, hb, hk⟩ := h
  simp [perform, (checkEntry_code_eq_none_iff i s.cfg).2 ⟨hp, hb⟩, (buffersBacked_iff i s).2 hk, hm]

end Sys2Proof.Machine
end

