-- ==== Sys2Proof/Laws/PerInstr.lean ====
section
/-!
SUPPORT. One statement about every instruction as syntax: its word is a defined command by the two checks of 30_encoding.md R92,
and every buffer it writes is among the buffers it uses (20_memory.md R78).
-/

namespace Sys2Proof.Laws.Encoding

open Sys2Proof Sys2Proof.Machine

/-- The word passes the checks of R92, and the written buffers are among the used ones (R78). -/
def Statement (i : Instr) : Prop :=
  wellFormedWord (encode i) = true ∧ ∀ b ∈ Instr.writes i, b ∈ Instr.used i

theorem nop : Statement .nop := ⟨by decide, by decide⟩
theorem censusL : Statement .censusL := ⟨by decide, by decide⟩
theorem censusR : Statement .censusR := ⟨by decide, by decide⟩
theorem cost : Statement .cost := ⟨by decide, by decide⟩
theorem aggE : Statement .aggE := ⟨by decide, by decide⟩
theorem aggW : Statement .aggW := ⟨by decide, by decide⟩
theorem aggS : Statement .aggS := ⟨by decide, by decide⟩
theorem aggN : Statement .aggN := ⟨by decide, by decide⟩
theorem aggSE : Statement .aggSE := ⟨by decide, by decide⟩
theorem aggNW : Statement .aggNW := ⟨by decide, by decide⟩
theorem aggSW : Statement .aggSW := ⟨by decide, by decide⟩
theorem aggNE : Statement .aggNE := ⟨by decide, by decide⟩
theorem aggAll : Statement .aggAll := ⟨by decide, by decide⟩
theorem select : Statement .select := ⟨by decide, by decide⟩
theorem rescale : Statement .rescale := ⟨by decide, by decide⟩
theorem median : Statement .median := ⟨by decide, by decide⟩
theorem run : Statement .run := ⟨by decide, by decide⟩

end Sys2Proof.Laws.Encoding
end

