-- ==== Sys2Proof/Tests/Slice0.lean ====
section
/-!
SUPPORT. The model's own tests: the words of spec/30_encoding.md R93 written out, the well-formedness checks refusing, one
small test a command with its expected value from spec/95_test_vectors.md, and a state that meets the hypotheses of each
obligation.
-/

namespace Sys2Proof.Tests

open Sys2Proof Sys2Proof.Machine

set_option Elab.async false

/-! ### Helpers -/

/-- A run of bytes from an address. -/
def cells (a : Nat) (l : List Nat) : Memory := l.zipIdx.map fun (v, i) => (a + i, BitVec.ofNat 8 v)

/-- A 1×3 image pair with KH = 1, KW = 3, POST_K = 3, D = 2, P1 = 1, P2 = 4 (the parameters of V2b and V7), the buffers
packed upwards from address 0. -/
def smallCfg : ConfigRegs :=
  { ConfigRegs.zero with
    dim := 0x00010003, dimR := 0x00010003, ndisp := 2, p1 := 1, p2 := 4, kernel := 0x030103
    baseImgL := 0, baseImgR := 4, baseCost := 8, baseScaled := 16, baseOut := 20, baseDisp := 24
    baseCenL := 32, baseCenR := 56, baseAgg := 80 }

/-- Images 3 5 4 and 3 5 4 (V2b), costs (0,5) (5,0) (5,0) (V7), scaled 10 200 10, indices 0 1 1, descriptors 0 0xF0 0 and
0 0x0F 0 (V4). -/
def smallMem : Memory :=
  cells 0 [3, 5, 4] ++ cells 4 [3, 5, 4] ++ cells 8 [0, 5, 5, 0, 5, 0] ++ cells 16 [10, 200, 10] ++
  cells 24 [0, 0, 1, 0, 1, 0] ++
  cells 32 [0, 0, 0, 0, 0, 0, 0, 0, 0xF0, 0, 0, 0, 0, 0, 0, 0, 0, 0, 0, 0, 0, 0, 0, 0] ++
  cells 56 [0, 0, 0, 0, 0, 0, 0, 0, 0x0F, 0, 0, 0, 0, 0, 0, 0, 0, 0, 0, 0, 0, 0, 0, 0]

/-- A state with the inputs of every command but SELECT written, the core idle. -/
def small : State := { State.reset with cfg := smallCfg, mem := smallMem }

/-- `small` with nothing written but the two images. -/
def imaged : State := { small with mem := cells 0 [3, 5, 4] ++ cells 4 [3, 5, 4] }

/-- `small` with nothing written but the costs. -/
def costed : State := { small with mem := cells 8 [0, 5, 5, 0, 5, 0] }

/-- `small` with one input for the host to do. -/
def hosting (input : Input) : State := { small with inputs := [input] }

/-- `hosting` with a command accepted and one host step of LATENCY still to come. -/
def running (v : Word) (input : Input) : State :=
  { hosting input with busy := true, curCmd := v, latencyLeft := 1 }

/-- Whether an outcome is a next state with a property. -/
def nextWith (o : Host.Outcome State Fault Refusal) (p : State → Bool) : Bool :=
  match o with
  | .next t => p t
  | .fault _ => false
  | .refused _ => false

/-- The n bytes at an address. -/
def bytesAt (s : State) (a n : Nat) : List (Option Nat) := (List.range n).map fun i => (Memory.byte? s.mem (a + i)).map (·.toNat)

/-! ### Encoding: the words of R93 -/

theorem test_decode_nop : decode 0b00000000000000000000000000000000#32 = .ok .nop := by decide
theorem test_decode_censusL : decode 0b00000000000000000000000000000001#32 = .ok .censusL := by decide
theorem test_decode_censusR : decode 0b00000000000000000000000000000010#32 = .ok .censusR := by decide
theorem test_decode_cost : decode 0b00000000000000000000000000000011#32 = .ok .cost := by decide
theorem test_decode_aggE : decode 0b00000000000000000000000000010000#32 = .ok .aggE := by decide
theorem test_decode_aggW : decode 0b00000000000000000000000000010001#32 = .ok .aggW := by decide
theorem test_decode_aggS : decode 0b00000000000000000000000000010010#32 = .ok .aggS := by decide
theorem test_decode_aggN : decode 0b00000000000000000000000000010011#32 = .ok .aggN := by decide
theorem test_decode_aggSE : decode 0b00000000000000000000000000010100#32 = .ok .aggSE := by decide
theorem test_decode_aggNW : decode 0b00000000000000000000000000010101#32 = .ok .aggNW := by decide
theorem test_decode_aggSW : decode 0b00000000000000000000000000010110#32 = .ok .aggSW := by decide
theorem test_decode_aggNE : decode 0b00000000000000000000000000010111#32 = .ok .aggNE := by decide
theorem test_decode_aggAll : decode 0b00000000000000000000000000011000#32 = .ok .aggAll := by decide
theorem test_decode_select : decode 0b00000000000000000000000000100000#32 = .ok .select := by decide
theorem test_decode_rescale : decode 0b00000000000000000000000000100001#32 = .ok .rescale := by decide
theorem test_decode_median : decode 0b00000000000000000000000000100010#32 = .ok .median := by decide
theorem test_decode_run : decode 0b00000000000000000000000000110000#32 = .ok .run := by decide

/-- R94: the held opcode, an unlisted one and a set reserved bit are refused by name. -/
theorem test_decode_refuses :
    decode 0x00000004#32 = .error .heldOpcode ∧ decode 0x00000031#32 = .error (.undefinedOpcode 0x31#8) ∧
    decode 0x00000101#32 = .error .reservedBits := by decide

theorem test_table_word : decodeTableWord 32 0x30 = some .run ∧ decodeTableWord 32 0x19 = none := by decide

/-- Each check of WellFormed refuses an ill-formed word: a reserved bit (E22), an unlisted opcode (E20, E21). -/
theorem test_illformed_words :
    reservedIsZero 0x101#32 = false ∧ opcodeListed 0x04#32 = false ∧ opcodeListed 0x31#32 = false ∧
    wellFormedWord 0x101#32 = false ∧ wellFormedWord 0x04#32 = false ∧ wellFormedWord 0x22#32 = true := by decide

/-- No instruction is ill-formed, since none has an operand (R91). -/
theorem test_wellformed_instr : ∀ i ∈ [Instr.nop, .censusL, .aggNE, .run], i.wellFormed = true := by decide

/-! ### The first command after reset -/

/-- P1: NOP after reset completes with STATUS = 2. -/
theorem test_nop_after_reset :
    nextWith (step (State.reset.withFetchWord 32 0x00)) (fun t => t.status == 2#32 && !t.busy) = true := by decide

/-- E1: a command on the reset configuration is rejected with code 2 and ERR_INFO 0x04E. -/
theorem test_run_after_reset :
    nextWith (step (State.reset.withFetchWord 32 0x30))
      (fun t => t.status == 4#32 && t.readOffset 0x0C == 2#32 && t.readOffset 0x10 == 0x4E#32) = true := by decide

/-- E20: the held opcode is rejected with code 3 and ERR_INFO 0x080. -/
theorem test_illegal_after_reset :
    nextWith (step (State.reset.withFetchWord 32 0x04))
      (fun t => t.status == 4#32 && t.readOffset 0x0C == 3#32 && t.readOffset 0x10 == 0x80#32) = true := by decide

/-! ### Commands -/

/-- V2b: image 3 5 4 gives descriptors 0 3 0. -/
theorem test_censusL : nextWith (exec .censusL small) (fun t =>
    bytesAt t 32 24 == [0, 0, 0, 0, 0, 0, 0, 0, 3, 0, 0, 0, 0, 0, 0, 0, 0, 0, 0, 0, 0, 0, 0, 0].map some) = true := by
  decide +kernel

/-- V2a: ties and bit order of a 3×3 window give 0x92. -/
theorem test_census_bit_order :
    packBits ([99, 100, 101, 0, 255, 100, 50, 100].map fun v => decide (v < 100)) = 0x92 := by decide

/-- V2b on the right image. -/
theorem test_censusR : nextWith (exec .censusR small) (fun t => bytesAt t 64 1 == [some 3]) = true := by decide +kernel

/-- V4: descriptors 0xF0 and 0x0F cost 8; the clamp repeats it at d = 1 (R132); border cells are 0. -/
theorem test_cost : nextWith (exec .cost small) (fun t => bytesAt t 8 6 == [0, 0, 8, 8, 0, 0].map some) = true := by
  decide +kernel

/-- The two path costs of each pixel in a slot. -/
def slotPairs (t : State) (k : Nat) : List (Nat × Nat) :=
  t.cfg.pixels.map fun p => (t.cfg.aggAt t.mem p.1 p.2 0 k, t.cfg.aggAt t.mem p.1 p.2 1 k)

/-- V7, E. -/
theorem test_aggE : nextWith (exec .aggE costed) (fun t => slotPairs t 0 == [(0, 5), (5, 1), (6, 0)]) = true := by
  decide +kernel

/-- V7, W. -/
theorem test_aggW : nextWith (exec .aggW costed) (fun t => slotPairs t 1 == [(1, 5), (6, 0), (5, 0)]) = true := by
  decide +kernel

/-- `costed` with the three pixels in a column (R164, R165). -/
def column : State := { costed with cfg := { smallCfg with dim := 0x00030001, dimR := 0x00030001 } }

/-- V7 down a column, S. -/
theorem test_aggS : nextWith (exec .aggS column) (fun t => slotPairs t 2 == [(0, 5), (5, 1), (6, 0)]) = true := by
  decide +kernel

/-- V7 down a column, N. -/
theorem test_aggN : nextWith (exec .aggN column) (fun t => slotPairs t 3 == [(1, 5), (6, 0), (5, 0)]) = true := by
  decide +kernel

/-- The costs of V11 on a 3×3 image, D = 2, P1 = 1, P2 = 2. -/
def cost11 (p : Nat × Nat) : List Nat :=
  [[0, 3], [2, 1], [4, 0], [1, 1], [3, 0], [0, 2], [2, 2], [1, 4], [0, 1]].getD (p.1 * 3 + p.2) []

/-- The path costs of one pixel of V11 in a direction. -/
def path11 (dir : Direction) (p : Nat × Nat) : Option (List Nat) :=
  ((slices dir 3 3).flatMap fun ps => ps.zip (pathCost 1 2 (ps.map cost11))).lookup p

/-- V11, SE and NW. -/
theorem test_aggSE : (path11 .se (1, 1), path11 .se (2, 2), path11 .se (1, 2)) =
    (some [3, 1], some [1, 1], some [1, 2]) := by decide
theorem test_aggNW : (path11 .nw (0, 0), path11 .nw (0, 1), path11 .nw (1, 0)) =
    (some [1, 3], some [2, 2], some [1, 2]) := by decide

/-- V11, SW and NE. -/
theorem test_aggSW : (path11 .sw (1, 0), path11 .sw (1, 1), path11 .sw (2, 0), path11 .sw (2, 1)) =
    (some [2, 1], some [4, 0], some [3, 2], some [1, 5]) := by decide
theorem test_aggNE : (path11 .ne (0, 1), path11 .ne (0, 2), path11 .ne (1, 2)) =
    (some [2, 1], some [5, 0], some [0, 3]) := by decide

/-- On one row AGG_ALL writes the costs themselves into the diagonal slots (R166) and V7 into slots 0 and 1. -/
theorem test_aggAll : nextWith (exec .aggAll costed) (fun t =>
    slotPairs t 1 == [(1, 5), (6, 0), (5, 0)] && slotPairs t 6 == [(0, 5), (5, 0), (5, 0)]) = true := by decide +kernel

/-- One pixel whose slots are all 0 but slot 0 of disparity 0, which is 7. -/
def slotted : State :=
  { small with
    cfg := { smallCfg with dim := 0x00010001, dimR := 0x00010001 }
    mem := cells 80 ((List.range 64).map fun i => if i = 0 then 7 else 0) }

/-- The sums are (7, 0), so DISP is 1. -/
theorem test_select : nextWith (exec .select slotted) (fun t => bytesAt t 24 2 == [1, 0].map some) = true := by
  decide +kernel

/-- V12a: a tie goes to the lower index. -/
theorem test_winner_tie : winner [12, 7, 7, 9] = 1 := by decide

/-- V13: D = 8, v = 3 gives 95, and a v of D or more saturates. -/
theorem test_rescale_value : rescale 8 3 = 95 ∧ rescale 8 9 = 255 ∧ rescale 65535 65534 = 254 := by decide

/-- D = 2: 0 and 1 become 0 and 127 (P3). -/
theorem test_rescale : nextWith (exec .rescale small) (fun t => bytesAt t 16 3 == [some 0, some 127, some 127]) = true := by
  decide +kernel

/-- A single speckle in a row is removed (R200). -/
theorem test_median : nextWith (exec .median small) (fun t => bytesAt t 20 3 == [some 10, some 10, some 10]) = true := by
  decide +kernel

/-- V14c at (0, 0): the fifth smallest of 10 10 20 10 10 20 50 50 60 is 20. -/
theorem test_median_of : medianOf 3 [10, 10, 20, 10, 10, 20, 50, 50, 60] = 20 := by decide

/-- V16 in small: equal images give disparity 0 and OUT 0 everywhere. -/
theorem test_run : nextWith (exec .run imaged) (fun t =>
    t.status == 2#32 && bytesAt t 24 6 == [0, 0, 0, 0, 0, 0].map some && bytesAt t 20 3 == [0, 0, 0].map some) = true := by
  decide +kernel

/-- P5: SELECT over slots nothing has written is UNWRITTEN_READ. -/
theorem test_select_unwritten : (match exec .select { small with mem := cells 0 [3, 5, 4] } with
    | .fault .unwrittenRead => true
    | _ => false) = true := by decide +kernel

/-- E24: a misaligned AGG and D = 0 give code 2 and ERR_INFO 0x104. -/
theorem test_error_priority : nextWith (exec .aggSE { small with cfg := { smallCfg with ndisp := 0, baseAgg := 82 } })
    (fun t => t.readOffset 0x0C == 2#32 && t.readOffset 0x10 == 0x104#32) = true := by decide

/-! ### The handshake of V15 -/

/-- Rows 4 and 5: a CMD write and a DIM write while busy. -/
theorem test_drop_while_busy :
    nextWith (step (running 0 (.busWrite 0x04 .w32 3))) (fun t =>
      t.readOffset 0x08 == 9#32 && t.readOffset 0x04 == 0#32) = true ∧
    nextWith (step (running 0 (.busWrite 0x20 .w32 5))) (fun t => t.readOffset 0x20 == 0x00010003#32) = true := by
  decide

/-- Rows 3 and 9: acceptance clears DONE. -/
theorem test_accept :
    nextWith (step { hosting (.busWrite 0x04 .w32 3) with done := true }) (fun t =>
      t.readOffset 0x08 == 1#32 && t.readOffset 0x04 == 3#32) = true := by decide

/-- Rows 7 and 8: W1C of CMD_LOST leaves DONE and IRQ. -/
theorem test_clear_lost :
    nextWith (step { hosting (.busWrite 0x08 .w32 8) with done := true, cmdLost := true, intEn := 7 }) (fun t =>
      t.readOffset 0x08 == 2#32 && t.irq) = true := by decide

/-- R253: a byte access to the window is a bus error. -/
theorem test_bus_error : (match step (hosting (.busRead 0x08 .w8)) with
    | .fault .busError => true
    | _ => false) = true := by decide

/-- A read of ID. -/
theorem test_read_id :
    nextWith (step (hosting (.busRead 0 .w32))) (fun t => t.replies == [0x53474D07#64]) = true := by decide

/-! ### Witnesses: for each obligation with hypotheses, states and operands that meet them together -/

/-- Whether an outcome is one fault. -/
def stopsWith (o : Host.Outcome State Fault Refusal) (f : Fault) : Bool :=
  match o with
  | .next _ => false
  | .fault g => f == g
  | .refused _ => false

theorem stopsWith_eq {o : Host.Outcome State Fault Refusal} {f : Fault} (h : stopsWith o f = true) : o = .fault f := by
  cases o <;> simp_all [stopsWith]

theorem nextWith_eq {o : Host.Outcome State Fault Refusal} {p : State → Bool} (h : nextWith o p = true) :
    ∃ t, o = .next t ∧ p t = true := by
  cases o <;> simp_all [nextWith]

/-- `small` on a platform with one hole, the last byte of OUT. -/
def holed : State := { small with platform := ⟨0, [⟨22, 1⟩]⟩ }

/-- `small` with other registers. -/
def withCfg (c : ConfigRegs) : State := { small with cfg := c }

/-- `holed` with MEDIAN accepted and LATENCY passed. -/
def stuck (inputs : List Input) : State := { holed with busy := true, curCmd := 0x22, inputs := inputs }

/-- `small` with only SCALED written and a word accepted, to be performed next. -/
def accepted (v : Word) : State := { small with busy := true, curCmd := v, mem := cells 16 [10, 200, 10] }

theorem test_hyps_DecodeAndEncodeAgree :
    Instr.run.wellFormed = true ∧ decode 0x30#32 = .ok .run := by decide

theorem test_hyps_CommandWordsDecodeAsListed : Direction.e ∈ Direction.all ∧ Direction.ne ∈ Direction.all := by decide

/-- Clause 1 with a command that completes, clauses 2 and 3 with a stuck one. -/
theorem test_hyps_StepPerformsTheAcceptedCommand :
    (CoreActs (accepted 0x22) ∧ decode (accepted 0x22).curCmd = .ok .median ∧
      nextWith (exec .median (accepted 0x22)) (fun _ => true) = true) ∧
    (CoreActs (stuck []) ∧ decode (stuck []).curCmd = .ok .median ∧
      stopsWith (exec .median (stuck [])) .coreStuck = true) ∧
    CoreActs (stuck [.pollIdle]) ∧ decode (stuck [.pollIdle]).curCmd = .ok .median ∧
      stopsWith (exec .median (stuck [.pollIdle])) .coreStuck = true ∧ (stuck [.pollIdle]).inputs ≠ [] := by
  decide +kernel

/-- The lowest and highest reserved bit, and the opcodes next to the defined ones. -/
theorem test_hyps_IllegalWordIsRejected :
    (∀ v : Word, CoreActs (accepted v) ∧ (accepted v).curCmd = v) ∧
    (∀ v ∈ [0x100#32, 0x80000000#32], v.toNat / 256 ≠ 0) ∧
    ∀ v ∈ [0x04#32, 0x0F#32, 0x19#32, 0x1F#32, 0x23#32, 0x2F#32, 0x31#32, 0xFF#32], v.toNat % 256 ∉
      [0x00, 0x01, 0x02, 0x03, 0x10, 0x11, 0x12, 0x13, 0x14, 0x15, 0x16, 0x17, 0x18, 0x20, 0x21, 0x22, 0x30] :=
  ⟨fun _ => ⟨⟨rfl, .inl rfl⟩, rfl⟩, by simp, by simp⟩

/-- While idle, while busy with LATENCY to come, while the core is stuck, and with nothing to do. -/
theorem test_hyps_HostActsWhenTheCoreDoesNot :
    HostActs (hosting .reset) .reset [] ∧ HostActs (running 3 .pollIdle) .pollIdle [] ∧
    HostActs (stuck [.pollIdle]) .pollIdle [] ∧ (stuck [.pollIdle]).latencyLeft = 0 ∧
    small.busy = false ∧ small.inputs = [] := by decide +kernel

theorem test_hyps_NoStepChangesThePlatform : ∃ t, step (accepted 0x22) = .next t :=
  (nextWith_eq (p := fun _ => true) (by decide +kernel)).imp fun _ h => h.1

/-- A core step and a host step from states that meet the invariant. -/
theorem test_hyps_EveryStepKeepsTheInvariant :
    (Inv (accepted 0x22) ∧ ∃ t, step (accepted 0x22) = .next t) ∧
    Inv { costed with inputs := [.reset] } ∧ ∃ t, step { costed with inputs := [.reset] } = .next t :=
  ⟨⟨by decide +kernel, (nextWith_eq (p := fun _ => true) (by decide +kernel)).imp fun _ h => h.1⟩,
    by decide +kernel, _, rfl⟩

theorem test_hyps_ResetLeavesTheResetValues : Instr.run ≠ .nop ∧ Instr.censusL ≠ .nop := by decide

/-- The ends of the reserved ranges, and a word that differs in reserved bits only. -/
theorem test_hyps_ReservedOffsetsAndBitsAreRazWi :
    (∀ off ∈ [0x18, 0x3C, 0x64, 0xFC], off ∈ [0x18, 0x1C, 0x38, 0x3C] ++ (List.range 39).map (fun n => 0x64 + 4 * n)) ∧
    ((0x08, 4) ∈ [(0x28, 16), (0x2C, 16), (0x30, 16), (0x34, 24), (0x14, 3), (0x08, 4)] ∧ 4 ≤ 31 ∧
      ∀ n < 4, (0xFFFFFFF5#32).getLsbD n = (0x5#32).getLsbD n) := by decide

theorem test_hyps_ConfigurationWriteReadsBack :
    small.busy = false ∧ ((0x34, 24) : Nat × Nat) ∈ [(0x20, 32), (0x24, 32), (0x28, 16), (0x2C, 16), (0x30, 16), (0x34, 24), (0x40, 32),
      (0x44, 32), (0x48, 32), (0x4C, 32), (0x50, 32), (0x54, 32), (0x58, 32), (0x5C, 32), (0x60, 32)] ∧ (0x30 : Nat) ≠ 0x34 := by
  decide

/-- The CMD write of RUN. -/
def writeRun : Input := .busWrite (small.platform.regBase + 4) .w32 ((0x30 : Word).setWidth 64)

theorem test_hyps_CmdWriteIsAcceptedOrDropped :
    HostActs (hosting writeRun) writeRun [] ∧ (hosting writeRun).busy = false ∧
    HostActs (running 3 writeRun) writeRun [] ∧ (running 3 writeRun).busy = true := by decide

theorem test_hyps_ConfigurationIsFixedWhileBusy :
    (accepted 3).busy = true ∧ Input.busWrite 0x20 .w32 5 ≠ .reset ∧
    (∃ t, hostAct (.busWrite 0x20 .w32 5) (accepted 3) = .next t) ∧ (0x8#32).getLsbD 3 = true :=
  ⟨rfl, by decide, ⟨_, rfl⟩, by decide⟩

/-- Wrong widths at both ends of the window, a misaligned word, a word and a double word that reach into it from below. -/
theorem test_hyps_BrokenRegisterAccessIsABusError :
    ∀ p ∈ [(16, Width.w8), (271, .w8), (16, .w16), (270, .w16), (16, .w64), (264, .w64), (18, .w32), (271, .w32),
        (13, .w32), (9, .w64)],
      let s : State := { hosting (.busRead p.1 p.2) with platform := ⟨16, []⟩ }
      let t : State := { hosting (.busWrite p.1 p.2 7) with platform := ⟨16, []⟩ }
      p.1 < s.platform.regBase + 256 ∧ s.platform.regBase < p.1 + p.2.bytes ∧
      (p.2 ≠ .w32 ∨ p.1 < s.platform.regBase ∨ (p.1 - s.platform.regBase) % 4 ≠ 0) ∧
      HostActs s (.busRead p.1 p.2) [] ∧ HostActs t (.busWrite p.1 p.2 7) [] := by decide

/-- The first and the last offset, while idle and while busy, and a STATUS read. -/
theorem test_hyps_RegisterReadGivesTheWord :
    ∀ off ∈ [0x00, 0x08, 0xFC], off < 256 ∧ off % 4 = 0 ∧
      HostActs (hosting (.busRead (0 + off) .w32)) (.busRead (small.platform.regBase + off) .w32) [] ∧
      HostActs (running 3 (.busRead (0 + off) .w32)) (.busRead (small.platform.regBase + off) .w32) [] := by decide

/-- INT_EN and the first and the last offset, while idle and while busy. -/
theorem test_hyps_RegisterWriteReachesTheRegister :
    ∀ off ∈ [0x00, 0x14, 0xFC], off < 256 ∧ off % 4 = 0 ∧
      HostActs (hosting (.busWrite (0 + off) .w32 7)) (.busWrite (small.platform.regBase + off) .w32 7) [] ∧
      HostActs (running 3 (.busWrite (0 + off) .w32 7)) (.busWrite (small.platform.regBase + off) .w32 7) [] := by decide

/-- A host write of INT_EN on the bus is read back, and the bits above its field are not. -/
theorem test_bus_write_intEn :
    nextWith (step (hosting (.busWrite 0x14 .w32 0xFD))) (fun t => t.readOffset 0x14 == 5#32) = true := by decide

theorem test_hyps_WaitPollsUntilIdle :
    HostActs (hosting .pollIdle) .pollIdle [] ∧ HostActs (running 3 .pollIdle) .pollIdle [] := by decide

/-- With one enable each: a completion with DONE_IE, a rejection with ERR_IE, also of an illegal word, and a CMD write that is
dropped with LOST_IE. -/
theorem test_hyps_IrqFollowsStatusAndEnables :
    (∃ t, exec .median { small with intEn := 1 } = .next t ∧ (!t.err && t.done && t.intEn.getLsbD 0) = true) ∧
    (∃ t, exec .run { State.reset with intEn := 2 } = .next t ∧ (t.err && t.intEn.getLsbD 1) = true) ∧
    (∃ t, coreStep { accepted 0x04 with intEn := 2 } = .next t ∧ (t.err && t.intEn.getLsbD 1) = true) ∧
    (fun s : State => s.busy = true ∧ s.intEn.getLsbD 2 = true ∧
        HostActs s (.busWrite (s.platform.regBase + 4) .w32 ((0x30 : Word).setWidth 64)) [])
      { running 3 writeRun with intEn := 4 } :=
  ⟨nextWith_eq (by decide +kernel), nextWith_eq (by decide +kernel), nextWith_eq (by decide +kernel), by decide⟩

/-- A host that writes an element and reads it back, the core idle or busy with CENSUS_L for `latency` more host steps. -/
def writeRead (busy : Bool) (latency : Nat) (addr : Word) (w : Width) : State :=
  { small with busy := busy, curCmd := 1, latencyLeft := latency, inputs := [.memWrite addr w 9, .memRead addr w] }

/-- While idle at the first and the last address of the data space, and while busy right after IMG_L, right before CEN_L and
right after it: both accesses of the write and the read are the host's, over backed bytes that no running command uses. -/
theorem test_hyps_HostWriteThenReadGivesTheValue :
    (∀ p ∈ [(0#32, Width.w8), (3#32, .w32), (0xFFFFFFFF#32, .w8), (0xFFFFFFF8#32, .w64)],
      (fun s : State => HostActs s (.memWrite p.1 p.2 9) [.memRead p.1 p.2] ∧ AccessBacked s p.1 p.2 ∧ s.busy = false ∧
          s.unseen = [] ∧ nextWith (step s) (fun t => decide (HostActs t (.memRead p.1 p.2) [])) = true)
        (writeRead false 0 p.1 p.2)) ∧
    ∀ p ∈ [(3#32, Width.w8), (24#32, .w64), (56#32, .w8)],
      (fun s : State => HostActs s (.memWrite p.1 p.2 9) [.memRead p.1 p.2] ∧ AccessBacked s p.1 p.2 ∧ s.busy = true ∧
          decode s.curCmd = .ok .censusL ∧ (∀ b ∈ Instr.used .censusL, ¬AccessTouches s.cfg p.1 p.2 b) ∧
          s.unseen = [] ∧ nextWith (step s) (fun t => decide (HostActs t (.memRead p.1 p.2) [])) = true)
        (writeRead true 2 p.1 p.2) := by decide +kernel

/-- For the read alone, while busy and with an output unseen: the three bytes of SCALED, whose value R62 gives, beside an
unseen OUT. -/
theorem test_hyps_HostReadGivesTheValue :
    (fun s : State => HostActs s (.memRead 16#32 .w16) [] ∧ AccessBacked s 16#32 .w16 ∧ s.busy = true ∧
        decode s.curCmd = .ok .censusL ∧ (∀ b ∈ Instr.used .censusL, ¬AccessTouches s.cfg 16#32 .w16 b) ∧
        (∀ r ∈ s.unseen, ¬AccessMeets 16#32 .w16 r) ∧ 10 + 200 * 256 < 2 ^ (8 * Width.w16.bytes) ∧
        ∀ o < Width.w16.bytes, Memory.byte? s.mem ((16#32).toNat + o) =
          some (BitVec.ofNat 8 ((10 + 200 * 256) / 2 ^ (8 * o))))
      { running 1 (.memRead 16#32 .w16) with unseen := [⟨20, 3⟩] } := by decide +kernel

/-- The first byte of IMG_L, its last byte (the access starts there), the first of CEN_L (the access ends there) and its last,
while CENSUS_L runs; and OUT, of which a byte has no memory, while the core is stuck. -/
theorem test_hyps_TouchingARunningBufferIsAHostRace :
    (∀ p ∈ [(0#32, Width.w8, Buffer.imgL), (2#32, .w16, .imgL), (25#32, .w64, .cenL), (55#32, .w8, .cenL)],
      let s := running 1 (.memRead p.1 p.2.1)
      let t := running 1 (.memWrite p.1 p.2.1 9)
      s.busy = true ∧ decode s.curCmd = .ok .censusL ∧ p.2.2 ∈ Instr.used .censusL ∧
      AccessTouches s.cfg p.1 p.2.1 p.2.2 ∧ HostActs s (.memRead p.1 p.2.1) [] ∧
      t.busy = true ∧ t.curCmd = s.curCmd ∧ t.cfg = s.cfg ∧
      HostActs t (.memWrite p.1 p.2.1 9) []) ∧
    ∀ a ∈ [20, 22],
      (fun s t : State => s.busy = true ∧ decode s.curCmd = .ok .median ∧ Buffer.out ∈ Instr.used .median ∧
          AccessTouches s.cfg (BitVec.ofNat 32 a) .w8 .out ∧ HostActs s (.memRead (BitVec.ofNat 32 a) .w8) [] ∧
          t.busy = true ∧ t.curCmd = s.curCmd ∧ t.cfg = s.cfg ∧ HostActs t (.memWrite (BitVec.ofNat 32 a) .w8 9) [])
        (stuck [.memRead (BitVec.ofNat 32 a) .w8]) (stuck [.memWrite (BitVec.ofNat 32 a) .w8 9]) := by decide +kernel

/-- Byte 3, between IMG_L and IMG_R, is not written: while idle, and while MEDIAN runs with an OUT unseen. -/
theorem test_hyps_HostReadOfUnwrittenByteFaults :
    (∀ p ∈ [(3#32, Width.w8), (0#32, .w32), (0xFFFFFFFF#32, .w8)],
      (fun s : State => HostActs s (.memRead p.1 p.2) [] ∧ AccessBacked s p.1 p.2 ∧ s.busy = false ∧ s.unseen = [] ∧
          ∃ o < p.2.bytes, Memory.byte? s.mem (p.1.toNat + o) = none)
        (hosting (.memRead p.1 p.2))) ∧
    (fun s : State => HostActs s (.memRead 3#32 .w8) [] ∧ AccessBacked s 3#32 .w8 ∧ s.busy = true ∧
        decode s.curCmd = .ok .median ∧ (∀ b ∈ Instr.used .median, ¬AccessTouches s.cfg 3#32 .w8 b) ∧
        (∀ r ∈ s.unseen, ¬AccessMeets 3#32 .w8 r) ∧ ∃ o < Width.w8.bytes, Memory.byte? s.mem ((3#32).toNat + o) = none)
      { running 0x22 (.memRead 3#32 .w8) with unseen := [⟨20, 3⟩] } := by decide +kernel

/-- The host still to do one input, with OUT unseen and other flags. -/
def unseeing (input : Input) (done err : Bool) (intEn : BitVec 3) : State :=
  { hosting input with done := done, err := err, intEn := intEn, unseen := [⟨20, 3⟩] }

/-- A read of the first and of the last byte of an unseen OUT, IRQ down and IRQ up for DONE; STATUS reads and IRQ samples that
show the completion; and inputs that do not: a STATUS read with ERR, an IRQ sample with a second enable, a read of ID. -/
theorem test_hyps_OutputsAreReadOnlyAfterDoneIsSeen :
    (∀ a ∈ [20, 22], ∀ e ∈ [0#3, 1#3],
      (fun s : State => HostActs s (.memRead (BitVec.ofNat 32 a) .w8) [] ∧ s.busy = false ∧
          (⟨20, 3⟩ : Region) ∈ s.unseen ∧ AccessMeets (BitVec.ofNat 32 a) .w8 ⟨20, 3⟩)
        (unseeing (.memRead (BitVec.ofNat 32 a) .w8) true false e)) ∧
    (∀ p ∈ [(Input.busRead 8 .w32, true, 0#3), (.busRead 8 .w32, false, 0#3), (.pollIdle, true, 0#3), (.readIrq, true, 1#3)],
      HostActs (unseeing p.1 p.2.1 false p.2.2) p.1 [] ∧ ShowsCompletion (unseeing p.1 p.2.1 false p.2.2) p.1) ∧
    ∀ p ∈ [(Input.busRead 8 .w32, false, true, 0#3), (.readIrq, true, false, 3#3), (.readIrq, false, true, 2#3),
        (.busRead 0 .w32, true, false, 1#3)],
      (fun s : State => HostActs s p.1 [] ∧ ¬ShowsCompletion s p.1 ∧ nextWith (step s) (fun _ => true) = true)
        (unseeing p.1 p.2.1 p.2.2.1 p.2.2.2) := by decide +kernel

/-- R294 and R257: with IRQ up for DONE but not sampled the output read faults, and so it does after a sample that another
enable could explain; after a sample with DONE_IE alone it goes through. -/
theorem test_irq_shows_completion :
    stopsWith (step (unseeing (.memRead 20 .w8) true false 1)) .earlyRead = true ∧
    nextWith (step (unseeing .readIrq true false 3)) (fun t => t.unseen == [⟨20, 3⟩] && t.replies == [1#64]) = true ∧
    nextWith (step (unseeing .readIrq true false 1)) (fun t => t.unseen == [] && t.replies == [1#64]) = true ∧
    nextWith (step (unseeing .readIrq false false 1)) (fun t => t.unseen == [⟨20, 3⟩] && t.replies == [0#64]) = true := by
  decide

/-- While idle, abandoning MEDIAN, and abandoning a stuck MEDIAN: the first and the last backed byte of OUT, and a byte of
another buffer. -/
theorem test_hyps_ResetInputRestoresRegistersAndKeepsMemory :
    (HostActs (hosting .reset) .reset [] ∧ (hosting .reset).busy = false) ∧
    (∀ b ∈ Instr.writes .median, ¬(smallCfg.base b ≤ 19 ∧ 19 < smallCfg.base b + smallCfg.size b)) ∧
    ∀ p ∈ [(running 0x22 .reset, 22), (stuck [.reset], 21)],
      HostActs p.1 .reset [] ∧ p.1.busy = true ∧ decode p.1.curCmd = .ok .median ∧ Buffer.out ∈ Instr.writes .median ∧
      ∀ a ∈ [20, p.2], p.1.platform.backs a = true ∧ p.1.cfg.base .out ≤ a ∧ a < p.1.cfg.base .out + p.1.cfg.size .out := by
  decide +kernel

/-- One configuration for each check, each at its boundary. -/
def badCfgs : List ConfigRegs :=
  [{ smallCfg with dimR := 0x00010004 }, { smallCfg with dim := 0x00000003, dimR := 0x00000003 },
   { smallCfg with ndisp := 0 }, { smallCfg with kernel := 0x030203 }, { smallCfg with kernel := 0x03050D },
   { smallCfg with p1 := 5 }, { smallCfg with kernel := 0x020103 }, { smallCfg with baseCenL := 33 },
   { smallCfg with baseCenL := 0xFFFFFFF0 }, { smallCfg with baseImgL := 30 }]

/-- CENSUS_L fails each parameter and each buffer check. -/
theorem test_hyps_RejectionIsPrecise :
    ∀ c ∈ badCfgs, Instr.censusL ≠ .nop ∧
      ¬(ParametersLegal c ∧ BuffersLegal .censusL c) := by decide +kernel

/-- Each of the ten checks is the one that fails, and a configuration that fails several. -/
theorem test_hyps_EveryFailedCheckIsRecorded :
    (∀ c ∈ badCfgs ++ [ConfigRegs.zero], Instr.run ≠ .nop ∧
      ¬(ParametersLegal c ∧ BuffersLegal .run c)) ∧
    (badCfgs.map fun c => (checkEntry .censusL c).word) =
      [0x001#32, 0x002#32, 0x004#32, 0x008#32, 0x010#32, 0x020#32, 0x040#32, 0x100#32, 0x200#32, 0x400#32] := by
  decide +kernel

/-- CEN_L one byte off its alignment, CEN_L ending past 2^32 (at 2^32 it would be legal), IMG_L ending one byte into CEN_L. -/
theorem test_hyps_BadBuffersAreAddressErrors :
    (Instr.censusL ≠ .nop ∧ Buffer.cenL ∈ Instr.used .censusL ∧ Buffer.imgL ∈ Instr.used .censusL ∧
      Buffer.cenL ∈ Instr.writes .censusL ∧ Buffer.cenL ≠ .imgL) ∧
    (∀ c ∈ [{ smallCfg with baseCenL := 33 }],
      ParametersLegal c ∧ c.base .cenL % Buffer.cenL.elemBytes ≠ 0) ∧
    (∀ c ∈ [{ smallCfg with baseCenL := 0xFFFFFFF0 }],
      ParametersLegal c ∧ 2 ^ 32 < c.base .cenL + c.size .cenL) ∧
    ∀ c ∈ [{ smallCfg with baseImgL := 30 }],
      ParametersLegal c ∧ c.base .cenL < c.base .imgL + c.size .imgL ∧
      c.base .imgL < c.base .cenL + c.size .cenL := by decide +kernel

theorem test_hyps_UnbackedBufferLeavesTheCoreStuck :
    Instr.median ≠ .nop ∧ ParametersLegal holed.cfg ∧ BuffersLegal .median holed.cfg ∧ ¬BuffersBacked .median holed := by
  decide

/-- `small` with nothing written. -/
def blank : State := { small with mem := [] }

theorem test_hyps_CommandReadingUnwrittenElementFaults :
    (∀ i ∈ [Instr.censusL, .censusR, .cost, .aggAll, .select, .rescale, .median, .run] ++ Direction.all.map directionInstr,
      Legal i blank) ∧
    (¬CensusSamplesWritten blank.cfg blank.mem .imgL ∧ ¬CensusSamplesWritten blank.cfg blank.mem .imgR) ∧
    ¬DescriptorsWritten blank.cfg blank.mem ∧ ¬CostsWritten blank.cfg blank.mem ∧ ¬SlotsWritten blank.cfg blank.mem ∧
    ¬PixelsWritten blank.cfg blank.mem .disp ∧ ¬PixelsWritten blank.cfg blank.mem .scaled := by
  refine ⟨by decide +kernel, ⟨fun h => ?_, fun h => ?_⟩, by decide +kernel, by decide +kernel, by decide +kernel,
    by decide +kernel, by decide +kernel⟩ <;>
  exact absurd (h 0 (by decide) 1 (by decide) (by decide) 0 (by decide) 0 (by decide) (by decide)).1 (by decide)

theorem test_hyps_EveryCommandChangesOnlyItsOutputsAndStatus : ∃ t, exec .censusL small = .next t :=
  (nextWith_eq (p := fun _ => true) (by decide +kernel)).imp fun _ h => h.1

/-- A command that completes and one that is rejected. -/
theorem test_hyps_CommandEndsWithDoneOrErr :
    small.done = false ∧ small.err = false ∧
    (∃ t, exec .median small = .next t ∧ (t.done && !t.err) = true) ∧
    ∃ t, exec .run State.reset = .next t ∧ (t.err && !t.done) = true :=
  ⟨rfl, rfl, nextWith_eq (by decide +kernel), nextWith_eq (by decide +kernel)⟩

/-- CENSUS_L over the left image alone, and over one more byte. -/
theorem test_hyps_UnwrittenBytesInfluenceNoResult :
    (∃ t, exec .censusL { small with mem := cells 0 [3, 5, 4] } = .next t) ∧
    Extends (cells 0 [3, 5, 4]) (cells 0 [3, 5, 4, 9]) := by
  refine ⟨(nextWith_eq (p := fun _ => true) (by decide +kernel)).imp fun _ h => h.1, fun a b h => ?_⟩
  simp only [cells, List.zipIdx_cons, List.zipIdx_nil, List.map_cons, List.map_nil, Memory.byte?] at h ⊢
  repeat' split at h
  all_goals simp_all

theorem test_hyps_CensusLWritesLeftDescriptors :
    Legal .censusL imaged ∧ CensusSamplesWritten imaged.cfg imaged.mem .imgL :=
  ⟨by decide +kernel, censusSamplesWritten_of_pixels (by decide +kernel)⟩

theorem test_hyps_CensusRWritesRightDescriptors :
    Legal .censusR imaged ∧ CensusSamplesWritten imaged.cfg imaged.mem .imgR :=
  ⟨by decide +kernel, censusSamplesWritten_of_pixels (by decide +kernel)⟩

/-- f(v) = 2·v + 1 on a flat image of the brightest sample. -/
theorem test_hyps_CensusIsInvariantUnderMonotoneChange :
    (∀ a b : Nat, a ≤ 255 → b ≤ 255 → a < b → 2 * a + 1 < 2 * b + 1) ∧ ∀ y x : Nat, (y, x, 255).2.2 ≤ 255 :=
  ⟨fun _ _ _ _ h => by omega, fun _ _ => Nat.le_refl _⟩

theorem test_hyps_HammingCountsClearedBits :
    2 ^ 64 - 1 < 2 ^ 64 ∧ hamming (2 ^ 64 - 1) 0 = 64 ∧ hamming 0xF0 0x0F = 8 := by decide

theorem test_hyps_CostWritesTheHammingVolume :
    Legal .cost small ∧ DescriptorsWritten small.cfg small.mem := by decide +kernel

/-- A map of descriptors that are all 3. -/
def flatMap3 (_ _ : Nat) : Nat := 3

/-- `small` with descriptors 255 3 255 and 255 0 255. -/
def bounded : State :=
  { small with
    mem := cells 32 ((List.range 24).map fun i => if i = 8 then 3 else if i % 8 = 0 then 255 else 0) ++
      cells 56 ((List.range 24).map fun i => if i % 16 = 0 then 255 else 0) }

/-- N = 2 here: the one interior pixel's descriptors are 3 and 0, the border's are above 2^N; and over maps, the greatest
descriptor is 3, and against 0 it costs N. -/
theorem test_hyps_CostsOfDescriptorsAreAtMostN :
    (Legal .cost bounded ∧ DescriptorsWritten bounded.cfg bounded.mem ∧
      ∀ y < bounded.cfg.height, ∀ x < bounded.cfg.width, bounded.cfg.interior y x = true →
        bounded.cfg.pixel bounded.mem .cenL y x < 2 ^ descriptorBits bounded.cfg ∧
        bounded.cfg.pixel bounded.mem .cenR y x < 2 ^ descriptorBits bounded.cfg) ∧
    (∀ y x : Nat, flatMap3 y x < 2 ^ descriptorBits smallCfg) ∧ matchCost smallCfg flatMap3 (fun _ _ => 0) 0 1 1 = 2 :=
  ⟨⟨by decide +kernel, by decide +kernel, by decide +kernel⟩,
    fun _ _ => (by decide : 3 < 2 ^ descriptorBits smallCfg), by decide⟩

/-- `small` with CEN_R the same buffer as CEN_L (COST only reads them, R131). -/
def sameCensus : State := withCfg { smallCfg with baseCenR := 32 }

theorem test_hyps_IdenticalDescriptorsCostZeroAtDisparityZero :
    Legal .cost sameCensus ∧ DescriptorsWritten sameCensus.cfg sameCensus.mem ∧
    ∀ y < sameCensus.cfg.height, ∀ x < sameCensus.cfg.width,
      sameCensus.cfg.pixel sameCensus.mem .cenL y x = sameCensus.cfg.pixel sameCensus.mem .cenR y x := by decide +kernel

/-- Each direction, on a row and on a column. -/
theorem test_hyps_DirectionCommandsWritePathCosts :
    (∀ dir : Direction, Legal (directionInstr dir) costed ∧ Legal (directionInstr dir) column) ∧
    CostsWritten costed.cfg costed.mem ∧ CostsWritten column.cfg column.mem := by
  have h : Legal .aggE costed ∧ Legal .aggE column := by decide +kernel
  exact ⟨fun dir => by cases dir <;> exact h, by decide +kernel, by decide +kernel⟩

theorem test_hyps_AggAllWritesAllPathCosts : Legal .aggAll costed ∧ CostsWritten costed.cfg costed.mem :=
  ⟨(test_hyps_DirectionCommandsWritePathCosts.1 .e).1, test_hyps_DirectionCommandsWritePathCosts.2.1⟩

theorem test_hyps_AggAllEqualsTheDirectionsInAnyOrder :
    Memory.wf costed.mem ∧ Legal .aggAll costed ∧ CostsWritten costed.cfg costed.mem ∧
    Direction.all.reverse.Perm Direction.all :=
  ⟨by decide +kernel, test_hyps_AggAllWritesAllPathCosts.1, test_hyps_AggAllWritesAllPathCosts.2, List.reverse_perm _⟩

/-- The costs of V7, with a position i ≥ 1 and costs and P2 at their bounds too. -/
theorem test_hyps_PathCostsStayInRange :
    (∀ costs ∈ [[[0, 5], [5, 0], [5, 0]], [[255, 0], [0, 255]]], 1 ≤ 65535 ∧ 1 ≤ 2 ∧ (∀ c ∈ costs, c.length = 2) ∧
      1 < costs.length ∧ 1 < 2 ∧ 1 ≤ 1 ∧ (∀ c ∈ costs, ∀ v ∈ c, v ≤ 255) ∧ 65535 ≤ 65535) ∧
    entry (pathCost 1 4 [[0, 5], [5, 0], [5, 0]]) 1 1 = 1 := by decide

theorem test_hyps_GuardKeepsDifferencesAndArgmin :
    1 ≤ 2 ∧ (∀ c ∈ [[0, 5], [5, 0], [5, 0]], c.length = 2) ∧ 2 < [[0, 5], [5, 0], [5, 0]].length ∧
    plainPathCost 1 4 [[0, 5], [5, 0], [5, 0]] = [[0, 5], [5, 1], [7, 1]] := by decide

/-- At both ends of 0 .. D−1. -/
theorem test_hyps_InnerMinimumHasTheShortForm :
    ∀ d ∈ [0, 2], 1 ≤ 4 ∧ [0, 5, 7].length = [5, 0, 1].length ∧ d < [5, 0, 1].length := by decide

theorem test_hyps_SlicesPartitionTheImage :
    ∀ dir ∈ Direction.all, ∃ ps ∈ slices dir 3 3, 0 < ps.length ∧ 1 + 1 < ps.length := by decide

theorem test_hyps_SelectWritesTheLowestMinimum :
    Legal .select slotted ∧ SlotsWritten slotted.cfg slotted.mem := by decide +kernel

theorem test_hyps_RescaleWritesTheScaledIndex :
    Legal .rescale small ∧ PixelsWritten small.cfg small.mem .disp := by decide +kernel

theorem test_hyps_RescalingIsMonotoneAndBounded :
    (1 ≤ 65535 ∧ 0 ≤ 65535 ∧ 65534 < 65535) ∧ (1 ≤ 1 ∧ 0 < 1) ∧ rescale 65535 65535 = 255 := by decide

theorem test_hyps_MedianWritesTheMiddleSample :
    Legal .median small ∧ PixelsWritten small.cfg small.mem .scaled := by decide +kernel

theorem test_hyps_MedianCommutesWithMonotoneMaps :
    3 % 2 = 1 ∧ [10, 10, 20, 10, 10, 20, 50, 50, 60].length = 3 * 3 ∧ ∀ a b : Nat, a ≤ b → 2 * a ≤ 2 * b :=
  ⟨rfl, rfl, fun _ _ h => by omega⟩

theorem test_hyps_RunComputesTheWholePipeline :
    Legal .run imaged ∧ CensusSamplesWritten imaged.cfg imaged.mem .imgL ∧
    CensusSamplesWritten imaged.cfg imaged.mem .imgR :=
  ⟨by decide +kernel, test_hyps_CensusLWritesLeftDescriptors.2, test_hyps_CensusRWritesRightDescriptors.2⟩

theorem test_hyps_RunEqualsTheSevenCommands :
    Legal .run imaged ∧ CensusSamplesWritten imaged.cfg imaged.mem .imgL ∧
    CensusSamplesWritten imaged.cfg imaged.mem .imgR := test_hyps_RunComputesTheWholePipeline

theorem test_hyps_RunTwiceLeavesTheSameMemory :
    Memory.wf imaged.mem ∧ Legal .run imaged ∧ CensusSamplesWritten imaged.cfg imaged.mem .imgL ∧
    CensusSamplesWritten imaged.cfg imaged.mem .imgR := ⟨by decide +kernel, test_hyps_RunComputesTheWholePipeline⟩

theorem test_hyps_RunOnEqualImagesGivesDisparityZero :
    (Legal .run imaged ∧ CensusSamplesWritten imaged.cfg imaged.mem .imgL ∧ CensusSamplesWritten imaged.cfg imaged.mem .imgR) ∧
    ∀ y < imaged.cfg.height, ∀ x < imaged.cfg.width,
      imaged.cfg.pixel imaged.mem .imgL y x = imaged.cfg.pixel imaged.mem .imgR y x :=
  ⟨test_hyps_RunComputesTheWholePipeline, by decide +kernel⟩

end Sys2Proof.Tests
end

section
/-!
SUPPORT. What no agent's step changes: REG_BASE and MEM_MAP (00_scope.md R9).
-/

namespace Sys2Proof.Machine

open Sys2Proof

/-- A register write leaves REG_BASE and MEM_MAP (00_scope.md R9). -/
@[simp] theorem State.writeReg_platform (s : State) (r : Reg) (v : Word) :
    (s.writeReg r v).platform = s.platform := by
  have hconfig (r : Reg) : (s.writeConfig r v).platform = s.platform := by
    simp only [State.writeConfig]; split <;> rfl
  cases r with
  | cmd => simp only [State.writeReg, State.writeCmd]; split <;> rfl
  | id | errCode | errInfo | status | intEn => rfl
  | dim | dimR | ndisp | p1 | p2 | kernel | base => exact hconfig _

/-- A write to an offset of the window leaves REG_BASE and MEM_MAP (R9). -/
@[simp] theorem State.writeOffset_platform (s : State) (off : Nat) (v : Word) :
    (s.writeOffset off v).platform = s.platform := by
  simp only [State.writeOffset]
  split
  · exact s.writeReg_platform _ v
  · rfl

/-- A command leaves REG_BASE and MEM_MAP, whether it is rejected or completes (R9, R252, R288). -/
theorem exec_platform {i : Instr} {s t : State} (h : exec i s = .next t) : t.platform = s.platform := by
  obtain ⟨-, -, rfl⟩ | ⟨m, -, -, rfl⟩ := exec_next h <;> rfl

/-- The core's step leaves REG_BASE and MEM_MAP (R9). -/
theorem coreStep_platform {s t : State} (h : coreStep s = .next t) : t.platform = s.platform := by
  obtain ⟨i, -, hi⟩ | ⟨e, -, rfl⟩ := coreStep_next h
  · exact exec_platform hi
  · rfl

/-- What the host or the platform does leaves REG_BASE and MEM_MAP, reset among it (R9, R280). -/
theorem hostAct_platform {input : Input} {s t : State} (h : hostAct input s = .next t) :
    t.platform = s.platform := by
  cases input with
  | reset => cases h; rfl
  | busRead addr w =>
    obtain ⟨off, -, rfl⟩ := hostBusRead_next h
    rw [State.hostReadOffset_eq]
  | busWrite addr w v =>
    obtain ⟨off, -, rfl⟩ := hostBusWrite_next h
    exact s.writeOffset_platform off _
  | memRead addr w =>
    obtain ⟨-, -, -, rfl⟩ := hostMemRead_next h
    rfl
  | memWrite addr w v =>
    obtain ⟨-, -, rfl⟩ := hostMemWrite_next h
    rfl
  | pollIdle => cases h; rw [State.hostReadOffset_eq]
  | readIrq => cases h; rw [State.hostReadIrq_eq]

/-- A host step leaves REG_BASE and MEM_MAP (R9). -/
theorem hostStep_platform {s t : State} (h : hostStep s = .next t) : t.platform = s.platform := by
  obtain ⟨-, rfl⟩ | ⟨input, rest, -, hact⟩ := hostStep_next h
  · rfl
  · simpa using hostAct_platform hact

end Sys2Proof.Machine

namespace Sys2Proof.Proofs

open Sys2Proof Sys2Proof.Machine

/-- Settles O7: a step is the core's or the host's, and neither agent writes the platform. -/
theorem noStepChangesThePlatform : Obligations.NoStepChangesThePlatform := by
  intro s t h
  obtain ⟨-, hcore⟩ | hhost := step_next h
  · exact coreStep_platform hcore
  · exact hostStep_platform hhost

end Sys2Proof.Proofs
end

section
/-!
SUPPORT. The slices of a direction as sets of pixels (42_aggregate.md R153 to R157), and what a slice stores (R152).
-/

namespace Sys2Proof.Machine

open Sys2Proof

/-! ### Slices cover the image -/

/-- The SE slice of offset k holds the pixels of the image with x − y = k (R155). -/
theorem mem_diagonal {h w : Nat} {k : Int} {p : Nat × Nat} :
    p ∈ diagonal h w k ↔ p.1 < h ∧ p.2 < w ∧ (p.2 : Int) - p.1 = k := by
  obtain ⟨y, x⟩ := p
  simp only [diagonal, List.mem_map, List.mem_range, Prod.mk.injEq]
  constructor
  · rintro ⟨i, hi, rfl, rfl⟩
    omega
  · rintro ⟨hy, hx, hk⟩
    exact ⟨((y : Int) - max 0 (-k)).toNat, by omega, by omega, by omega⟩

/-- The NW slice of offset k holds the same pixels as the SE slice (R155). -/
theorem mem_diagonalBack {h w : Nat} {k : Int} {p : Nat × Nat} :
    p ∈ diagonalBack h w k ↔ p.1 < h ∧ p.2 < w ∧ (p.2 : Int) - p.1 = k := by
  obtain ⟨y, x⟩ := p
  simp only [diagonalBack, List.mem_map, List.mem_range, Prod.mk.injEq]
  constructor
  · rintro ⟨i, hi, rfl, rfl⟩
    omega
  · rintro ⟨hy, hx, hk⟩
    exact ⟨(min ((h : Int) - 1) ((w : Int) - 1 - k) - y).toNat, by omega, by omega, by omega⟩

/-- The SW slice of sum k holds the pixels of the image with x + y = k (R156). -/
theorem mem_antidiagonal {h w k : Nat} {p : Nat × Nat} :
    p ∈ antidiagonal h w k ↔ p.1 < h ∧ p.2 < w ∧ p.1 + p.2 = k := by
  obtain ⟨y, x⟩ := p
  simp only [antidiagonal, List.mem_map, List.mem_range, Prod.mk.injEq]
  constructor
  · rintro ⟨i, hi, rfl, rfl⟩
    omega
  · rintro ⟨hy, hx, hk⟩
    exact ⟨((y : Int) - max 0 ((k : Int) - ((w : Int) - 1))).toNat, by omega, by omega, by omega⟩

/-- The NE slice of sum k holds the same pixels as the SW slice (R156). -/
theorem mem_antidiagonalBack {h w k : Nat} {p : Nat × Nat} :
    p ∈ antidiagonalBack h w k ↔ p.1 < h ∧ p.2 < w ∧ p.1 + p.2 = k := by
  obtain ⟨y, x⟩ := p
  simp only [antidiagonalBack, List.mem_map, List.mem_range, Prod.mk.injEq]
  constructor
  · rintro ⟨i, hi, rfl, rfl⟩
    omega
  · rintro ⟨hy, hx, hk⟩
    exact ⟨(min ((h : Int) - 1) (k : Int) - y).toNat, by omega, by omega, by omega⟩

/-- The diagonal offsets are −(H−1) to W−1 (R155). -/
theorem mem_diagonalOffsets {h w : Nat} {k : Int} :
    k ∈ diagonalOffsets h w ↔ -((h : Int) - 1) ≤ k ∧ k < w ∧ 1 ≤ h + w := by
  simp only [diagonalOffsets, List.mem_map, List.mem_range]
  constructor
  · rintro ⟨t, ht, rfl⟩
    omega
  · rintro ⟨h1, h2, h3⟩
    exact ⟨(k + ((h : Int) - 1)).toNat, by omega, by omega⟩

/-- The slices of every direction hold the pixels of the image and no others (R157). -/
theorem mem_slices {dir : Direction} {h w : Nat} {p : Nat × Nat} :
    (∃ ps ∈ slices dir h w, p ∈ ps) ↔ p.1 < h ∧ p.2 < w := by
  obtain ⟨y, x⟩ := p
  cases dir with
  | e => simp [slices]
  | s => simp [slices, and_comm]
  | w =>
    simp only [slices, List.mem_map, List.mem_range, exists_exists_and_eq_and, Prod.mk.injEq]
    exact ⟨fun ⟨_, hy, i, hi, h1, h2⟩ => by omega, fun ⟨hy, hx⟩ => ⟨y, hy, w - 1 - x, by omega, rfl, by omega⟩⟩
  | n =>
    simp only [slices, List.mem_map, List.mem_range, exists_exists_and_eq_and, Prod.mk.injEq]
    exact ⟨fun ⟨_, hy, i, hi, h1, h2⟩ => by omega, fun ⟨hy, hx⟩ => ⟨x, hx, h - 1 - y, by omega, by omega, rfl⟩⟩
  | se =>
    simp only [slices, List.mem_map, exists_exists_and_eq_and, mem_diagonal, mem_diagonalOffsets]
    exact ⟨fun ⟨_, _, hy, hx, _⟩ => ⟨hy, hx⟩, fun ⟨hy, hx⟩ => ⟨(x : Int) - y, by omega, hy, hx, rfl⟩⟩
  | nw =>
    simp only [slices, List.mem_map, exists_exists_and_eq_and, mem_diagonalBack, mem_diagonalOffsets]
    exact ⟨fun ⟨_, _, hy, hx, _⟩ => ⟨hy, hx⟩, fun ⟨hy, hx⟩ => ⟨(x : Int) - y, by omega, hy, hx, rfl⟩⟩
  | sw =>
    simp only [slices, List.mem_map, List.mem_range, exists_exists_and_eq_and, mem_antidiagonal]
    exact ⟨fun ⟨_, _, hy, hx, _⟩ => ⟨hy, hx⟩, fun ⟨hy, hx⟩ => ⟨y + x, by omega, hy, hx, rfl⟩⟩
  | ne =>
    simp only [slices, List.mem_map, List.mem_range, exists_exists_and_eq_and, mem_antidiagonalBack]
    exact ⟨fun ⟨_, _, hy, hx, _⟩ => ⟨hy, hx⟩, fun ⟨hy, hx⟩ => ⟨y + x, by omega, hy, hx, rfl⟩⟩

/-! ### Path costs -/

/-- A step of the recurrence gives a path cost for each cost (R151). -/
@[simp] theorem length_nextPath (p1 p2 : Nat) (prev cost : List Nat) :
    (nextPath p1 p2 prev cost).length = cost.length := by
  simp [nextPath]

/-- The recurrence gives one vector for each cost vector, of the same length (R151). -/
theorem map_length_pathFrom (p1 p2 : Nat) (prev : List Nat) (costs : List (List Nat)) :
    (pathFrom p1 p2 prev costs).map List.length = costs.map List.length := by
  induction costs generalizing prev with
  | nil => rfl
  | cons cost rest ih => simp [pathFrom, ih]

/-- PathCost gives one vector for each cost vector, of the same length (R151). -/
theorem map_length_pathCost (p1 p2 : Nat) (costs : List (List Nat)) :
    (pathCost p1 p2 costs).map List.length = costs.map List.length := by
  cases costs with
  | nil => rfl
  | cons cost rest => simp [pathCost, map_length_pathFrom]

/-- The path costs of a slice's pixels, one vector a pixel in path order (R152). -/
def slicePaths (c : ConfigRegs) (m : Memory) (ps : List (Nat × Nat)) : List (List Nat) :=
  pathCost c.penalty1 c.penalty2 (ps.map (costVector c m))

/-- A slice has a vector of path costs for each of its pixels. -/
@[simp] theorem length_slicePaths (c : ConfigRegs) (m : Memory) (ps : List (Nat × Nat)) :
    (slicePaths c m ps).length = ps.length := by
  simpa [slicePaths] using congrArg List.length (map_length_pathCost c.penalty1 c.penalty2 (ps.map (costVector c m)))

/-- Every vector of a slice's path costs holds D of them. -/
theorem length_of_mem_slicePaths {c : ConfigRegs} {m : Memory} {ps : List (Nat × Nat)} {l : List Nat}
    (h : l ∈ slicePaths c m ps) : l.length = c.disparities := by
  have hmem : l.length ∈ (ps.map (costVector c m)).map List.length := by
    rw [← map_length_pathCost c.penalty1 c.penalty2]
    exact List.mem_map_of_mem h
  obtain ⟨v, hv, hlen⟩ := List.mem_map.1 hmem
  obtain ⟨p, -, rfl⟩ := List.mem_map.1 hv
  simpa [costVector] using hlen.symm

/-- The stores of a slice: one for each pixel of it and each disparity, of the pixel's path cost, into slot k (R152). -/
theorem mem_sliceStores {c : ConfigRegs} {m : Memory} {k : Nat} {ps : List (Nat × Nat)} {st : Store} :
    st ∈ sliceStores c m k ps ↔
      ∃ i p d, ps[i]? = some p ∧ d < c.disparities ∧
        st = ⟨c.aggAddr p.1 p.2 d k, 4, entry (slicePaths c m ps) i d⟩ := by
  have hzip : sliceStores c m k ps = (ps.zip (slicePaths c m ps)).flatMap fun q =>
      q.2.zipIdx.map fun e => ⟨c.aggAddr q.1.1 q.1.2 e.2 k, 4, e.1⟩ := rfl
  simp only [hzip, List.mem_flatMap, List.mem_map]
  constructor
  · rintro ⟨⟨p, l⟩, hpl, ⟨v, d⟩, hvd, rfl⟩
    obtain ⟨i, hi⟩ := List.mem_iff_getElem?.1 hpl
    obtain ⟨hp, hl⟩ := List.getElem?_zip_eq_some.1 hi
    have hv : l[d]? = some v := List.mk_mem_zipIdx_iff_getElem?.1 hvd
    have hd : d < l.length := (List.getElem?_eq_some_iff.1 hv).1
    rw [length_of_mem_slicePaths (List.mem_of_getElem? hl)] at hd
    exact ⟨i, p, d, hp, hd, by simp [entry, hl, hv]⟩
  · rintro ⟨i, p, d, hp, hd, rfl⟩
    have hi : i < (slicePaths c m ps).length := by
      simpa using (List.getElem?_eq_some_iff.1 hp).1
    have hl := List.getElem?_eq_getElem hi
    have hd' : d < (slicePaths c m ps)[i].length := by
      rwa [length_of_mem_slicePaths (List.getElem_mem hi)]
    have hv := List.getElem?_eq_getElem hd'
    exact ⟨(p, (slicePaths c m ps)[i]), List.mem_of_getElem? (List.getElem?_zip_eq_some.2 ⟨hp, hl⟩),
      (_, d), List.mk_mem_zipIdx_iff_getElem?.2 hv, by simp [entry, hl, hv]⟩

end Sys2Proof.Machine
end

section
/-!
SUPPORT. What stores do to the data space as a whole, and stages: bodies that read some buffers and fill another. A list of
stages none of which undoes another leaves the same data space when it is run again (00_scope.md R18).
-/

namespace Sys2Proof.Machine

open Sys2Proof

/-! ### Stores -/

/-- A store covers a byte address. -/
abbrev Store.covers (st : Store) (a : Nat) : Prop := st.addr ≤ a ∧ a < st.addr + st.bytes

/-- A byte that some store covers reads the same after the stores, whatever the data space was before them. -/
theorem Memory.byte?_storeAll_of_covered {m m' : Memory} {l : List Store} {a : Nat}
    (h : ∃ st ∈ l, st.covers a) :
    Memory.byte? (Memory.storeAll m l) a = Memory.byte? (Memory.storeAll m' l) a := by
  induction l generalizing m m' with
  | nil => obtain ⟨st, hst, -⟩ := h; cases hst
  | cons st rest ih =>
    rw [Memory.storeAll_cons, Memory.storeAll_cons]
    by_cases hrest : ∃ q ∈ rest, q.covers a
    · exact ih hrest
    · have hout : ∀ q ∈ rest, ¬q.covers a := fun q hq hc => hrest ⟨q, hq, hc⟩
      have hst : st.covers a := by
        obtain ⟨q, hq, hc⟩ := h
        obtain rfl | hq := List.mem_cons.1 hq
        · exact hc
        · exact absurd hc (hout q hq)
      rw [Memory.byte?_storeAll_outside hout, Memory.byte?_storeAll_outside hout, Memory.byte?_memWrite,
        Memory.byte?_memWrite, if_pos hst, if_pos hst]

/-- Stores whose bytes the data space already holds leave it as it is. -/
theorem Memory.storeAll_of_held {m m' : Memory} {l : List Store} (hwf : Memory.wf m)
    (h : ∀ a, (∃ st ∈ l, st.covers a) → Memory.byte? m a = Memory.byte? (Memory.storeAll m' l) a) :
    Memory.storeAll m l = m := by
  refine Memory.ext_of_wf (Memory.wf_storeAll hwf l) hwf fun a => ?_
  by_cases hcov : ∃ st ∈ l, st.covers a
  · rw [h a hcov]
    exact Memory.byte?_storeAll_of_covered hcov
  · exact Memory.byte?_storeAll_outside fun st hst hc => hcov ⟨st, hst, hc⟩

/-- Every byte written in `m` is written in `m'`, with whatever value. -/
def KeepsWritten (m m' : Memory) : Prop :=
  ∀ a, (Memory.byte? m a).isSome = true → (Memory.byte? m' a).isSome = true

/-- Keeping written bytes is transitive. -/
theorem KeepsWritten.trans {m m' m'' : Memory} (h : KeepsWritten m m') (h' : KeepsWritten m' m'') :
    KeepsWritten m m'' := fun a ha => h' a (h a ha)

/-- An element stays written as bytes do. -/
theorem KeepsWritten.written {m m' : Memory} (h : KeepsWritten m m') {addr n : Nat}
    (hw : Memory.written m addr n = true) : Memory.written m' addr n = true :=
  Memory.written_iff.2 fun i hi => h _ (Memory.written_iff.1 hw i hi)

/-- MemWrite makes no written byte unwritten (R61). -/
theorem keepsWritten_memWrite (m : Memory) (addr n v : Nat) : KeepsWritten m (Memory.memWrite m addr n v) := by
  intro a ha
  rw [Memory.byte?_memWrite]
  split
  · rfl
  · exact ha

/-- Stores make no written byte unwritten. -/
theorem keepsWritten_storeAll (m : Memory) (l : List Store) : KeepsWritten m (Memory.storeAll m l) := by
  induction l generalizing m with
  | nil => exact fun _ h => h
  | cons st rest ih => exact (keepsWritten_memWrite m st.addr st.bytes st.value).trans (ih _)

/-- After the stores each stored element is written. -/
theorem Memory.written_storeAll {m : Memory} {l : List Store} {st : Store} (h : st ∈ l) :
    Memory.written (Memory.storeAll m l) st.addr st.bytes = true := by
  induction l generalizing m with
  | nil => cases h
  | cons q rest ih =>
    obtain rfl | h := List.mem_cons.1 h
    · exact (keepsWritten_storeAll _ rest).written (Memory.written_memWrite_self m st.addr st.bytes st.value)
    · exact ih h

/-! ### Buffers that two data spaces hold alike -/

/-- The two data spaces read the same at every byte of the buffer. -/
def SameBuffer (c : ConfigRegs) (b : Buffer) (m m' : Memory) : Prop :=
  ∀ a, c.base b ≤ a → a < c.base b + c.size b → Memory.byte? m a = Memory.byte? m' a

/-- Elements inside the buffer read the same. -/
theorem SameBuffer.memRead {c : ConfigRegs} {b : Buffer} {m m' : Memory} (h : SameBuffer c b m m') {addr n : Nat}
    (hin : c.base b ≤ addr ∧ addr + n ≤ c.base b + c.size b) :
    Memory.memRead m addr n = Memory.memRead m' addr n :=
  Memory.memRead_congr fun i hi => h _ (by omega) (by omega)

/-- Elements inside the buffer are written alike. -/
theorem SameBuffer.written {c : ConfigRegs} {b : Buffer} {m m' : Memory} (h : SameBuffer c b m m') {addr n : Nat}
    (hin : c.base b ≤ addr ∧ addr + n ≤ c.base b + c.size b) :
    Memory.written m addr n = Memory.written m' addr n :=
  Memory.written_congr fun i hi => h _ (by omega) (by omega)

/-- A pixel's element reads the same in data spaces that hold its buffer alike. -/
theorem SameBuffer.pixel {c : ConfigRegs} {b : Buffer} {m m' : Memory} (h : SameBuffer c b m m')
    (hb : b.onePerPixel = true) {y x : Nat} (hy : y < c.height) (hx : x < c.width) :
    c.pixel m b y x = c.pixel m' b y x :=
  h.memRead (c.pixelAddr_in_region hb hy hx)

/-- A cost reads the same in data spaces that hold its buffer alike. -/
theorem SameBuffer.costAt {c : ConfigRegs} {m m' : Memory} (h : SameBuffer c .cost m m') {y x d : Nat}
    (hy : y < c.height) (hx : x < c.width) (hd : d < c.disparities) : c.costAt m y x d = c.costAt m' y x d :=
  h.memRead (c.costAddr_in_region hy hx hd)

/-- A slot's element reads the same in data spaces that hold its buffer alike. -/
theorem SameBuffer.aggAt {c : ConfigRegs} {m m' : Memory} (h : SameBuffer c .agg m m') {y x d k : Nat}
    (hy : y < c.height) (hx : x < c.width) (hd : d < c.disparities) (hk : k < 8) :
    c.aggAt m y x d k = c.aggAt m' y x d k :=
  h.memRead (c.aggAddr_in_region hy hx hd hk)

/-- The two buffers share no byte (the form of R251 in `BuffersLegal`). -/
def ConfigRegs.Apart (c : ConfigRegs) (a b : Buffer) : Prop :=
  c.base a + c.size a ≤ c.base b ∨ c.base b + c.size b ≤ c.base a

/-- A store lies inside a buffer. -/
def Store.Inside (c : ConfigRegs) (b : Buffer) (st : Store) : Prop :=
  c.base b ≤ st.addr ∧ st.addr + st.bytes ≤ c.base b + c.size b

/-- Stores into one buffer leave every buffer apart from it (R66). -/
theorem sameBuffer_storeAll {c : ConfigRegs} {a b : Buffer} {l : List Store} (h : ∀ st ∈ l, st.Inside c a)
    (hab : c.Apart a b) (m : Memory) : SameBuffer c b m (Memory.storeAll m l) := by
  intro x h1 h2
  refine (Memory.byte?_storeAll_outside fun st hst hc => ?_).symm
  obtain ⟨h3, h4⟩ := h st hst
  obtain ⟨h5, h6⟩ := hc
  obtain hab | hab := hab <;> omega

/-! ### Ready buffers -/

/-- The elements that a command reading the buffer needs are written: of an image the samples the census compares, of every
other buffer every element. -/
def Ready (c : ConfigRegs) (m : Memory) : Buffer → Prop
  | .imgL => CensusSamplesWritten c m .imgL
  | .imgR => CensusSamplesWritten c m .imgR
  | .cost => CostsWritten c m
  | .agg => SlotsWritten c m
  | b => PixelsWritten c m b

/-- A buffer with all its pixels written is ready. -/
theorem ready_of_pixelsWritten {c : ConfigRegs} {m : Memory} {b : Buffer} (hb : b.onePerPixel = true)
    (h : PixelsWritten c m b) : Ready c m b := by
  cases b with
  | imgL | imgR => exact censusSamplesWritten_of_pixels h
  | cost | agg => cases hb
  | cenL | cenR | disp | scaled | out => exact h

/-- A ready buffer stays ready while written bytes stay written. -/
theorem Ready.mono {c : ConfigRegs} {m m' : Memory} {b : Buffer} (h : Ready c m b) (hw : KeepsWritten m m') :
    Ready c m' b := by
  have himage {b : Buffer} (h : CensusSamplesWritten c m b) : CensusSamplesWritten c m' b :=
    fun y hy x hx hin i hi j hj hne => (h y hy x hx hin i hi j hj hne).imp hw.written hw.written
  have hpixels {b : Buffer} (h : PixelsWritten c m b) : PixelsWritten c m' b :=
    fun y hy x hx => hw.written (h y hy x hx)
  cases b with
  | imgL | imgR => exact himage h
  | cost => exact fun y hy x hx d hd => hw.written (h y hy x hx d hd)
  | agg => exact fun y hy x hx d hd k hk => hw.written (h y hy x hx d hd k hk)
  | cenL | cenR | disp | scaled | out => exact hpixels h

/-! ### Passes -/

/-- One stage of the pipeline: it reads the buffers `src`, and its stores fill the buffer `dst`. -/
structure Pass where
  src : List Buffer
  dst : Buffer
  readable : ConfigRegs → Memory → Bool
  stores : ConfigRegs → Memory → List Store

/-- The body of a stage. -/
def Pass.body (p : Pass) (c : ConfigRegs) (m : Memory) : Option Memory :=
  Memory.transform m (p.readable c m) (p.stores c m)

/-- The data space after the stage's stores. -/
def Pass.apply (p : Pass) (c : ConfigRegs) (m : Memory) : Memory := Memory.storeAll m (p.stores c m)

/-- The stage reads what `src` names and no more, and fills `dst` and nothing else (R66, R78). -/
structure Pass.Sound (p : Pass) (c : ConfigRegs) : Prop where
  readable_of_ready : ∀ m, (∀ b ∈ p.src, Ready c m b) → p.readable c m = true
  stores_congr : ∀ m m', (∀ b ∈ p.src, SameBuffer c b m m') → p.stores c m = p.stores c m'
  stores_inside : ∀ m, ∀ st ∈ p.stores c m, st.Inside c p.dst
  dst_ready : ∀ m, Ready c (p.apply c m) p.dst

/-- A stage whose sources are ready makes its stores. -/
theorem Pass.Sound.body_eq {p : Pass} {c : ConfigRegs} {m : Memory} (h : p.Sound c)
    (hsrc : ∀ b ∈ p.src, Ready c m b) : p.body c m = some (p.apply c m) :=
  Memory.transform_eq_some.2 ⟨h.readable_of_ready m hsrc, rfl⟩

/-- The data space after the stages of a list, in order. -/
def applyAll (ps : List Pass) (c : ConfigRegs) (m : Memory) : Memory := ps.foldl (fun m p => p.apply c m) m

/-- The first stage's stores come first. -/
theorem applyAll_cons (p : Pass) (ps : List Pass) (c : ConfigRegs) (m : Memory) :
    applyAll (p :: ps) c m = applyAll ps c (p.apply c m) := rfl

/-- Stages make no written byte unwritten. -/
theorem keepsWritten_applyAll (ps : List Pass) (c : ConfigRegs) (m : Memory) :
    KeepsWritten m (applyAll ps c m) := by
  induction ps generalizing m with
  | nil => exact fun _ h => h
  | cons p ps ih => exact (keepsWritten_storeAll m _).trans (ih _)

/-- Stages keep the canonical form. -/
theorem wf_applyAll {m : Memory} (h : Memory.wf m) (ps : List Pass) (c : ConfigRegs) :
    Memory.wf (applyAll ps c m) := by
  induction ps generalizing m with
  | nil => exact h
  | cons p ps ih => exact ih (Memory.wf_storeAll h _)

/-- Stages leave every buffer that is apart from all they fill. -/
theorem sameBuffer_applyAll {c : ConfigRegs} {ps : List Pass} {b : Buffer} (hs : ∀ p ∈ ps, p.Sound c)
    (hb : ∀ p ∈ ps, c.Apart p.dst b) (m : Memory) : SameBuffer c b m (applyAll ps c m) := by
  induction ps generalizing m with
  | nil => exact fun _ _ _ => rfl
  | cons p ps ih =>
    intro a h1 h2
    have hp : SameBuffer c b m (p.apply c m) :=
      sameBuffer_storeAll ((hs p List.mem_cons_self).stores_inside m) (hb p List.mem_cons_self) m
    rw [hp a h1 h2]
    exact ih (fun q hq => hs q (List.mem_cons_of_mem _ hq)) (fun q hq => hb q (List.mem_cons_of_mem _ hq)) _ a h1 h2

/-- Every stage's sources are among the buffers ready at the start and those that stages before it filled. -/
def Supplied : List Buffer → List Pass → Prop
  | _, [] => True
  | ready, p :: ps => p.src ⊆ ready ∧ Supplied (p.dst :: ready) ps

/-- Stages that are supplied run to the end. -/
theorem foldlM_body_eq {c : ConfigRegs} {ps : List Pass} {ready : List Buffer} {m : Memory}
    (hs : ∀ p ∈ ps, p.Sound c) (hsup : Supplied ready ps) (hr : ∀ b ∈ ready, Ready c m b) :
    ps.foldlM (fun m p => p.body c m) m = some (applyAll ps c m) := by
  induction ps generalizing ready m with
  | nil => rfl
  | cons p ps ih =>
    obtain ⟨hsrc, hrest⟩ := hsup
    have hp := hs p List.mem_cons_self
    rw [List.foldlM_cons, hp.body_eq fun b hb => hr b (hsrc hb)]
    refine ih (fun q hq => hs q (List.mem_cons_of_mem _ hq)) hrest fun b hb => ?_
    obtain rfl | hb := List.mem_cons.1 hb
    · exact hp.dst_ready m
    · exact (hr b hb).mono (keepsWritten_storeAll m _)

/-- No stage fills a buffer that it or a stage before it reads, or that one before it fills. -/
def NoneUndone (c : ConfigRegs) (ps : List Pass) : Prop :=
  (∀ p ∈ ps, ∀ b ∈ p.src, c.Apart p.dst b) ∧ ps.Pairwise fun p q => ∀ b ∈ p.dst :: p.src, c.Apart q.dst b

/-- Stages none of which undoes another leave the same data space when run again: each finds its sources as it found them
the first time, and so stores what its buffer still holds. -/
theorem applyAll_applyAll {c : ConfigRegs} {ps : List Pass} {m : Memory} (hwf : Memory.wf m)
    (hs : ∀ p ∈ ps, p.Sound c) (hapart : NoneUndone c ps) :
    applyAll ps c (applyAll ps c m) = applyAll ps c m := by
  induction ps generalizing m with
  | nil => rfl
  | cons p ps ih =>
    obtain ⟨hown, hlater⟩ := hapart
    obtain ⟨hlater, hrest⟩ := List.pairwise_cons.1 hlater
    have hs' : ∀ q ∈ ps, q.Sound c := fun q hq => hs q (List.mem_cons_of_mem _ hq)
    have hp := hs p List.mem_cons_self
    have hsrc : ∀ b ∈ p.src, SameBuffer c b m (applyAll (p :: ps) c m) := fun b hb =>
      sameBuffer_applyAll hs (fun q hq => by
        obtain rfl | hq := List.mem_cons.1 hq
        · exact hown _ List.mem_cons_self b hb
        · exact hlater q hq b (List.mem_cons_of_mem _ hb)) m
    have hdst : SameBuffer c p.dst (p.apply c m) (applyAll ps c (p.apply c m)) :=
      sameBuffer_applyAll hs' (fun q hq => hlater q hq _ List.mem_cons_self) _
    have hagain : p.apply c (applyAll (p :: ps) c m) = applyAll (p :: ps) c m := by
      rw [Pass.apply, ← hp.stores_congr m _ hsrc]
      refine Memory.storeAll_of_held (m' := m) (wf_applyAll hwf _ c) fun a ⟨st, hst, h1, h2⟩ => ?_
      obtain ⟨h3, h4⟩ := hp.stores_inside m st hst
      exact (hdst a (by omega) (by omega)).symm
    rw [applyAll_cons p ps c (applyAll (p :: ps) c m), hagain, applyAll_cons]
    exact ih (Memory.wf_storeAll hwf _) hs' ⟨fun q hq => hown q (List.mem_cons_of_mem _ hq), hrest⟩

end Sys2Proof.Machine
end

section
/-!
SUPPORT. The seven bodies of RUN as stages (44_control.md R221), and RUN as their list.
-/

namespace Sys2Proof.Machine

open Sys2Proof

/-! ### Stages that store one element a pixel -/

/-- The stores of a stage that gives pixel (y, x) of a buffer the value f y x. -/
def pixelStores (c : ConfigRegs) (b : Buffer) (f : Nat → Nat → Nat) : List Store :=
  c.pixels.map fun p => c.pixelStore b p.1 p.2 (f p.1 p.2)

/-- The stores depend on the values at the image's pixels only. -/
theorem pixelStores_congr {c : ConfigRegs} {b : Buffer} {f g : Nat → Nat → Nat}
    (h : ∀ y < c.height, ∀ x < c.width, f y x = g y x) : pixelStores c b f = pixelStores c b g :=
  List.map_congr_left fun p hp => by
    obtain ⟨hy, hx⟩ := ConfigRegs.mem_pixels.1 hp
    rw [h _ hy _ hx]

/-- A stage whose stores are `pixelStores` is sound when its check holds of ready sources and its values depend on its
sources only. -/
theorem Pass.sound_of_pixelStores {p : Pass} {c : ConfigRegs} (f : Memory → Nat → Nat → Nat)
    (hb : p.dst.onePerPixel = true) (hstores : ∀ m, p.stores c m = pixelStores c p.dst (f m))
    (hready : ∀ m, (∀ b ∈ p.src, Ready c m b) → p.readable c m = true)
    (hf : ∀ m m', (∀ b ∈ p.src, SameBuffer c b m m') →
      ∀ y < c.height, ∀ x < c.width, f m y x = f m' y x) : p.Sound c where
  readable_of_ready := hready
  stores_congr m m' h := by rw [hstores, hstores, pixelStores_congr (hf m m' h)]
  stores_inside m st hst := by
    rw [hstores] at hst
    obtain ⟨q, hq, rfl⟩ := List.mem_map.1 hst
    obtain ⟨hy, hx⟩ := ConfigRegs.mem_pixels.1 hq
    exact c.pixelAddr_in_region hb hy hx
  dst_ready m := by
    rw [Pass.apply, hstores]
    exact ready_of_pixelsWritten hb fun y hy x hx => (c.pixel_storeAll m p.dst (f m) hy hx).1

/-! ### Census -/

/-- The neighbours of a pixel are the samples of its window but the centre (R110). -/
theorem mem_neighbours {c : ConfigRegs} {y x : Nat} {q : Nat × Nat} :
    q ∈ neighbours c y x ↔ ∃ i < c.kernelH, ∃ j < c.kernelW, ¬(i = c.halfH ∧ j = c.halfW) ∧
      q = (y - c.halfH + i, x - c.halfW + j) := by
  simp only [neighbours, neighbourOffsets, List.mem_map, List.mem_filter, List.mem_flatMap, List.mem_range]
  constructor
  · rintro ⟨_, ⟨⟨i, hi, j, hj, rfl⟩, hne⟩, rfl⟩
    exact ⟨i, hi, j, hj, by simpa [ConfigRegs.halfH, ConfigRegs.halfW, imp_iff_not_or] using hne, rfl⟩
  · rintro ⟨i, hi, j, hj, hne, rfl⟩
    exact ⟨(i, j), ⟨⟨i, hi, j, hj, rfl⟩,
      by simpa [ConfigRegs.halfH, ConfigRegs.halfW, imp_iff_not_or] using hne⟩, rfl⟩

/-- The neighbours of an interior pixel lie in the image (R14). -/
theorem neighbours_in_image {c : ConfigRegs} {y x : Nat} (hin : c.interior y x = true) {q : Nat × Nat}
    (hq : q ∈ neighbours c y x) : q.1 < c.height ∧ q.2 < c.width := by
  obtain ⟨h1, h2, h3, h4⟩ := (c.interior_iff y x).1 hin
  obtain ⟨i, hi, j, hj, -, rfl⟩ := mem_neighbours.1 hq
  simp only [ConfigRegs.halfH, ConfigRegs.halfW] at *
  omega

/-- The samples CENSUS_L and CENSUS_R check are those the census compares (R110). -/
theorem censusReadable_iff {c : ConfigRegs} {m : Memory} {src : Buffer} :
    censusReadable c m src = true ↔ CensusSamplesWritten c m src := by
  rw [censusReadable, ConfigRegs.all_pixels]
  simp only [Bool.or_eq_true, Bool.not_eq_true', List.all_eq_true, Bool.and_eq_true, mem_neighbours]
  refine forall₂_congr fun y _ => forall₂_congr fun x _ => ?_
  rw [← Bool.not_eq_true, ← imp_iff_not_or]
  refine imp_congr_right fun _ => ⟨fun h i hi j hj hne => h _ ⟨i, hi, j, hj, hne, rfl⟩, ?_⟩
  rintro h _ ⟨i, hi, j, hj, hne, rfl⟩
  exact h i hi j hj hne

/-- The census of a pixel of the image depends on the image only (R115). -/
theorem census_congr {c : ConfigRegs} {img img' : Nat → Nat → Nat}
    (h : ∀ y < c.height, ∀ x < c.width, img y x = img' y x) {y x : Nat} (hy : y < c.height) (hx : x < c.width) :
    census c img y x = census c img' y x := by
  simp only [census]
  split
  · next hin =>
    congr 1
    refine List.map_congr_left fun q hq => ?_
    obtain ⟨hqy, hqx⟩ := neighbours_in_image hin hq
    rw [h _ hqy _ hqx, h y hy x hx]
  · rfl

/-- CENSUS_L and CENSUS_R as a stage (R113, R114). -/
def censusPass (src dst : Buffer) : Pass :=
  ⟨[src], dst, fun c m => censusReadable c m src, fun c m => censusStores c m src dst⟩

/-- The census reads its image and fills its map (R113 to R115). -/
theorem sound_censusPass (c : ConfigRegs) {src dst : Buffer} (hsrc : src.onePerPixel = true)
    (hdst : dst.onePerPixel = true) (hready : ∀ m, Ready c m src → CensusSamplesWritten c m src) :
    (censusPass src dst).Sound c :=
  Pass.sound_of_pixelStores (fun m => census c (c.pixel m src)) hdst (fun _ => rfl)
    (fun m h => censusReadable_iff.2 (hready m (h src (List.mem_singleton_self _))))
    (fun _ _ h _ hy _ hx => census_congr
      (fun _ hy _ hx => (h src (List.mem_singleton_self _)).pixel hsrc hy hx) hy hx)

/-! ### COST -/

/-- The right column compared lies in the interior where the left one does (R132). -/
theorem interior_rightColumn {c : ConfigRegs} {y x : Nat} (hin : c.interior y x = true) (d : Nat) :
    c.interior y (rightColumn c x d) = true := by
  rw [ConfigRegs.interior_iff] at hin ⊢
  simp only [rightColumn]
  omega

/-- An interior column lies in the image (R14). -/
theorem lt_width_of_interior {c : ConfigRegs} {y x : Nat} (hin : c.interior y x = true) : x < c.width := by
  obtain ⟨-, -, -, h⟩ := (c.interior_iff y x).1 hin
  omega

/-- Where the descriptors of interior pixels are written, COST finds all it reads (R131, R132). -/
theorem costReadable_of_descriptorsWritten {c : ConfigRegs} {m : Memory} (h : DescriptorsWritten c m) :
    costReadable c m = true := by
  rw [costReadable, ConfigRegs.all_pixels]
  simp only [Bool.or_eq_true, Bool.not_eq_true', List.all_eq_true, Bool.and_eq_true]
  intro y hy x hx
  rw [← Bool.not_eq_true, ← imp_iff_not_or]
  intro hin d _
  have hin' := interior_rightColumn hin d
  exact ⟨(h y hy x hx hin).1, (h y hy _ (lt_width_of_interior hin') hin').2⟩

/-- A cost depends on the two census maps only (R131). -/
theorem matchCost_congr {c : ConfigRegs} {l r l' r' : Nat → Nat → Nat}
    (hl : ∀ y < c.height, ∀ x < c.width, l y x = l' y x) (hr : ∀ y < c.height, ∀ x < c.width, r y x = r' y x)
    {y x : Nat} (hy : y < c.height) (hx : x < c.width) (d : Nat) :
    matchCost c l r y x d = matchCost c l' r' y x d := by
  simp only [matchCost]
  split
  · next hin => rw [hl y hy x hx, hr y hy _ (lt_width_of_interior (interior_rightColumn hin d))]
  · rfl

/-- The stores of COST: one for each pixel and disparity (R131). -/
theorem mem_costStores {c : ConfigRegs} {m : Memory} {st : Store} :
    st ∈ costStores c m ↔ ∃ y < c.height, ∃ x < c.width, ∃ d < c.disparities,
      st = ⟨c.costAddr y x d, 1, matchCost c (c.pixel m .cenL) (c.pixel m .cenR) y x d⟩ := by
  simp only [costStores, List.mem_flatMap, ConfigRegs.mem_pixels, List.mem_map, List.mem_range, eq_comm (a := st)]
  constructor
  · rintro ⟨⟨y, x⟩, ⟨hy, hx⟩, d, hd, h⟩
    exact ⟨y, hy, x, hx, d, hd, h⟩
  · rintro ⟨y, hy, x, hx, d, hd, h⟩
    exact ⟨(y, x), ⟨hy, hx⟩, d, hd, h⟩

/-- COST as a stage (R131). -/
def costPass : Pass := ⟨[.cenL, .cenR], .cost, costReadable, costStores⟩

/-- COST reads the two census maps and fills the volume (R131). -/
theorem sound_costPass (c : ConfigRegs) : costPass.Sound c where
  readable_of_ready m h := costReadable_of_descriptorsWritten fun y hy x hx _ =>
    ⟨(show PixelsWritten c m .cenL from h .cenL (by decide)) y hy x hx,
      (show PixelsWritten c m .cenR from h .cenR (by decide)) y hy x hx⟩
  stores_congr m m' h := by
    have hl : SameBuffer c .cenL m m' := h .cenL (by decide)
    have hr : SameBuffer c .cenR m m' := h .cenR (by decide)
    refine List.flatMap_congr fun p hp => List.map_congr_left fun d _ => ?_
    obtain ⟨hy, hx⟩ := ConfigRegs.mem_pixels.1 hp
    rw [matchCost_congr (fun _ hy _ hx => hl.pixel rfl hy hx) (fun _ hy _ hx => hr.pixel rfl hy hx) hy hx]
  stores_inside m st hst := by
    obtain ⟨y, hy, x, hx, d, hd, rfl⟩ := mem_costStores.1 hst
    exact c.costAddr_in_region hy hx hd
  dst_ready m y hy x hx d hd := Memory.written_storeAll (mem_costStores.2 ⟨y, hy, x, hx, d, hd, rfl⟩)

/-! ### AGG_ALL -/

/-- A direction command checks every cost (R152). -/
theorem aggReadable_iff {c : ConfigRegs} {m : Memory} {dir : Direction} :
    aggReadable c m dir = true ↔ CostsWritten c m := by
  simp only [aggReadable, List.all_eq_true, List.mem_range]
  constructor
  · intro h y hy x hx
    obtain ⟨ps, hps, hp⟩ := mem_slices.2 (show (y, x).1 < c.height ∧ (y, x).2 < c.width from ⟨hy, hx⟩)
    exact h ps hps (y, x) hp
  · intro h ps hps p hp
    obtain ⟨hy, hx⟩ := mem_slices.1 ⟨ps, hps, hp⟩
    exact h p.1 hy p.2 hx

/-- A direction's check depends on the costs only (R152). -/
theorem aggReadable_congr {c : ConfigRegs} {m m' : Memory} (h : SameBuffer c .cost m m') (dir : Direction) :
    aggReadable c m' dir = aggReadable c m dir := by
  rw [Bool.eq_iff_iff, aggReadable_iff, aggReadable_iff]
  refine forall₂_congr fun y hy => forall₂_congr fun x hx => forall₂_congr fun d hd => ?_
  rw [ConfigRegs.hasCost, ConfigRegs.hasCost, h.written (c.costAddr_in_region hy hx hd)]

/-- A direction's stores depend on the costs only (R152). -/
theorem aggStores_congr {c : ConfigRegs} {m m' : Memory} (h : SameBuffer c .cost m m') (dir : Direction) :
    aggStores c m dir = aggStores c m' dir := by
  refine List.flatMap_congr fun ps hps => ?_
  have hcosts : ps.map (costVector c m) = ps.map (costVector c m') :=
    List.map_congr_left fun p hp => List.map_congr_left fun d hd => by
      obtain ⟨hy, hx⟩ := mem_slices.1 ⟨ps, hps, hp⟩
      exact h.costAt hy hx (List.mem_range.1 hd)
  rw [sliceStores, sliceStores, hcosts]

/-- The elements a direction stores: its slot of every cell of the image (R152, R157). -/
theorem exists_mem_aggStores {c : ConfigRegs} {m : Memory} {dir : Direction} {a n : Nat} :
    (∃ st ∈ aggStores c m dir, st.addr = a ∧ st.bytes = n) ↔
      ∃ y < c.height, ∃ x < c.width, ∃ d < c.disparities, a = c.aggAddr y x d dir.slot ∧ n = 4 := by
  simp only [aggStores, List.mem_flatMap, mem_sliceStores]
  constructor
  · rintro ⟨_, ⟨ps, hps, i, p, d, hp, hd, rfl⟩, rfl, rfl⟩
    obtain ⟨hy, hx⟩ := mem_slices.1 ⟨ps, hps, List.mem_of_getElem? hp⟩
    exact ⟨p.1, hy, p.2, hx, d, hd, rfl, rfl⟩
  · rintro ⟨y, hy, x, hx, d, hd, rfl, rfl⟩
    obtain ⟨ps, hps, hp⟩ := mem_slices.2 (show (y, x).1 < c.height ∧ (y, x).2 < c.width from ⟨hy, hx⟩)
    obtain ⟨i, hi⟩ := List.mem_iff_getElem?.1 hp
    exact ⟨_, ⟨ps, hps, i, (y, x), d, hi, hd, rfl⟩, rfl, rfl⟩

/-- A direction's slot is one of the eight (R152). -/
theorem Direction.slot_lt (dir : Direction) : dir.slot < 8 := by
  cases dir <;> decide

/-- Every slot is some direction's (R152). -/
theorem Direction.exists_slot_eq {k : Nat} (hk : k < 8) : ∃ dir ∈ Direction.all, dir.slot = k := by
  revert k
  decide

/-- A direction's stores lie in AGG (R77). -/
theorem aggStores_inside {c : ConfigRegs} {m : Memory} {dir : Direction} :
    ∀ st ∈ aggStores c m dir, st.Inside c .agg := by
  intro st hst
  obtain ⟨y, hy, x, hx, d, hd, ha, hn⟩ := exists_mem_aggStores.1 ⟨st, hst, rfl, rfl⟩
  rw [Store.Inside, ha, hn]
  exact c.aggAddr_in_region hy hx hd dir.slot_lt

/-- AGG_ALL as a stage: all the eight directions' stores over the costs as they are at its start (R170). -/
def aggAllPass : Pass where
  src := [.cost]
  dst := .agg
  readable c m := Direction.all.all (aggReadable c m)
  stores c m := Direction.all.flatMap (aggStores c m)

/-- AGG_ALL reads the costs and fills all eight slots of AGG (R170). -/
theorem sound_aggAllPass (c : ConfigRegs) : aggAllPass.Sound c where
  readable_of_ready m h := List.all_eq_true.2 fun _ _ => aggReadable_iff.2 (h .cost (by decide))
  stores_congr m m' h := List.flatMap_congr fun dir _ => aggStores_congr (h .cost (by decide)) dir
  stores_inside m st hst := by
    obtain ⟨dir, -, hst⟩ := List.mem_flatMap.1 hst
    exact aggStores_inside st hst
  dst_ready m y hy x hx d hd k hk := by
    obtain ⟨dir, hdir, rfl⟩ := Direction.exists_slot_eq hk
    obtain ⟨st, hst, ha, hn⟩ := exists_mem_aggStores (m := m).2 ⟨y, hy, x, hx, d, hd, rfl, rfl⟩
    rw [ConfigRegs.hasAgg, ← ha, ← hn]
    exact Memory.written_storeAll (List.mem_flatMap.2 ⟨dir, hdir, hst⟩)

/-- Directions one after the other make their stores over the first one's costs, since none writes COST (R170). -/
theorem foldlM_bodyAgg {c : ConfigRegs} (hapart : c.Apart .agg .cost) (dirs : List Direction) (m : Memory) :
    dirs.foldlM (fun m dir => bodyAgg dir c m) m =
      Memory.transform m (dirs.all (aggReadable c m)) (dirs.flatMap (aggStores c m)) := by
  induction dirs generalizing m with
  | nil => rfl
  | cons dir dirs ih =>
    have hcost : SameBuffer c .cost m (Memory.storeAll m (aggStores c m dir)) :=
      sameBuffer_storeAll aggStores_inside hapart m
    rw [List.foldlM_cons, bodyAgg]
    cases hdir : aggReadable c m dir with
    | false => simp [Memory.transform, hdir]
    | true =>
      have hall : dirs.all (aggReadable c (Memory.storeAll m (aggStores c m dir))) = dirs.all (aggReadable c m) :=
        congrArg dirs.all (funext fun dir => aggReadable_congr hcost dir)
      have hstores : dirs.flatMap (aggStores c (Memory.storeAll m (aggStores c m dir))) =
          dirs.flatMap (aggStores c m) := List.flatMap_congr fun _ _ => (aggStores_congr hcost _).symm
      simp only [Memory.transform, if_true, Option.bind_eq_bind, Option.bind_some, ih, hall, hstores,
        List.all_cons, hdir, Bool.true_and, List.flatMap_cons, Memory.storeAll_append]

/-- AGG_ALL is its stage where AGG and COST share no byte (R170, R251). -/
theorem bodyAggAll_eq {c : ConfigRegs} (hapart : c.Apart .agg .cost) (m : Memory) :
    bodyAggAll c m = aggAllPass.body c m := foldlM_bodyAgg hapart Direction.all m

/-! ### SELECT, RESCALE, MEDIAN -/

/-- SELECT checks every slot (R190). -/
theorem selectReadable_iff {c : ConfigRegs} {m : Memory} : selectReadable c m = true ↔ SlotsWritten c m := by
  rw [selectReadable, ConfigRegs.all_pixels]
  simp only [List.all_eq_true, List.mem_range]

/-- The sums of a pixel depend on AGG only (R190). -/
theorem pixelSums_congr {c : ConfigRegs} {m m' : Memory} (h : SameBuffer c .agg m m') {y x : Nat}
    (hy : y < c.height) (hx : x < c.width) : pixelSums c m y x = pixelSums c m' y x :=
  List.map_congr_left fun _ hd => congrArg List.sum <| List.map_congr_left fun _ hk =>
    h.aggAt hy hx (List.mem_range.1 hd) (List.mem_range.1 hk)

/-- SELECT as a stage (R190). -/
def selectPass : Pass := ⟨[.agg], .disp, selectReadable, selectStores⟩

/-- SELECT reads AGG and fills DISP (R190). -/
theorem sound_selectPass (c : ConfigRegs) : selectPass.Sound c :=
  Pass.sound_of_pixelStores (fun m y x => winner (pixelSums c m y x)) rfl (fun _ => rfl)
    (fun _ h => selectReadable_iff.2 (h .agg (by decide)))
    (fun _ _ h _ hy _ hx => congrArg winner (pixelSums_congr (h .agg (by decide)) hy hx))

/-- RESCALE checks every disparity (R195). -/
theorem rescaleReadable_iff {c : ConfigRegs} {m : Memory} :
    rescaleReadable c m = true ↔ PixelsWritten c m .disp := ConfigRegs.all_pixels

/-- RESCALE as a stage (R195). -/
def rescalePass : Pass := ⟨[.disp], .scaled, rescaleReadable, rescaleStores⟩

/-- RESCALE reads DISP and fills SCALED (R195). -/
theorem sound_rescalePass (c : ConfigRegs) : rescalePass.Sound c :=
  Pass.sound_of_pixelStores (fun m y x => rescale c.disparities (c.pixel m .disp y x)) rfl (fun _ => rfl)
    (fun _ h => rescaleReadable_iff.2 (h .disp (by decide)))
    (fun _ _ h _ hy _ hx => congrArg _ ((h .disp (by decide)).pixel rfl hy hx))

/-- A clamped coordinate lies in the image (R201). -/
theorem clampCoord_lt (v : Int) {n : Nat} (h : 0 < n) : clampCoord v n < n := by
  simp only [clampCoord]
  omega

/-- The samples of a window lie in the image (R201). -/
theorem windowPixels_in_image {c : ConfigRegs} {y x : Nat} (hy : y < c.height) (hx : x < c.width) {q : Nat × Nat}
    (hq : q ∈ windowPixels c y x) : q.1 < c.height ∧ q.2 < c.width := by
  simp only [windowPixels, List.mem_flatMap, List.mem_map] at hq
  obtain ⟨i, -, j, -, rfl⟩ := hq
  exact ⟨clampCoord_lt _ (by omega), clampCoord_lt _ (by omega)⟩

/-- OUT at a pixel depends on SCALED only (R200). -/
theorem medianAt_congr {c : ConfigRegs} {img img' : Nat → Nat → Nat}
    (h : ∀ y < c.height, ∀ x < c.width, img y x = img' y x) {y x : Nat} (hy : y < c.height) (hx : x < c.width) :
    medianAt c img y x = medianAt c img' y x :=
  congrArg _ <| List.map_congr_left fun _ hq => by
    obtain ⟨hqy, hqx⟩ := windowPixels_in_image hy hx hq
    exact h _ hqy _ hqx

/-- MEDIAN as a stage (R200). -/
def medianPass : Pass := ⟨[.scaled], .out, medianReadable, medianStores⟩

/-- MEDIAN reads SCALED and fills OUT (R200). -/
theorem sound_medianPass (c : ConfigRegs) : medianPass.Sound c :=
  Pass.sound_of_pixelStores (fun m => medianAt c (c.pixel m .scaled)) rfl (fun _ => rfl)
    (fun m h => ConfigRegs.all_pixels.2 fun y hy x hx => List.all_eq_true.2 fun _ hq => by
      have hw : PixelsWritten c m .scaled := h .scaled (by decide)
      obtain ⟨hqy, hqx⟩ := windowPixels_in_image hy hx hq
      exact hw _ hqy _ hqx)
    (fun _ _ h _ hy _ hx => medianAt_congr
      (fun _ hy _ hx => (h .scaled (by decide)).pixel rfl hy hx) hy hx)

/-! ### RUN -/

/-- The seven stages of RUN (R221). -/
def runPasses : List Pass :=
  [censusPass .imgL .cenL, censusPass .imgR .cenR, costPass, aggAllPass, selectPass, rescalePass, medianPass]

/-- Each stage of RUN reads and fills what R78 marks for it. -/
theorem sound_runPasses (c : ConfigRegs) : ∀ p ∈ runPasses, p.Sound c := by
  simp only [runPasses, List.forall_mem_cons]
  exact ⟨sound_censusPass c rfl rfl fun _ h => h, sound_censusPass c rfl rfl fun _ h => h, sound_costPass c,
    sound_aggAllPass c, sound_selectPass c, sound_rescalePass c, sound_medianPass c, by simp⟩

/-- The body of RUN is its stages in order (R221). -/
theorem bodyRun_eq {c : ConfigRegs} (h : c.Apart .agg .cost) (m : Memory) :
    bodyRun c m = runPasses.foldlM (fun m p => p.body c m) m := by
  simp only [bodyRun, bodyAggAll_eq h, runPasses, List.foldlM_cons, List.foldlM_nil, bind_pure]
  rfl

/-- No stage of RUN undoes another where its buffers are legal (R78, R251). -/
theorem noneUndone_runPasses {c : ConfigRegs} (h : BuffersLegal .run c) : NoneUndone c runPasses := by
  have hown : ∀ p ∈ runPasses, p.dst ∈ Instr.writes .run ∧ ∀ b ∈ p.src, b ∈ Instr.used .run ∧ p.dst ≠ b := by
    decide
  have hlater : runPasses.Pairwise fun p q =>
      q.dst ∈ Instr.writes .run ∧ ∀ b ∈ p.dst :: p.src, b ∈ Instr.used .run ∧ q.dst ≠ b := by
    decide
  obtain ⟨-, hapart⟩ := h
  refine ⟨fun p hp b hb => ?_, hlater.imp fun ⟨hq, hused⟩ b hb => ?_⟩
  · obtain ⟨hdst, hsrc⟩ := hown p hp
    exact hapart _ hdst b (hsrc b hb).1 (hsrc b hb).2
  · exact hapart _ hq b (hused b hb).1 (hused b hb).2

/-- With its buffers legal and the samples of both images written, the body of RUN makes the stores of its seven stages. -/
theorem bodyRun_eq_applyAll {c : ConfigRegs} {m : Memory} (h : BuffersLegal .run c) (hl : CensusSamplesWritten c m .imgL)
    (hr : CensusSamplesWritten c m .imgR) : bodyRun c m = some (applyAll runPasses c m) := by
  obtain ⟨-, hapart⟩ := h
  rw [bodyRun_eq (hapart .agg (by decide) .cost (by decide) (by decide))]
  refine foldlM_body_eq (ready := [.imgL, .imgR]) (sound_runPasses c) ?_ ?_
  · simp [Supplied, runPasses, censusPass, costPass, aggAllPass, selectPass, rescalePass, medianPass]
  · simpa using ⟨hl, hr⟩

/-- A legal RUN over written images completes with the stores of its seven stages (R221, R288). -/
theorem exec_run_of_written {s : State} (h : Legal .run s) (hl : CensusSamplesWritten s.cfg s.mem .imgL)
    (hr : CensusSamplesWritten s.cfg s.mem .imgR) :
    exec .run s = .next (s.complete (outputs .run s.cfg) (applyAll runPasses s.cfg s.mem)) :=
  have hbuffers : BuffersLegal .run s.cfg := h.2.1
  perform_of_legal h (bodyRun_eq_applyAll hbuffers hl hr)

end Sys2Proof.Machine

namespace Sys2Proof.Proofs

open Sys2Proof Sys2Proof.Machine

/-- Settles O56: RUN is seven stages, none of which writes what it or an earlier stage reads, so the second run stores the
same bytes again. -/
theorem runTwiceLeavesTheSameMemory : Obligations.RunTwiceLeavesTheSameMemory := by
  intro s hwf hlegal hl hr
  have hkeep : KeepsWritten s.mem (applyAll runPasses s.cfg s.mem) := keepsWritten_applyAll _ _ _
  refine ⟨_, _, exec_run_of_written hlegal hl hr, exec_run_of_written hlegal ?_ ?_, ?_⟩
  · exact Ready.mono (b := .imgL) hl hkeep
  · exact Ready.mono (b := .imgR) hr hkeep
  · obtain ⟨-, hbuffers, -⟩ := hlegal
    exact applyAll_applyAll hwf (sound_runPasses _) (noneUndone_runPasses hbuffers)

end Sys2Proof.Proofs
end

section
/-!
SUPPORT. What a command's body does to the data space, said once for all commands: stores, each inside a buffer that R78 of
20_memory.md marks as written.
-/

namespace Sys2Proof.Machine

open Sys2Proof

/-- `m'` is `m` after stores that lie each inside one of the buffers. -/
def StoresInto (c : ConfigRegs) (bs : List Buffer) (m m' : Memory) : Prop :=
  ∃ l, m' = Memory.storeAll m l ∧ ∀ st ∈ l, ∃ b ∈ bs, st.Inside c b

/-- No store at all. -/
theorem StoresInto.refl (c : ConfigRegs) (bs : List Buffer) (m : Memory) : StoresInto c bs m m :=
  ⟨[], rfl, by simp⟩

/-- Stores one after the other. -/
theorem StoresInto.trans {c : ConfigRegs} {bs : List Buffer} {m m' m'' : Memory} (h : StoresInto c bs m m')
    (h' : StoresInto c bs m' m'') : StoresInto c bs m m'' := by
  obtain ⟨l, rfl, hl⟩ := h
  obtain ⟨l', rfl, hl'⟩ := h'
  exact ⟨l ++ l', (Memory.storeAll_append m l l').symm, List.forall_mem_append.2 ⟨hl, hl'⟩⟩

/-- A body of stores inside one buffer. -/
theorem storesInto_of_transform {c : ConfigRegs} {bs : List Buffer} {b : Buffer} {m m' : Memory} {readable : Bool}
    {l : List Store} (hb : b ∈ bs) (hl : ∀ st ∈ l, st.Inside c b) (h : Memory.transform m readable l = some m') :
    StoresInto c bs m m' := by
  obtain ⟨-, rfl⟩ := Memory.transform_eq_some.1 h
  exact ⟨l, rfl, fun st hst => ⟨b, hb, hl st hst⟩⟩

/-- A stage stores into the buffer it fills. -/
theorem Pass.Sound.storesInto {p : Pass} {c : ConfigRegs} {bs : List Buffer} {m m' : Memory} (hp : p.Sound c)
    (hb : p.dst ∈ bs) (h : p.body c m = some m') : StoresInto c bs m m' :=
  storesInto_of_transform hb (hp.stores_inside m) h

/-- Directions one after the other store into AGG (R170), legal buffers or not. -/
theorem storesInto_foldlM_bodyAgg {c : ConfigRegs} {bs : List Buffer} (hb : .agg ∈ bs) (dirs : List Direction)
    {m m' : Memory} (h : dirs.foldlM (fun m dir => bodyAgg dir c m) m = some m') : StoresInto c bs m m' := by
  induction dirs generalizing m with
  | nil =>
    obtain rfl : m = m' := by simpa using h
    exact .refl c bs m
  | cons dir dirs ih =>
    rw [List.foldlM_cons] at h
    obtain ⟨m₁, hdir, hrest⟩ := Option.bind_eq_some_iff.1 h
    exact (storesInto_of_transform hb aggStores_inside hdir).trans (ih hrest)

/-- Every command's body stores into the buffers R78 marks as written, and does nothing else to the data space. -/
theorem storesInto_bodyOf {i : Instr} {c : ConfigRegs} {m m' : Memory} (h : bodyOf i c m = some m') :
    StoresInto c (Instr.writes i) m m' := by
  have hcensusL : (censusPass .imgL .cenL).Sound c := sound_censusPass c rfl rfl fun _ h => h
  have hcensusR : (censusPass .imgR .cenR).Sound c := sound_censusPass c rfl rfl fun _ h => h
  cases i with
  | nop =>
    obtain rfl : m = m' := by simpa [bodyOf] using h
    exact .refl c _ m
  | censusL => exact hcensusL.storesInto (by decide) h
  | censusR => exact hcensusR.storesInto (by decide) h
  | cost => exact (sound_costPass c).storesInto (by decide) h
  | aggE | aggW | aggS | aggN | aggSE | aggNW | aggSW | aggNE =>
    exact storesInto_of_transform (by decide) aggStores_inside h
  | aggAll => exact storesInto_foldlM_bodyAgg (by decide) Direction.all h
  | select => exact (sound_selectPass c).storesInto (by decide) h
  | rescale => exact (sound_rescalePass c).storesInto (by decide) h
  | median => exact (sound_medianPass c).storesInto (by decide) h
  | run =>
    simp only [bodyOf, bodyRun, Option.bind_eq_bind, Option.bind_eq_some_iff] at h
    obtain ⟨m₁, hcenL, m₂, hcenR, m₃, hcost, m₄, hagg, m₅, hselect, m₆, hrescale, hmedian⟩ := h
    exact (hcensusL.storesInto (by decide) hcenL).trans <|
      (hcensusR.storesInto (by decide) hcenR).trans <|
      ((sound_costPass c).storesInto (by decide) hcost).trans <|
      (storesInto_foldlM_bodyAgg (by decide) Direction.all hagg).trans <|
      ((sound_selectPass c).storesInto (by decide) hselect).trans <|
      ((sound_rescalePass c).storesInto (by decide) hrescale).trans <|
      (sound_medianPass c).storesInto (by decide) hmedian

end Sys2Proof.Machine
end

section
/-!
SUPPORT. What a host write to the register window can do (10_state.md R23 to R38), said once for every offset.
-/

namespace Sys2Proof.Machine

open Sys2Proof

/-- The states that a write of `v` to some offset of the window can lead to from `s`. -/
inductive WindowWrite (s : State) (v : Word) : State → Prop
  /-- A read-only register, a reserved offset, or a configuration register while busy (R24, R27, R28, R37, R38). -/
  | ignored : WindowWrite s v s
  /-- CMD while idle (R25). -/
  | accepted (idle : s.busy = false) : WindowWrite s v (s.accept v)
  /-- CMD while busy (R25). -/
  | dropped (busy : s.busy = true) : WindowWrite s v s.drop
  /-- STATUS (R26). -/
  | cleared : WindowWrite s v (s.clearStatus v)
  /-- INT_EN (R29). -/
  | enabled : WindowWrite s v { s with intEn := v.setWidth 3 }
  /-- A configuration register while idle (R30 to R36). -/
  | configured (idle : s.busy = false) (c : ConfigRegs) : WindowWrite s v { s with cfg := c }

/-- A write to a register does one of these. -/
theorem State.windowWrite_writeReg (s : State) (r : Reg) (v : Word) : WindowWrite s v (s.writeReg r v) := by
  have hconfig (r : Reg) : WindowWrite s v (s.writeConfig r v) := by
    cases hb : s.busy with
    | true => simpa [State.writeConfig, hb] using WindowWrite.ignored
    | false => simpa [State.writeConfig, hb] using WindowWrite.configured hb (s.cfg.write r v)
  cases r with
  | id | errCode | errInfo => exact .ignored
  | cmd =>
    cases hb : s.busy with
    | true => simpa [State.writeReg, State.writeCmd, hb] using WindowWrite.dropped hb
    | false => simpa [State.writeReg, State.writeCmd, hb] using WindowWrite.accepted hb
  | status => exact .cleared
  | intEn => exact .enabled
  | dim | dimR | ndisp | p1 | p2 | kernel | base => exact hconfig _

/-- A write to an offset of the window does one of these. -/
theorem State.windowWrite_writeOffset (s : State) (off : Nat) (v : Word) : WindowWrite s v (s.writeOffset off v) := by
  simp only [State.writeOffset]
  split
  · exact s.windowWrite_writeReg _ v
  · exact .ignored

/-- While busy none of these changes the configuration or the sequencer (R38). -/
theorem WindowWrite.fixed_of_busy {s t : State} {v : Word} (h : WindowWrite s v t) (hbusy : s.busy = true) :
    t.cfg = s.cfg ∧ t.curCmd = s.curCmd ∧ t.busy = true := by
  cases h with
  | accepted idle | configured idle => simp [idle] at hbusy
  | ignored | dropped | cleared | enabled => exact ⟨rfl, rfl, hbusy⟩

/-- While busy no input but reset changes the configuration or the sequencer (R38; 70_reset_and_hazards.md R292). -/
theorem hostAct_fixed_of_busy {input : Input} {s t : State} (hbusy : s.busy = true) (hreset : input ≠ .reset)
    (h : hostAct input s = .next t) : t.cfg = s.cfg ∧ t.curCmd = s.curCmd ∧ t.busy = true := by
  cases input with
  | reset => exact absurd rfl hreset
  | busRead addr w =>
    obtain ⟨off, -, rfl⟩ := hostBusRead_next h
    rw [State.hostReadOffset_eq]
    exact ⟨rfl, rfl, hbusy⟩
  | busWrite addr w v =>
    obtain ⟨off, -, rfl⟩ := hostBusWrite_next h
    exact (s.windowWrite_writeOffset off _).fixed_of_busy hbusy
  | memRead addr w =>
    obtain ⟨-, -, -, rfl⟩ := hostMemRead_next h
    exact ⟨rfl, rfl, hbusy⟩
  | memWrite addr w v =>
    obtain ⟨-, -, rfl⟩ := hostMemWrite_next h
    exact ⟨rfl, rfl, hbusy⟩
  | pollIdle =>
    cases h
    rw [State.hostReadOffset_eq]
    exact ⟨rfl, rfl, hbusy⟩
  | readIrq =>
    cases h
    rw [State.hostReadIrq_eq]
    exact ⟨rfl, rfl, hbusy⟩

end Sys2Proof.Machine
end

section
/-!
SUPPORT. The machine's invariant: its part about the data space and its part about the flags, and what keeps each.
-/

namespace Sys2Proof.Machine

open Sys2Proof

/-! ### The data space (20_memory.md R60) -/

/-- The part of `Inv` about the data space: canonical form, inside the 32-bit space. -/
def MemoryOk (m : Memory) : Prop := Memory.wf m ∧ ∀ cell ∈ m, cell.1 < 2 ^ 32

/-- Stores that end inside the 32-bit space keep the data space's part of the invariant. -/
theorem memoryOk_storeAll {m : Memory} {l : List Store} (h : MemoryOk m) (hl : ∀ st ∈ l, st.addr + st.bytes ≤ 2 ^ 32) :
    MemoryOk (Memory.storeAll m l) := by
  obtain ⟨hwf, hlt⟩ := h
  refine ⟨Memory.wf_storeAll hwf l, fun cell hcell => ?_⟩
  obtain ⟨st, hst, -, hend⟩ | hold := Memory.mem_storeAll hcell
  · exact hend.trans_le (hl st hst)
  · exact hlt cell hold

/-- So does a host write that ends inside it. -/
theorem memoryOk_memWrite {m : Memory} {addr n : Nat} (h : MemoryOk m) (hend : addr + n ≤ 2 ^ 32) (v : Nat) :
    MemoryOk (Memory.memWrite m addr n v) :=
  memoryOk_storeAll (l := [⟨addr, n, v⟩]) h (by simpa using hend)

/-- So do the draws of a reset at addresses inside it. -/
theorem memoryOk_drawAll {m : Memory} {l : List Nat} (h : MemoryOk m) (hl : ∀ a ∈ l, a < 2 ^ 32) (n : Nat) :
    MemoryOk (Memory.drawAll m n l) := by
  obtain ⟨hwf, hlt⟩ := h
  exact ⟨Memory.wf_drawAll hwf n l, fun cell hcell => (Memory.mem_drawAll hcell).elim (hl _) (hlt cell)⟩

/-- So does a command's body whose written buffers end inside it. -/
theorem memoryOk_bodyOf {i : Instr} {c : ConfigRegs} {m m' : Memory} (h : MemoryOk m)
    (hend : ∀ b ∈ Instr.writes i, c.base b + c.size b ≤ 2 ^ 32) (hbody : bodyOf i c m = some m') : MemoryOk m' := by
  obtain ⟨l, rfl, hl⟩ := storesInto_bodyOf hbody
  refine memoryOk_storeAll h fun st hst => ?_
  obtain ⟨b, hb, -, hin⟩ := hl st hst
  exact hin.trans (hend b hb)

/-- MEM_MAP backs addresses of the 32-bit space only. -/
theorem Platform.lt_of_backs {p : Platform} {a : Nat} (h : p.backs a = true) : a < 2 ^ 32 := by
  simp only [Platform.backs, Bool.and_eq_true, decide_eq_true_eq] at h
  exact h.1

/-- A backed region with a byte ends inside the 32-bit space. -/
theorem Platform.end_le_of_backsRegion {p : Platform} {r : Region} (h : p.backsRegion r = true) (hr : 0 < r.size) :
    r.base + r.size ≤ 2 ^ 32 := by
  have hlast := Platform.lt_of_backs ((p.backsRegion_iff r).1 h (r.size - 1) (by omega))
  omega

/-- Every access has a byte. -/
theorem Width.bytes_pos (w : Width) : 0 < w.bytes := by
  cases w <;> decide

/-- A reset draws bytes where there is memory only (70_reset_and_hazards.md R282). -/
theorem State.lt_of_mem_abandoned {s : State} {a : Nat} (h : a ∈ s.abandoned) : a < 2 ^ 32 := by
  simp only [State.abandoned] at h
  split at h
  · exact Platform.lt_of_backs (List.mem_filter.1 h).2
  · cases h

/-! ### The invariant under each update -/

/-- The part of `Inv` about STATUS, ERR_CODE and ERR_INFO (10_state.md R25 to R28). -/
structure FlagsOk (s : State) : Prop where
  not_both : ¬(s.done = true ∧ s.err = true)
  clear_of_busy : s.busy = true → s.done = false ∧ s.err = false
  code : s.errCode = s.errInfo.code
  code_of_err : s.err = true → s.errCode ≠ .none
  info_of_done_or_busy : s.done = true ∨ s.busy = true → s.errInfo = .zero

/-- The invariant is its two parts. -/
theorem inv_iff (s : State) : Inv s ↔ MemoryOk s.mem ∧ FlagsOk s :=
  ⟨fun ⟨h₁, h₂, h₃, h₄, h₅, h₆, h₇⟩ => ⟨⟨h₁, h₂⟩, ⟨h₃, h₄, h₅, h₆, h₇⟩⟩,
    fun ⟨⟨h₁, h₂⟩, ⟨h₃, h₄, h₅, h₆, h₇⟩⟩ => ⟨h₁, h₂, h₃, h₄, h₅, h₆, h₇⟩⟩

/-- DONE, ERR and the error registers clear, as acceptance and reset leave them (R25, R44). -/
theorem flagsOk_of_clear {s : State} (hdone : s.done = false) (herr : s.err = false) (hcode : s.errCode = .none)
    (hinfo : s.errInfo = .zero) : FlagsOk s where
  not_both := by simp [hdone]
  clear_of_busy _ := ⟨hdone, herr⟩
  code := by rw [hcode, hinfo]; rfl
  code_of_err := by simp [herr]
  info_of_done_or_busy _ := hinfo

/-- Clearing flags by a STATUS write (R26). -/
theorem FlagsOk.clearStatus {s : State} (h : FlagsOk s) (v : Word) : FlagsOk (s.clearStatus v) where
  not_both hboth := by
    simp only [State.clearStatus_done, State.clearStatus_err, Bool.and_eq_true] at hboth
    exact h.not_both ⟨hboth.1.1, hboth.2.1⟩
  clear_of_busy hbusy := by
    obtain ⟨hdone, herr⟩ := h.clear_of_busy hbusy
    simp [hdone, herr]
  code := h.code
  code_of_err herr := h.code_of_err (by simp at herr; exact herr.1)
  info_of_done_or_busy hor := h.info_of_done_or_busy (hor.imp_left fun hdone => by simp at hdone; exact hdone.1)

/-- Rejection of the accepted command (60_exceptions.md R252). -/
theorem FlagsOk.reject {s : State} (h : FlagsOk s) (hbusy : s.busy = true) {info : ErrInfo} (hcode : info.code ≠ .none) :
    FlagsOk (s.reject info.code info) where
  not_both := by simp [(h.clear_of_busy hbusy).1]
  clear_of_busy := by simp
  code := rfl
  code_of_err _ := hcode
  info_of_done_or_busy := by simp [(h.clear_of_busy hbusy).1]

/-- Completion of the accepted command (70_reset_and_hazards.md R288). -/
theorem FlagsOk.complete {s : State} (h : FlagsOk s) (hbusy : s.busy = true) (outs : List Region) (m : Memory) :
    FlagsOk (s.complete outs m) where
  not_both := by simp [(h.clear_of_busy hbusy).2]
  clear_of_busy := by simp
  code := h.code
  code_of_err := h.code_of_err
  info_of_done_or_busy _ := h.info_of_done_or_busy (.inr hbusy)

/-! ### The invariant under each step -/

/-- The buffers a command writes are among those it uses (20_memory.md R78). -/
theorem Instr.writes_subset_used (i : Instr) : Instr.writes i ⊆ Instr.used i := by
  cases i <;> decide

/-- A command that is performed keeps the invariant. -/
theorem inv_of_exec {i : Instr} {s t : State} (h : Inv s) (hbusy : s.busy = true) (ht : exec i s = .next t) : Inv t := by
  rw [inv_iff] at h ⊢
  obtain ⟨hmem, hflags⟩ := h
  obtain ⟨-, hcode, rfl⟩ | ⟨m, hbody, hcheck, rfl⟩ := exec_next ht
  · exact ⟨hmem, hflags.reject hbusy hcode⟩
  · refine ⟨memoryOk_bodyOf hmem (fun b hb => ?_) hbody, hflags.complete hbusy _ _⟩
    have hi : i ≠ .nop := by
      rintro rfl
      cases hb
    obtain ⟨-, hlegal, -⟩ := (checkEntry_code_eq_none_iff i s.cfg).1 (hcheck hi).1
    exact (hlegal b (Instr.writes_subset_used i hb)).2

/-- The core's step keeps the invariant. -/
theorem inv_of_coreStep {s t : State} (h : Inv s) (hbusy : s.busy = true) (ht : coreStep s = .next t) : Inv t := by
  obtain ⟨i, -, hexec⟩ | ⟨e, -, rfl⟩ := coreStep_next ht
  · exact inv_of_exec h hbusy hexec
  · rw [inv_iff] at h ⊢
    exact ⟨h.1, h.2.reject hbusy (info := .illegalWord) (by decide)⟩

/-- A write to the register window keeps the invariant. -/
theorem inv_of_windowWrite {s t : State} {v : Word} (h : Inv s) (ht : WindowWrite s v t) : Inv t := by
  have ⟨hmem, hflags⟩ := (inv_iff s).1 h
  cases ht with
  | ignored | dropped | enabled | configured => exact h
  | accepted => exact (inv_iff _).2 ⟨hmem, flagsOk_of_clear rfl rfl rfl rfl⟩
  | cleared => exact (inv_iff _).2 ⟨hmem, hflags.clearStatus v⟩

/-- What the host or the platform does keeps the invariant. -/
theorem inv_of_hostAct {input : Input} {s t : State} (h : Inv s) (ht : hostAct input s = .next t) : Inv t := by
  have ⟨hmem, hflags⟩ := (inv_iff s).1 h
  cases input with
  | reset =>
    cases ht
    exact (inv_iff _).2 ⟨memoryOk_drawAll hmem (fun _ => State.lt_of_mem_abandoned) _, flagsOk_of_clear rfl rfl rfl rfl⟩
  | busRead addr w =>
    obtain ⟨off, -, rfl⟩ := hostBusRead_next ht
    rwa [State.hostReadOffset_eq]
  | busWrite addr w v =>
    obtain ⟨off, -, rfl⟩ := hostBusWrite_next ht
    exact inv_of_windowWrite h (s.windowWrite_writeOffset off _)
  | memRead addr w =>
    obtain ⟨-, -, -, rfl⟩ := hostMemRead_next ht
    exact h
  | memWrite addr w v =>
    obtain ⟨hbacked, -, rfl⟩ := hostMemWrite_next ht
    have hend := Platform.end_le_of_backsRegion hbacked w.bytes_pos
    exact (inv_iff _).2 ⟨memoryOk_memWrite hmem hend _, { hflags with }⟩
  | pollIdle =>
    cases ht
    rwa [State.hostReadOffset_eq]
  | readIrq =>
    cases ht
    rwa [State.hostReadIrq_eq]

/-- A host step keeps the invariant. -/
theorem inv_of_hostStep {s t : State} (h : Inv s) (ht : hostStep s = .next t) : Inv t := by
  obtain ⟨-, rfl⟩ | ⟨input, rest, -, hact⟩ := hostStep_next ht
  · exact h
  · exact inv_of_hostAct (s := s.takeInput) h hact

end Sys2Proof.Machine

namespace Sys2Proof.Proofs

open Sys2Proof Sys2Proof.Machine

/-- Settles O9: a step is the core's, performing the accepted command, or the host's, and each keeps the data space's part
of the invariant and the flags' part. -/
theorem everyStepKeepsTheInvariant : Obligations.EveryStepKeepsTheInvariant := by
  intro s t h hstep
  obtain ⟨hbusy, hcore⟩ | hhost := step_next hstep
  · exact inv_of_coreStep h hbusy hcore
  · exact inv_of_hostStep h hhost

/-- Settles O8: reset leaves no byte with a value and every flag and error register clear. -/
theorem invariantHoldsAfterReset : Obligations.InvariantHoldsAfterReset := by
  have hreset (p : Platform) : Inv (State.resetOn p) :=
    (inv_iff _).2 ⟨⟨.nil, by simp [State.resetOn]⟩, flagsOk_of_clear rfl rfl rfl rfl⟩
  exact ⟨hreset _, hreset⟩

/-- Settles O32: the next states of a command are its rejection, which sets ERR and keeps the data space, and its
completion, which sets DONE. -/
theorem commandEndsWithDoneOrErr : Obligations.CommandEndsWithDoneOrErr := by
  intro i s t hdone herr hexec
  obtain ⟨-, -, rfl⟩ | ⟨m, -, -, rfl⟩ := exec_next hexec
  · exact ⟨by simp [hdone], fun _ => rfl⟩
  · exact ⟨by simp [herr], by simp [herr]⟩

end Sys2Proof.Proofs
end

section
/-!
SUPPORT. The register map and the register fields (10_state.md R23 to R37): what each register reads, and what a write to it
changes, for all registers at once.
-/

namespace Sys2Proof.Machine

open Sys2Proof

/-! ### The register map (R23) -/

/-- The offset of a register (R23). -/
def Reg.offset : Reg → Nat
  | .id => 0x00
  | .cmd => 0x04
  | .status => 0x08
  | .errCode => 0x0C
  | .errInfo => 0x10
  | .intEn => 0x14
  | .dim => 0x20
  | .dimR => 0x24
  | .ndisp => 0x28
  | .p1 => 0x2C
  | .p2 => 0x30
  | .kernel => 0x34
  | .base .imgL => 0x40
  | .base .imgR => 0x44
  | .base .cenL => 0x48
  | .base .cenR => 0x4C
  | .base .cost => 0x50
  | .base .agg => 0x54
  | .base .disp => 0x58
  | .base .scaled => 0x5C
  | .base .out => 0x60

/-- ID is the register at offset 0 (R23, R24). -/
theorem Reg.offset_eq_zero_iff (r : Reg) : r.offset = 0 ↔ r = .id := by
  cases r with
  | base b => cases b <;> decide
  | _ => decide

/-- The map finds each register at its offset and nowhere else. -/
theorem Reg.atOffset_eq_some_iff {off : Nat} {r : Reg} : Reg.atOffset off = some r ↔ off = r.offset := by
  constructor
  · intro h
    have pick {n : Nat} {q : Reg} {e : Option Reg} (h : (if off = n then some q else e) = some r) (hq : n = q.offset)
        (hrest : e = some r → off = r.offset) : off = r.offset := by
      split at h
      · next hoff => rw [hoff, hq, Option.some.inj h]
      · exact hrest h
    iterate 21 refine pick h rfl fun h => ?_
    cases h
  · rintro rfl
    cases r with
    | base b => cases b <;> rfl
    | _ => rfl

/-- Every offset is reserved or a register's. -/
theorem Reg.reserved_or_offset (off : Nat) : Reg.atOffset off = none ∨ ∃ r : Reg, off = r.offset := by
  cases h : Reg.atOffset off with
  | none => exact .inl rfl
  | some r => exact .inr ⟨r, Reg.atOffset_eq_some_iff.1 h⟩

/-- A register's offset reads the register. -/
@[simp] theorem State.readOffset_offset (s : State) (r : Reg) : s.readOffset r.offset = s.readReg r := by
  rw [State.readOffset, Reg.atOffset_eq_some_iff.2 rfl]

/-- A write to a register's offset writes the register. -/
@[simp] theorem State.writeOffset_offset (s : State) (r : Reg) (v : Word) :
    s.writeOffset r.offset v = s.writeReg r v := by
  rw [State.writeOffset, Reg.atOffset_eq_some_iff.2 rfl]

/-- A reserved offset reads 0 (R37). -/
theorem State.readOffset_of_reserved (s : State) {off : Nat} (h : Reg.atOffset off = none) : s.readOffset off = 0 := by
  rw [State.readOffset, h]

/-- A reserved offset ignores writes (R37). -/
theorem State.writeOffset_of_reserved (s : State) {off : Nat} (h : Reg.atOffset off = none) (v : Word) :
    s.writeOffset off v = s := by
  rw [State.writeOffset, h]

/-! ### Fields (R24 to R37) -/

/-- How many low bits of a register its fields hold; the bits above are reserved. -/
def Reg.fieldBits : Reg → Nat
  | .status | .errCode => 4
  | .errInfo => 11
  | .intEn => 3
  | .ndisp | .p1 | .p2 => 16
  | .kernel => 24
  | .id | .cmd | .dim | .dimR | .base _ => 32

/-- A bit on the right of a bit vector adds one binary digit. -/
theorem toNat_append_ofBool_lt {n k : Nat} {x : BitVec n} (h : x.toNat < 2 ^ k) (b : Bool) :
    (x ++ BitVec.ofBool b).toNat < 2 ^ (k + 1) := by
  have hx : (x ++ BitVec.ofBool b).toNat = 2 * x.toNat + b.toNat := by
    rw [BitVec.toNat_append, BitVec.toNat_ofBool, ← Nat.shiftLeft_add_eq_or_of_lt (by cases b <;> decide),
      Nat.shiftLeft_eq]
    omega
  have hb : b.toNat ≤ 1 := b.toNat_le
  omega

/-- BUSY, DONE, ERR and CMD_LOST are bits 0 to 3 of STATUS (R26). -/
theorem State.getLsbD_status (s : State) : s.status.getLsbD 0 = s.busy ∧ s.status.getLsbD 1 = s.done ∧
    s.status.getLsbD 2 = s.err ∧ s.status.getLsbD 3 = s.cmdLost := by
  rw [State.status]
  generalize s.busy = busy, s.done = done, s.err = err, s.cmdLost = lost
  revert busy done err lost
  decide

/-- What a register reads fits in its fields: the reserved bits read 0 (R37). -/
theorem State.readReg_toNat_lt (s : State) (r : Reg) : (s.readReg r).toNat < 2 ^ r.fieldBits := by
  cases r with
  | id | cmd | dim | dimR | base => exact BitVec.isLt _
  | status =>
    simp only [State.readReg, State.status, Reg.fieldBits]
    iterate 4 refine toNat_append_ofBool_lt ?_ _
    simp
  | errCode => cases h : s.errCode <;> simp [State.readReg, ErrCode.word, Reg.fieldBits, h]
  | errInfo =>
    simp only [State.readReg, ErrInfo.word, Reg.fieldBits]
    iterate 11 refine toNat_append_ofBool_lt ?_ _
    simp
  | intEn | ndisp | p1 | p2 | kernel =>
    simp only [State.readReg, Reg.fieldBits, BitVec.toNat_setWidth]
    exact (Nat.mod_le _ _).trans_lt (BitVec.isLt _)

/-- The reserved bits of a register read 0 (R37). -/
theorem State.readReg_getLsbD_of_reserved (s : State) (r : Reg) {n : Nat} (h : r.fieldBits ≤ n) :
    (s.readReg r).getLsbD n = false :=
  Nat.testBit_lt_two_pow ((s.readReg_toNat_lt r).trans_le (Nat.pow_le_pow_right (by decide) h))

/-- The reserved bits of a written word take no part in the write (R37). -/
theorem State.writeReg_congr (s : State) (r : Reg) {v v' : Word}
    (h : ∀ n < r.fieldBits, v'.getLsbD n = v.getLsbD n) : s.writeReg r v' = s.writeReg r v := by
  have hfield : v'.setWidth r.fieldBits = v.setWidth r.fieldBits :=
    BitVec.eq_of_getLsbD_eq fun n hn => by simp [hn, h n hn]
  cases r with
  | id | errCode | errInfo => rfl
  | cmd | dim | dimR | base =>
    obtain rfl : v' = v := by simpa [Reg.fieldBits] using hfield
    rfl
  | status =>
    rw [State.writeReg, State.clearStatus, h 1 (by decide), h 2 (by decide), h 3 (by decide)]
    rfl
  | intEn | ndisp | p1 | p2 | kernel =>
    simp only [Reg.fieldBits] at hfield
    simp only [State.writeReg, State.writeConfig, ConfigRegs.write, hfield]

/-! ### Configuration registers (R30 to R36) -/

/-- The configuration registers. -/
def Reg.isConfig : Reg → Bool
  | .id | .cmd | .status | .errCode | .errInfo | .intEn => false
  | .dim | .dimR | .ndisp | .p1 | .p2 | .kernel | .base _ => true

/-- While idle a write to a configuration register changes the configuration and nothing else (R38). -/
theorem State.writeReg_of_isConfig {s : State} {r : Reg} (hr : r.isConfig = true) (hidle : s.busy = false) (v : Word) :
    s.writeReg r v = { s with cfg := s.cfg.write r v } := by
  have hconfig : s.writeConfig r v = { s with cfg := s.cfg.write r v } := by simp [State.writeConfig, hidle]
  cases r with
  | id | cmd | status | errCode | errInfo | intEn => cases hr
  | dim | dimR | ndisp | p1 | p2 | kernel | base => exact hconfig

/-- A BASE_* register reads as last written, and a write to one leaves the others (R36). -/
theorem ConfigRegs.baseWord_writeBase (c : ConfigRegs) (b b' : Buffer) (v : Word) :
    (c.writeBase b v).baseWord b' = if b' = b then v else c.baseWord b' := by
  cases b <;> cases b' <;> rfl

/-- The low `k` bits of a word, read back as a word. -/
theorem setWidth_setWidth_eq_ofNat (v : Word) (k : Nat) :
    (v.setWidth k).setWidth 32 = BitVec.ofNat 32 (v.toNat % 2 ^ k) :=
  BitVec.eq_of_toNat_eq (by simp)

/-- A configuration register reads the word written, with its reserved bits 0 (R30 to R37). -/
theorem State.readReg_write_same (s : State) {r : Reg} (hr : r.isConfig = true) (v : Word) :
    ({ s with cfg := s.cfg.write r v } : State).readReg r = BitVec.ofNat 32 (v.toNat % 2 ^ r.fieldBits) := by
  have hword : v = BitVec.ofNat 32 (v.toNat % 2 ^ 32) := by simpa using setWidth_setWidth_eq_ofNat v 32
  cases r with
  | id | cmd | status | errCode | errInfo | intEn => cases hr
  | dim | dimR => exact hword
  | ndisp | p1 | p2 | kernel => exact setWidth_setWidth_eq_ofNat v _
  | base b => exact (s.cfg.baseWord_writeBase b b v).trans ((if_pos rfl).trans hword)

/-- A write to a configuration register leaves what every other register reads. -/
theorem State.readReg_write_of_ne (s : State) {r r' : Reg} (h : r' ≠ r) (v : Word) :
    ({ s with cfg := s.cfg.write r v } : State).readReg r' = s.readReg r' := by
  cases r with
  | id | cmd | status | errCode | errInfo | intEn => rfl
  | dim | dimR | ndisp | p1 | p2 | kernel =>
    cases r' <;> first | rfl | exact absurd rfl h
  | base b =>
    cases r' with
    | base b' => exact (s.cfg.baseWord_writeBase b b' v).trans (if_neg fun hb => h (congrArg Reg.base hb))
    | _ => cases b <;> rfl

/-! ### Reset -/

/-- After reset every register but ID reads 0 (R44). -/
theorem State.readReg_resetOn (p : Platform) (r : Reg) :
    (State.resetOn p).readReg r = if r = .id then Reg.idWord else 0 := by
  cases r with
  | base b => cases b <;> rfl
  | status => simp [State.readReg, State.status, State.resetOn]
  | errInfo => simp [State.readReg, ErrInfo.word, State.resetOn]
  | _ => rfl

/-- ERR_INFO after the entry check of a command with every configuration register 0: DIM_ZERO, D_ZERO, KERNEL_EVEN and
POSTK_EVEN (R28). -/
def zeroConfigInfo : ErrInfo :=
  { ErrInfo.zero with dimZero := true, dZero := true, kernelEven := true, postKEven := true }

/-- With every configuration register 0 the buffers are empty and at address 0, so parameter checks alone fail (60_exceptions.md
R244 to R251). -/
theorem checkEntry_zero (i : Instr) : checkEntry i .zero = zeroConfigInfo := by
  cases i <;> decide

/-- After reset every command but NOP is rejected for its parameters (R44, R252, R257). -/
theorem exec_resetOn {i : Instr} (hi : i ≠ .nop) (p : Platform) :
    exec i (State.resetOn p) = .next ((State.resetOn p).reject .invalidParameter zeroConfigInfo) := by
  have hcheck : checkEntry i (State.resetOn p).cfg = zeroConfigInfo := checkEntry_zero i
  have hcode : zeroConfigInfo.code = .invalidParameter := by decide
  rw [exec_eq_perform hi, perform_reject (by rw [hcheck, hcode]; decide), hcheck, hcode]

end Sys2Proof.Machine

namespace Sys2Proof.Proofs

open Sys2Proof Sys2Proof.Machine

/-- Settles O10: with every configuration register 0 four parameter checks fail for every command but NOP. -/
theorem resetLeavesTheResetValues : Obligations.ResetLeavesTheResetValues := by
  intro p
  refine ⟨fun off => ?_, rfl, rfl, Memory.byte?_nil, ⟨_, exec_nop _, ?_⟩,
    fun i hi => ⟨_, exec_resetOn hi p, ?_, rfl, ?_⟩⟩
  · obtain hreserved | ⟨r, rfl⟩ := Reg.reserved_or_offset off
    · have hne : off ≠ 0 := by
        rintro rfl
        cases hreserved
      rw [State.readOffset_of_reserved _ hreserved, if_neg hne]
    · rw [State.readOffset_offset, State.readReg_resetOn]
      exact if_congr r.offset_eq_zero_iff.symm rfl rfl
  · simp [State.status, State.resetOn]
  · simp [State.status, State.resetOn]
  · rw [State.reject_errInfo]
    decide

/-- Settles O12: a reserved offset is no register's, and no register reads or writes a bit above its fields. -/
theorem reservedOffsetsAndBitsAreRazWi : Obligations.ReservedOffsetsAndBitsAreRazWi := by
  intro s v
  have hreserved : ∀ off ∈ [0x18, 0x1C, 0x38, 0x3C] ++ (List.range 39).map (fun n => 0x64 + 4 * n),
      Reg.atOffset off = none := by decide
  refine ⟨fun off hoff => ⟨s.readOffset_of_reserved (hreserved off hoff),
    s.writeOffset_of_reserved (hreserved off hoff) v⟩, fun p hp => ?_⟩
  obtain ⟨r, rfl⟩ : ∃ r : Reg, p = (r.offset, r.fieldBits) := by
    revert p
    simp only [List.forall_mem_cons]
    exact ⟨⟨.ndisp, rfl⟩, ⟨.p1, rfl⟩, ⟨.p2, rfl⟩, ⟨.kernel, rfl⟩, ⟨.intEn, rfl⟩, ⟨.status, rfl⟩, by simp⟩
  simp only [State.readOffset_offset, State.writeOffset_offset]
  exact ⟨fun n => s.readReg_getLsbD_of_reserved r, fun v' => s.writeReg_congr r⟩

/-- Settles O13: each offset of the list is a configuration register's. -/
theorem configurationWriteReadsBack : Obligations.ConfigurationWriteReadsBack := by
  intro s v hidle p hp
  obtain ⟨r, hr, rfl⟩ : ∃ r : Reg, r.isConfig = true ∧ p = (r.offset, r.fieldBits) := by
    revert p
    simp only [List.forall_mem_cons]
    exact ⟨⟨.dim, rfl, rfl⟩, ⟨.dimR, rfl, rfl⟩, ⟨.ndisp, rfl, rfl⟩, ⟨.p1, rfl, rfl⟩, ⟨.p2, rfl, rfl⟩,
      ⟨.kernel, rfl, rfl⟩,
      ⟨.base .imgL, rfl, rfl⟩, ⟨.base .imgR, rfl, rfl⟩, ⟨.base .cenL, rfl, rfl⟩, ⟨.base .cenR, rfl, rfl⟩,
      ⟨.base .cost, rfl, rfl⟩, ⟨.base .agg, rfl, rfl⟩, ⟨.base .disp, rfl, rfl⟩, ⟨.base .scaled, rfl, rfl⟩,
      ⟨.base .out, rfl, rfl⟩, by simp⟩
  have hwrite := State.writeReg_of_isConfig hr hidle v
  simp only [State.writeOffset_offset, State.readOffset_offset, hwrite]
  refine ⟨s.readReg_write_same hr v, fun off hoff => ?_, _, rfl⟩
  obtain hreserved | ⟨r', rfl⟩ := Reg.reserved_or_offset off
  · rw [State.readOffset_of_reserved _ hreserved, State.readOffset_of_reserved _ hreserved]
  · rw [State.readOffset_offset, State.readOffset_offset]
    exact s.readReg_write_of_ne (fun h => hoff (congrArg Reg.offset h)) v

/-- Settles O15: of what a write to the window can do, acceptance and a change of the configuration are for the idle core. -/
theorem configurationIsFixedWhileBusy : Obligations.ConfigurationIsFixedWhileBusy := by
  refine ⟨fun s t input => hostAct_fixed_of_busy, fun s v => ⟨?_, fun hbit => ?_⟩⟩
  · exact setWidth_setWidth_eq_ofNat v 3
  · show (s.clearStatus v).cmdLost = false
    simp [hbit]

/-- Settles O11: the three registers are read-only. -/
theorem readOnlyRegistersIgnoreWrites : Obligations.ReadOnlyRegistersIgnoreWrites := by
  intro s v
  exact ⟨rfl, rfl, rfl, rfl⟩

/-- Settles O16: the flags stand in STATUS side by side, and a write keeps a flag where its bit is not 1. -/
theorem statusReadsFlagsAndClearsByOne : Obligations.StatusReadsFlagsAndClearsByOne := by
  intro s v
  have hclear (flag bit : Bool) : (flag && !bit) = if bit then false else flag := by cases bit <;> simp
  refine ⟨s.getLsbD_status, ?_⟩
  show s.clearStatus v = _
  simp only [State.clearStatus, hclear]

end Sys2Proof.Proofs
end

section
/-!
SUPPORT. The host's turn (70_reset_and_hazards.md R288): the step that takes the host's next input, and where a bus access
goes (10_state.md R39).
-/

namespace Sys2Proof.Machine

open Sys2Proof

/-! ### The host's next input -/

/-- A host step with an input left is what that input does (R288). -/
theorem hostStep_of_inputs {s : State} {input : Input} {rest : List Input} (h : s.inputs = input :: rest) :
    hostStep s = hostAct input s.takeInput := by
  rw [hostStep, h]

/-- The core is stuck exactly when its step is the fault (20_memory.md R60). -/
theorem coreIsStuck_iff (s : State) : coreIsStuck s = true ↔ coreStep s = .fault .coreStuck := by
  rw [coreIsStuck]
  split
  · next h => simp [h]
  · next h => simpa using h

/-- When the core is idle, LATENCY has not passed or the core is stuck, the step is what the host's next input does. -/
theorem step_of_hostActs {s : State} {input : Input} {rest : List Input} (h : HostActs s input rest) :
    step s = hostAct input s.takeInput := by
  obtain ⟨hinputs, hturn⟩ := h
  rw [← hostStep_of_inputs hinputs, step, agentStep]
  split
  · next hcore =>
    have hstuck : coreStep s = .fault .coreStuck := by
      rw [← coreIsStuck_iff]
      simp only [State.coreTurn, hinputs, Bool.and_eq_true, Bool.or_eq_true, beq_iff_eq, List.isEmpty_cons,
        Bool.false_eq_true, or_false] at hcore
      obtain ⟨hbusy, hleft⟩ := hcore
      obtain hidle | hleft' | hstuck := hturn
      · simp [hbusy] at hidle
      · omega
      · exact hstuck
    simp [hstuck, hinputs]
  · rfl

/-- Taking an input other than a poll leaves the inputs after it (R288; 30_encoding.md R97). -/
theorem State.takeInput_of_inputs {s : State} {input : Input} {rest : List Input} (h : s.inputs = input :: rest)
    (hpoll : input ≠ .pollIdle) :
    s.takeInput = { s with inputs := rest, latencyLeft := s.latencyLeft - 1 } := by
  have hnext : s.nextInputs = rest := by
    cases input with
    | pollIdle => exact absurd rfl hpoll
    | _ => rw [State.nextInputs, h]
  rw [State.takeInput, hnext]

/-! ### Where a bus access goes (R39) -/

/-- A 32-bit access at an aligned offset of the window reaches that offset. -/
theorem busTarget_of_aligned (p : Platform) {off : Nat} (hoff : off < windowSize) (haligned : off % 4 = 0) :
    busTarget p (p.regBase + off) .w32 = .offset off := by
  simp only [windowSize] at hoff
  rw [busTarget, if_neg (by simp only [Width.bytes, windowSize]; omega),
    if_pos ⟨rfl, by omega, by simpa using haligned⟩, Nat.add_sub_cancel_left]

/-- Any other access that touches the window is broken. -/
theorem busTarget_of_broken {p : Platform} {addr : Nat} {w : Width} (hbelow : addr < p.regBase + windowSize)
    (habove : p.regBase < addr + w.bytes)
    (hbad : w ≠ .w32 ∨ addr < p.regBase ∨ (addr - p.regBase) % 4 ≠ 0) : busTarget p addr w = .broken := by
  rw [busTarget, if_neg (by omega), if_neg]
  rintro ⟨hw, hbase, haligned⟩
  obtain h | h | h := hbad
  · exact h hw
  · omega
  · exact h haligned

/-- A bus write at an aligned offset of the window on the host's turn writes that offset (R23, R39). -/
theorem step_of_busWrite {s : State} {off : Nat} {v : DWord} {rest : List Input} (hoff : off < windowSize)
    (haligned : off % 4 = 0) (h : HostActs s (.busWrite (s.platform.regBase + off) .w32 v) rest) :
    step s = .next (s.takeInput.writeOffset off (v.setWidth 32)) := by
  rw [step_of_hostActs h, hostAct, hostBusWrite, State.takeInput_platform, busTarget_of_aligned _ hoff haligned]

/-- What an offset reads does not depend on the host's inputs and LATENCY. -/
@[simp] theorem State.readOffset_takeInput (s : State) (off : Nat) : s.takeInput.readOffset off = s.readOffset off := rfl

/-- A STATUS read shows the completion when DONE = 1, or BUSY = 0 with ERR = 0 (R294). -/
theorem State.showsCompletion_iff (s : State) :
    s.showsCompletion = true ↔ s.done = true ∨ (s.busy = false ∧ s.err = false) := by
  simp [State.showsCompletion]

end Sys2Proof.Machine

namespace Sys2Proof.Proofs

open Sys2Proof Sys2Proof.Machine

/-- Settles O14: the write reaches CMD at offset 4, which accepts it while idle and drops it while busy. -/
theorem cmdWriteIsAcceptedOrDropped : Obligations.CmdWriteIsAcceptedOrDropped := by
  intro s v rest h
  have hword : (v.setWidth 64).setWidth 32 = v := by simp
  have hstep : step s = .next (s.takeInput.writeCmd v) := by
    rw [step_of_busWrite (by decide) (by decide) h, hword]
    rfl
  refine ⟨rfl, fun hidle => ⟨s.takeInput.accept v, Config.latency s.accepts, ?_, rfl, rfl⟩, fun hbusy => ?_⟩
  · rw [hstep, State.writeCmd, if_neg (by simp [hidle])]
  · rw [hstep, State.writeCmd, if_pos (by simpa using hbusy)]
    rfl

/-- Settles O17: such an access is broken in either direction. -/
theorem brokenRegisterAccessIsABusError : Obligations.BrokenRegisterAccessIsABusError := by
  intro s addr w v rest hbelow habove hbad
  have htarget : busTarget s.takeInput.platform addr w = .broken := busTarget_of_broken hbelow habove hbad
  constructor
  · intro h
    rw [step_of_hostActs h, hostAct, hostBusRead, htarget]
  · intro h
    rw [step_of_hostActs h, hostAct, hostBusWrite, htarget]

/-- Settles O18: the read reaches its offset, and offset 8 alone is STATUS. -/
theorem registerReadGivesTheWord : Obligations.RegisterReadGivesTheWord := by
  intro s off rest hoff haligned h
  have htake := State.takeInput_of_inputs h.1 (by simp)
  rw [step_of_hostActs h, hostAct, hostBusRead, State.takeInput_platform, busTarget_of_aligned _ hoff haligned]
  simp only [State.hostReadOffset_eq, Reg.atOffset_eq_status_iff, State.showsCompletion_iff, State.readOffset_takeInput]
  rw [htake]

/-- Settles O58: the write reaches its offset. -/
theorem registerWriteReachesTheRegister : Obligations.RegisterWriteReachesTheRegister := by
  intro s off v rest hoff haligned h
  rw [step_of_busWrite hoff haligned h, State.takeInput_of_inputs h.1 (by simp)]

end Sys2Proof.Proofs
end

section
/-!
SUPPORT. The host's accesses to the data space (20_memory.md R61, R62, 70_reset_and_hazards.md R291, R294): when an access
meets a region or races the running command, and the step of one that goes through.
-/

namespace Sys2Proof.Machine

open Sys2Proof

/-! ### When an access meets a region -/

/-- The test of R241 on an access's bytes says that the access touches a byte of the region. -/
theorem meets_access_iff (addr : Word) (w : Width) (r : Region) :
    Region.meets ⟨addr.toNat, w.bytes⟩ r = true ↔ AccessMeets addr w r := by
  simp only [Region.meets_iff, Region.contains, Bool.and_eq_true, decide_eq_true_eq]
  constructor
  · rintro ⟨a, ⟨hlow, hhigh⟩, hr⟩
    obtain ⟨o, rfl⟩ := Nat.exists_eq_add_of_le hlow
    exact ⟨o, by omega, hr⟩
  · rintro ⟨o, ho, hr⟩
    exact ⟨addr.toNat + o, ⟨by omega, by omega⟩, hr⟩

/-- The regions of the running command are those of the buffers it uses (20_memory.md R78). -/
theorem State.mem_commandUses {s : State} {r : Region} :
    r ∈ s.commandUses ↔ ∃ i, decode s.curCmd = .ok i ∧ ∃ b ∈ Instr.used i, s.cfg.region b = r := by
  rw [State.commandUses]
  split
  · next i hi => simp [hi]
  · next e he => simp [he]

/-- An access races the running command exactly when it is not clear of its buffers (R291). -/
theorem State.races_eq_false_iff (s : State) (addr : Word) (w : Width) :
    s.races ⟨addr.toNat, w.bytes⟩ = false ↔ AccessClear s addr w := by
  have hraces : s.races ⟨addr.toNat, w.bytes⟩ = false ↔
      (s.busy = true → ∀ r ∈ s.commandUses, ¬AccessMeets addr w r) := by
    rw [State.races, Bool.and_eq_false_imp]
    simp only [List.any_eq_false, meets_access_iff]
  rw [hraces]
  refine imp_congr_right fun _ => ⟨fun h i hi b hb => h _ (State.mem_commandUses.2 ⟨i, hi, b, hb, rfl⟩), ?_⟩
  intro h r hr
  obtain ⟨i, hi, b, hb, rfl⟩ := State.mem_commandUses.1 hr
  exact h i hi b hb

/-- An access reads no unseen output exactly when it meets none of their regions (R294). -/
theorem State.unseen_any_meets_eq_false_iff (s : State) (addr : Word) (w : Width) :
    s.unseen.any (Region.meets ⟨addr.toNat, w.bytes⟩) = false ↔ ∀ r ∈ s.unseen, ¬AccessMeets addr w r := by
  simp only [List.any_eq_false, meets_access_iff]

/-! ### Accesses that go through -/

/-- A host write over backed bytes, clear of the running command's buffers, is MemWrite (R62). -/
theorem step_of_memWrite {s : State} {addr : Word} {w : Width} {v : DWord} {rest : List Input}
    (h : HostActs s (.memWrite addr w v) rest) (hbacked : AccessBacked s addr w) (hclear : AccessClear s addr w) :
    step s = .next { s with
      inputs := rest, latencyLeft := s.latencyLeft - 1
      mem := Memory.memWrite s.mem addr.toNat w.bytes v.toNat } := by
  have hraces : s.takeInput.races ⟨addr.toNat, w.bytes⟩ = false := (s.takeInput.races_eq_false_iff addr w).2 hclear
  have hregion : s.takeInput.platform.backsRegion ⟨addr.toNat, w.bytes⟩ = true :=
    (Platform.backsRegion_iff _ _).2 hbacked
  rw [step_of_hostActs h, hostAct, hostMemWrite]
  simp only [hraces, hregion]
  rw [State.takeInput_of_inputs h.1 (by simp)]
  rfl

/-- A host read of written, backed bytes, clear of the running command's buffers and of unseen outputs, is MemRead (R62). -/
theorem step_of_memRead {s : State} {addr : Word} {w : Width} {rest : List Input}
    (h : HostActs s (.memRead addr w) rest) (hbacked : AccessBacked s addr w) (hclear : AccessClear s addr w)
    (hunseen : ∀ r ∈ s.unseen, ¬AccessMeets addr w r) (hwritten : Memory.written s.mem addr.toNat w.bytes = true) :
    step s = .next { s with
      inputs := rest, latencyLeft := s.latencyLeft - 1
      replies := BitVec.ofNat 64 (Memory.memRead s.mem addr.toNat w.bytes) :: s.replies } := by
  have hraces : s.takeInput.races ⟨addr.toNat, w.bytes⟩ = false := (s.takeInput.races_eq_false_iff addr w).2 hclear
  have hseen : s.takeInput.unseen.any (Region.meets ⟨addr.toNat, w.bytes⟩) = false :=
    (s.takeInput.unseen_any_meets_eq_false_iff addr w).2 hunseen
  have hregion : s.takeInput.platform.backsRegion ⟨addr.toNat, w.bytes⟩ = true :=
    (Platform.backsRegion_iff _ _).2 hbacked
  rw [step_of_hostActs h, hostAct, hostMemRead]
  simp only [hraces, hseen, hregion, State.takeInput_mem, hwritten]
  rw [State.takeInput_of_inputs h.1 (by simp)]
  rfl

end Sys2Proof.Machine

namespace Sys2Proof.Proofs

open Sys2Proof Sys2Proof.Machine

/-- Settles O21: the write is MemWrite and the read MemRead, and MemRead gives back the low bytes that MemWrite laid down. -/
theorem hostWriteThenReadGivesTheValue : Obligations.HostWriteThenReadGivesTheValue := by
  have hpow (w : Width) : 256 ^ w.bytes = 2 ^ (8 * w.bytes) := by rw [Nat.pow_mul]
  refine ⟨fun s addr w v rest h hbacked hclear => ⟨_, step_of_memWrite h hbacked hclear, fun o ho => ?_, fun a ha => ?_⟩,
    fun s addr w n rest h hbacked hclear hunseen hn hbytes => ?_,
    fun s t addr w v rest h hbacked hclear hunseen hstep hread => ?_⟩
  · rw [Memory.byte?_memWrite, if_pos (by omega), Nat.add_sub_cancel_left, byteOfNat]
  · rw [Memory.byte?_memWrite, if_neg ha]
  · obtain ⟨hwritten, hvalue⟩ := Memory.memRead_of_bytes hbytes
    rw [step_of_memRead h hbacked hclear hunseen hwritten, hvalue, hpow, Nat.mod_eq_of_lt hn]
  · rw [step_of_memWrite h hbacked hclear] at hstep
    cases hstep
    refine ⟨_, step_of_memRead hread hbacked hclear hunseen (Memory.written_memWrite_self _ _ _ _), ?_⟩
    rw [Memory.memRead_memWrite_self, hpow]

end Sys2Proof.Proofs
end

section
/-!
SUPPORT. Commands and the data space: the stuck core (20_memory.md R60), and what every command leaves alone (R66).
-/

namespace Sys2Proof.Machine

open Sys2Proof

/-- A passed entry check and a buffer byte without memory leave the core stuck (R60, K4). -/
theorem perform_stuck {i : Instr} {body : ConfigRegs → Memory → Option Memory} {s : State}
    (hcheck : (checkEntry i s.cfg).code = .none) (hback : buffersBacked i s = false) :
    perform i body s = .fault .coreStuck := by
  simp [perform, hcheck, hback]

/-- Stores into buffers leave every byte outside them (R66). -/
theorem StoresInto.sameOutside {c : ConfigRegs} {bs : List Buffer} {m m' : Memory} (h : StoresInto c bs m m') :
    SameOutside (bs.map c.region) m m' := by
  obtain ⟨l, rfl, hl⟩ := h
  refine fun a ha => Memory.byte?_storeAll_outside fun st hst hcov => ?_
  obtain ⟨b, hb, hlow, hhigh⟩ := hl st hst
  exact ha (c.region b) (List.mem_map_of_mem hb) ⟨hlow.trans hcov.1, hcov.2.trans_le hhigh⟩

end Sys2Proof.Machine

namespace Sys2Proof.Proofs

open Sys2Proof Sys2Proof.Machine

/-- Settles O29: the entry check passes, and then the perform step looks at the memory behind the buffers. -/
theorem unbackedBufferLeavesTheCoreStuck : Obligations.UnbackedBufferLeavesTheCoreStuck := by
  intro i s hi hparameters hbuffers hunbacked
  have hback : buffersBacked i s = false := Bool.eq_false_iff.2 (mt (buffersBacked_iff i s).1 hunbacked)
  rw [exec_eq_perform hi]
  exact perform_stuck ((checkEntry_code_eq_none_iff i s.cfg).2 ⟨hparameters, hbuffers⟩) hback

/-- Settles O31: the next states of a command are its rejection, which keeps the data space, and its completion, whose body
stores into the written buffers only. -/
theorem everyCommandChangesOnlyItsOutputsAndStatus : Obligations.EveryCommandChangesOnlyItsOutputsAndStatus := by
  intro i s t hexec
  obtain ⟨-, -, rfl⟩ | ⟨m, hbody, -, rfl⟩ := exec_next hexec
  · exact ⟨rfl, fun _ _ => rfl⟩
  · exact ⟨rfl, (storesInto_bodyOf hbody).sameOutside⟩

end Sys2Proof.Proofs
end

section
/-!
SUPPORT. The command word (30_encoding.md R90 to R93): its two fields as numbers, and that a word decodes to a command exactly
when it is the command's encoding.
-/

namespace Sys2Proof

/-! ### The fields of a word (R90) -/

/-- RSVD as a number. -/
theorem reservedField_toNat (v : Word) : (reservedField v).toNat = v.toNat / 256 := by
  have hlt := v.isLt
  simp only [reservedField, BitVec.extractLsb'_toNat, Nat.shiftRight_eq_div_pow]
  omega

/-- OPCODE as a number. -/
theorem opcodeField_toNat (v : Word) : (opcodeField v).toNat = v.toNat % 256 := by
  simp only [opcodeField, BitVec.extractLsb'_toNat, Nat.shiftRight_zero]

/-- A word has no field besides RSVD and OPCODE. -/
theorem word_eq_of_fields {v w : Word} (hreserved : reservedField v = reservedField w)
    (hopcode : opcodeField v = opcodeField w) : v = w := by
  have hdiv : v.toNat / 256 = w.toNat / 256 := by rw [← reservedField_toNat, hreserved, reservedField_toNat]
  have hmod : v.toNat % 256 = w.toNat % 256 := by rw [← opcodeField_toNat, hopcode, opcodeField_toNat]
  apply BitVec.eq_of_toNat_eq
  omega

/-! ### Words and commands (R92, R93) -/

/-- The words of R93 have RSVD zero. -/
@[simp] theorem reservedField_encode (i : Instr) : reservedField (encode i) = 0#24 := by
  cases i <;> rfl

/-- Each row of the opcode map holds its command's own opcode. -/
theorem decodeOpcode_eq_ok_iff {op : Byte} {i : Instr} : decodeOpcode op = .ok i ↔ op = opcodeField (encode i) := by
  constructor
  · fun_cases decodeOpcode op <;> rintro ⟨⟩ <;> assumption
  · rintro rfl
    cases i <;> rfl

/-- A command has one word, and a word one command. -/
theorem decode_eq_ok_iff {v : Word} {i : Instr} : decode v = .ok i ↔ v = encode i := by
  rw [decode]
  split
  · next hreserved =>
    rw [decodeOpcode_eq_ok_iff]
    exact ⟨word_eq_of_fields (by rw [hreserved, reservedField_encode]), congrArg opcodeField⟩
  · next hreserved =>
    refine ⟨nofun, ?_⟩
    rintro rfl
    exact absurd (reservedField_encode i) hreserved

/-- The encoding of a command decodes to it. -/
@[simp] theorem decode_encode (i : Instr) : decode (encode i) = .ok i := decode_eq_ok_iff.2 rfl

/-- The commands in the order of the opcode map of R93. -/
def Instr.all : List Instr :=
  [.nop, .censusL, .censusR, .cost, .aggE, .aggW, .aggS, .aggN, .aggSE, .aggNW, .aggSW, .aggNE, .aggAll, .select, .rescale,
    .median, .run]

/-- The opcode map leaves no command out. -/
@[simp] theorem Instr.mem_all (i : Instr) : i ∈ Instr.all := by
  cases i <;> simp [Instr.all]

/-- A word decodes exactly when RSVD is zero and OPCODE is one of the commands' words as a number. -/
theorem exists_decode_eq_ok_iff (v : Word) :
    (∃ i, decode v = .ok i) ↔ v.toNat / 256 = 0 ∧ v.toNat % 256 ∈ Instr.all.map fun i => (encode i).toNat := by
  have hencode (i : Instr) : (encode i).toNat / 256 = 0 := by rw [← reservedField_toNat, reservedField_encode]; rfl
  simp only [decode_eq_ok_iff, List.mem_map, Instr.mem_all, true_and]
  constructor
  · rintro ⟨i, rfl⟩
    exact ⟨hencode i, i, by have := hencode i; omega⟩
  · rintro ⟨hreserved, i, hopcode⟩
    exact ⟨i, BitVec.eq_of_toNat_eq (by omega)⟩

/-- The word of a direction command is 0x10 and the direction's slot (42_aggregate.md R152). -/
theorem encode_directionInstr (dir : Machine.Direction) :
    encode (directionInstr dir) = BitVec.ofNat 32 (0x10 + dir.slot) := by
  cases dir <;> rfl

end Sys2Proof

namespace Sys2Proof.Proofs

open Sys2Proof Sys2Proof.Machine

/-- Settles O1: each row of the opcode map holds its command's own opcode, and RSVD and OPCODE make up the word. -/
theorem decodeAndEncodeAgree : Obligations.DecodeAndEncodeAgree :=
  ⟨fun i _ => decode_encode i, fun _ _ => decode_eq_ok_iff.1⟩

/-- Settles O2: the words that decode are the 17 encodings, whose numbers are the listed opcodes. -/
theorem wordIsDefinedExactlyByReservedBitsAndOpcode : Obligations.WordIsDefinedExactlyByReservedBitsAndOpcode := by
  refine fun v => ⟨exists_decode_eq_ok_iff v, ?_⟩
  cases decode v with
  | ok i => exact .inl ⟨i, rfl⟩
  | error e => exact .inr ⟨e, rfl⟩

/-- Settles O3: the words are the encodings of R93, those of the directions numbered by their slots. -/
theorem commandWordsDecodeAsListed : Obligations.CommandWordsDecodeAsListed := by
  refine ⟨decode_encode .nop, decode_encode .censusL, decode_encode .censusR, decode_encode .cost, decode_encode .aggAll,
    decode_encode .select, decode_encode .rescale, decode_encode .median, decode_encode .run, fun dir _ => ?_⟩
  rw [← encode_directionInstr, decode_encode]

end Sys2Proof.Proofs
end

section
/-!
SUPPORT. The host's `wait` (30_encoding.md R97): what a poll leaves for the host's next turn.
-/

namespace Sys2Proof.Machine

open Sys2Proof

/-- A poll is the host's next input again while BUSY reads 1 (R97). -/
theorem State.nextInputs_of_poll {s : State} {rest : List Input} (h : s.inputs = .pollIdle :: rest) :
    s.nextInputs = if s.busy then .pollIdle :: rest else rest := by
  rw [State.nextInputs, h]

end Sys2Proof.Machine

namespace Sys2Proof.Proofs

open Sys2Proof Sys2Proof.Machine

/-- Settles O19: the poll reads offset 8, which is STATUS. -/
theorem waitPollsUntilIdle : Obligations.WaitPollsUntilIdle := by
  intro s rest h
  have hstep : step s = .next (s.takeInput.hostReadOffset 0x08) := step_of_hostActs h
  rw [State.hostReadOffset_eq] at hstep
  exact ⟨_, hstep, rfl, State.nextInputs_of_poll h.1⟩

end Sys2Proof.Proofs
end

section
/-!
SUPPORT. The raster window of a pixel and the packing of comparison bits (40_census.md R110, R111): which neighbour each bit
of a descriptor stands for.
-/

namespace Sys2Proof.Machine

open Sys2Proof

/-! ### Packing -/

/-- The bits as R110 packs them, the last bit packed lowest. -/
theorem testBit_packBits (bits : List Bool) (n : Nat) :
    (packBits bits).testBit n = bits.reverse[n]?.getD false := by
  induction bits using List.reverseRecOn generalizing n with
  | nil => simp [packBits]
  | append_singleton bits b ih =>
    have hpack : packBits (bits ++ [b]) = Nat.bit b (packBits bits) := by
      rw [Nat.bit_val, packBits, List.foldl_concat, packBits]
    rw [hpack, List.reverse_concat]
    cases n with
    | zero => simp
    | succ n => rw [Nat.testBit_bit_succ, ih, List.getElem?_cons_succ]

/-- A packed value has no more bits than were packed (R112). -/
theorem packBits_lt (bits : List Bool) : packBits bits < 2 ^ bits.length :=
  Nat.lt_pow_two_of_testBit _ fun n hn => by
    rw [testBit_packBits, List.getElem?_eq_none (by simpa using hn), Option.getD_none]

/-- Of N bits the one packed t-th from the first is bit N − 1 − t of the value (R111). -/
theorem testBit_packBits_of_getElem? {bits : List Bool} {t : Nat} {b : Bool} (h : bits[t]? = some b) :
    (packBits bits).testBit (bits.length - 1 - t) = b := by
  obtain ⟨ht, -⟩ := List.getElem?_eq_some_iff.1 h
  rw [testBit_packBits, List.getElem?_reverse (by omega),
    show bits.length - 1 - (bits.length - 1 - t) = t by omega, h, Option.getD_some]

/-! ### The window in raster order -/

/-- All the offsets (i, j) of a window in raster order, the centre cell among them. -/
def windowCells (kh kw : Nat) : List (Nat × Nat) := List.range kh ×ˢ List.range kw

/-- A window has KH·KW cells. -/
theorem length_windowCells (kh kw : Nat) : (windowCells kh kw).length = kh * kw := by
  rw [windowCells, List.length_product, List.length_range, List.length_range]

/-- No cell of a window comes twice. -/
theorem nodup_windowCells (kh kw : Nat) : (windowCells kh kw).Nodup :=
  List.nodup_range.product List.nodup_range

/-- The cell (i, j) of a window has raster index i·KW + j. -/
theorem getElem?_windowCells {kh kw i j : Nat} (hi : i < kh) (hj : j < kw) :
    (windowCells kh kw)[i * kw + j]? = some (i, j) := by
  induction kh with
  | zero => omega
  | succ kh ih =>
    have hrows : windowCells (kh + 1) kw = windowCells kh kw ++ (List.range kw).map (kh, ·) := by
      simp [windowCells, SProd.sprod, List.product, List.range_succ]
    rw [hrows]
    obtain hi | rfl := Nat.lt_succ_iff_lt_or_eq.1 hi
    · rw [List.getElem?_append_left (by rw [length_windowCells]; exact raster_lt hi hj), ih hi]
    · rw [List.getElem?_append_right (by rw [length_windowCells]; omega), length_windowCells,
        Nat.add_sub_cancel_left]
      simp [hj]

/-- The neighbours are the window with its centre cell taken out (R110). -/
theorem neighbourOffsets_eq_eraseIdx {kh kw : Nat} (hkh : 0 < kh) (hkw : 0 < kw) :
    neighbourOffsets kh kw = (windowCells kh kw).eraseIdx (kh / 2 * kw + kw / 2) := by
  obtain ⟨hlt, hcell⟩ := List.getElem?_eq_some_iff.1
    (getElem?_windowCells (Nat.div_lt_self hkh one_lt_two) (Nat.div_lt_self hkw one_lt_two))
  rw [← (nodup_windowCells kh kw).erase_getElem _ hlt, hcell, (nodup_windowCells kh kw).erase_eq_filter]
  rfl

/-- A window has one neighbour less than it has cells. -/
theorem length_neighbourOffsets {kh kw : Nat} (hkh : 0 < kh) (hkw : 0 < kw) :
    (neighbourOffsets kh kw).length = kh * kw - 1 := by
  have hcentre : kh / 2 * kw + kw / 2 < kh * kw :=
    raster_lt (Nat.div_lt_self hkh one_lt_two) (Nat.div_lt_self hkw one_lt_two)
  rw [neighbourOffsets_eq_eraseIdx hkh hkw, List.length_eraseIdx_of_lt (by rwa [length_windowCells]),
    length_windowCells]

/-- The raster index t of the neighbour (i, j): one less than in the window once the centre cell has been passed (R111). -/
theorem getElem?_neighbourOffsets {kh kw i j : Nat} (hi : i < kh) (hj : j < kw) (hne : ¬(i = kh / 2 ∧ j = kw / 2)) :
    (neighbourOffsets kh kw)[if i * kw + j < kh / 2 * kw + kw / 2 then i * kw + j else i * kw + j - 1]? =
      some (i, j) := by
  have hkw : kw / 2 < kw := Nat.div_lt_self (by omega) one_lt_two
  have hpassed : i * kw + j ≠ kh / 2 * kw + kw / 2 := fun h => hne (raster_inj hj hkw h)
  rw [neighbourOffsets_eq_eraseIdx (by omega) (by omega), List.getElem?_eraseIdx]
  split
  · rw [getElem?_windowCells hi hj]
  · rw [if_neg (by omega), Nat.sub_add_cancel (by omega), getElem?_windowCells hi hj]

/-! ### The descriptor -/

/-- The comparison bits of a window, first to last (R110). -/
def comparisonBits (c : ConfigRegs) (img : Nat → Nat → Nat) (y x : Nat) : List Bool :=
  (neighbours c y x).map fun p => decide (img p.1 p.2 < img y x)

/-- The census of an interior pixel packs its comparison bits, and that of any other is the sentinel (R110, R112). -/
theorem census_eq (c : ConfigRegs) (img : Nat → Nat → Nat) (y x : Nat) :
    census c img y x = if c.interior y x then packBits (comparisonBits c img y x) else 0 := rfl

/-- A window is compared N times. -/
theorem length_comparisonBits {c : ConfigRegs} (hkh : 0 < c.kernelH) (hkw : 0 < c.kernelW) (img : Nat → Nat → Nat)
    (y x : Nat) : (comparisonBits c img y x).length = descriptorBits c := by
  rw [comparisonBits, neighbours, List.length_map, List.length_map, length_neighbourOffsets hkh hkw]

/-- The packed comparison with the neighbour at offset (i, j) is the descriptor's bit of that neighbour (R111). -/
theorem testBit_packBits_comparisonBits (c : ConfigRegs) (img : Nat → Nat → Nat) (y x : Nat) {i j : Nat}
    (hi : i < c.kernelH) (hj : j < c.kernelW) (hne : ¬(i = c.halfH ∧ j = c.halfW)) :
    (packBits (comparisonBits c img y x)).testBit (descriptorBit c i j) =
      decide (img (y - c.halfH + i) (x - c.halfW + j) < img y x) := by
  rw [descriptorBit, ← length_comparisonBits (by omega) (by omega) img y x]
  refine testBit_packBits_of_getElem? ?_
  rw [comparisonBits, neighbours, List.map_map, List.getElem?_map, ConfigRegs.halfH, ConfigRegs.halfW,
    getElem?_neighbourOffsets hi hj hne]
  rfl

/-- The packed comparisons of a window have N bits (R110). -/
theorem packBits_comparisonBits_lt {c : ConfigRegs} (hkh : 0 < c.kernelH) (hkw : 0 < c.kernelW)
    (img : Nat → Nat → Nat) (y x : Nat) : packBits (comparisonBits c img y x) < 2 ^ descriptorBits c := by
  rw [← length_comparisonBits hkh hkw img y x]
  exact packBits_lt _

/-- The census of R110 is the descriptor of R111 and R112. -/
theorem isDescriptor_census {c : ConfigRegs} (h : ParametersLegal c) (img : Nat → Nat → Nat) (y x : Nat) :
    IsDescriptor c img y x (census c img y x) := by
  obtain ⟨-, -, -, -, hkh, hkw, -⟩ := h
  simp only [IsDescriptor, census_eq, ← c.interior_iff]
  split
  · exact ⟨packBits_comparisonBits_lt (by omega) (by omega) img y x,
      fun _ hi _ hj hne => testBit_packBits_comparisonBits c img y x hi hj hne⟩
  · rfl

/-- A descriptor fits its element of eight bytes (R64, R247). -/
theorem census_lt {c : ConfigRegs} (h : ParametersLegal c) (img : Nat → Nat → Nat) (y x : Nat) :
    census c img y x < 256 ^ 8 := by
  obtain ⟨-, -, -, -, hkh, hkw, hbits, -⟩ := h
  rw [census_eq]
  split
  · calc packBits (comparisonBits c img y x) < 2 ^ descriptorBits c :=
          packBits_comparisonBits_lt (by omega) (by omega) img y x
      _ ≤ 2 ^ 64 := Nat.pow_le_pow_right two_pos (by rw [descriptorBits]; omega)
      _ = 256 ^ 8 := by norm_num
  · norm_num

/-- The census depends on its comparisons with the centre only. -/
theorem census_eq_of_compare {c : ConfigRegs} {img img' : Nat → Nat → Nat} {y x : Nat}
    (h : ∀ y' x', img y' x' < img y x ↔ img' y' x' < img' y x) : census c img y x = census c img' y x := by
  simp only [census, h]

end Sys2Proof.Machine
end

section
/-!
SUPPORT. Commands that write one element a pixel (20_memory.md R66, 70_reset_and_hazards.md R288): their completion, the
elements they leave, and what they leave alone.
-/

namespace Sys2Proof.Machine

open Sys2Proof

/-- A legal command whose body finds its inputs written and gives pixel (y, x) of its output the value f y x completes; the
elements hold those values, and every byte outside the output is unchanged. -/
theorem completes_of_pixelStores {i : Instr} {b : Buffer} {s : State} {f : Nat → Nat → Nat} (hlegal : Legal i s)
    (hi : i ≠ .nop) (hwrites : Instr.writes i = [b])
    (hbody : bodyOf i s.cfg s.mem = some (Memory.storeAll s.mem (pixelStores s.cfg b f))) :
    ∃ m, Completes i s m ∧
      (∀ y < s.cfg.height, ∀ x < s.cfg.width, s.cfg.hasPixel m b y x = true ∧
        s.cfg.pixel m b y x = f y x % 256 ^ b.elemBytes) ∧
      SameOutside [s.cfg.region b] s.mem m := by
  refine ⟨Memory.storeAll s.mem (pixelStores s.cfg b f), ?_,
    fun y hy x hx => s.cfg.pixel_storeAll s.mem b f hy hx, ?_⟩
  · rw [Completes, exec_eq_perform hi]
    exact perform_of_legal hlegal hbody
  · simpa [hwrites] using (storesInto_bodyOf hbody).sameOutside

/-- CENSUS_L and CENSUS_R: the descriptors of the image `src` are left in the map `dst` (R113, R114). -/
theorem completes_census {i : Instr} {src dst : Buffer} {s : State} (hlegal : Legal i s)
    (hsamples : CensusSamplesWritten s.cfg s.mem src) (hi : i ≠ .nop) (hbytes : dst.elemBytes = 8)
    (hwrites : Instr.writes i = [dst]) (hbody : bodyOf i = (censusPass src dst).body) :
    ∃ m, Completes i s m ∧
      (∀ y < s.cfg.height, ∀ x < s.cfg.width, s.cfg.hasPixel m dst y x = true ∧
        IsDescriptor s.cfg (s.cfg.pixel s.mem src) y x (s.cfg.pixel m dst y x)) ∧
      SameOutside [s.cfg.region dst] s.mem m := by
  have hstores : bodyOf i s.cfg s.mem =
      some (Memory.storeAll s.mem (pixelStores s.cfg dst (census s.cfg (s.cfg.pixel s.mem src)))) := by
    rw [hbody]
    exact Memory.transform_eq_some.2 ⟨censusReadable_iff.2 hsamples, rfl⟩
  obtain ⟨m, hcompletes, hpixels, houtside⟩ := completes_of_pixelStores hlegal hi hwrites hstores
  obtain ⟨hparameters, -⟩ := hlegal
  refine ⟨m, hcompletes, fun y hy x hx => ?_, houtside⟩
  obtain ⟨hwritten, hvalue⟩ := hpixels y hy x hx
  rw [hvalue, hbytes, Nat.mod_eq_of_lt (census_lt hparameters _ y x)]
  exact ⟨hwritten, isDescriptor_census hparameters _ y x⟩

end Sys2Proof.Machine

namespace Sys2Proof.Proofs

open Sys2Proof Sys2Proof.Machine

/-- Settles O35: CENSUS_L stores the census of IMG_L at every pixel of CEN_L, and the census is the descriptor. -/
theorem censusLWritesLeftDescriptors : Obligations.CensusLWritesLeftDescriptors :=
  fun _ hlegal hsamples => completes_census hlegal hsamples (by decide) rfl rfl rfl

/-- Settles O36: CENSUS_R does the same from IMG_R to CEN_R. -/
theorem censusRWritesRightDescriptors : Obligations.CensusRWritesRightDescriptors :=
  fun _ hlegal hsamples => completes_census hlegal hsamples (by decide) rfl rfl rfl

/-- Settles O37: a strictly increasing f keeps the order of any two samples, and the census compares samples only. -/
theorem censusIsInvariantUnderMonotoneChange : Obligations.CensusIsInvariantUnderMonotoneChange := by
  intro c img f hf hsample y x
  have hmono : StrictMonoOn f (Set.Iic 255) := fun a ha b hb hab => hf a b ha hb hab
  exact census_eq_of_compare fun y' x' => hmono.lt_iff_lt (hsample y' x') (hsample y x)

end Sys2Proof.Proofs
end

section
/-!
SUPPORT. The Hamming distance (41_cost.md R130): its bounds, and the loop that clears the lowest set bit.
-/

namespace Sys2Proof.Machine

open Sys2Proof

/-- The popcount of R10 as the number of bit positions below 64 that hold a 1. -/
theorem popcount64_eq_count (v : Nat) : popcount64 v = Nat.count (fun i => v.testBit i = true) 64 := by
  simp [popcount64, Nat.count]

/-- A 64-bit value has at most 64 one bits. -/
theorem popcount64_le (v : Nat) : popcount64 v ≤ 64 := by
  rw [popcount64_eq_count]
  exact Nat.count_le _

/-- A value below 2^n has at most n one bits. -/
theorem popcount64_le_of_lt {v n : Nat} (h : v < 2 ^ n) : popcount64 v ≤ n := by
  rw [popcount64_eq_count, Nat.count_eq_card_filter_range]
  refine (Finset.card_le_card fun i hi => Finset.mem_range.2 ?_).trans (Finset.card_range n).le
  by_contra! hni
  have hzero : v.testBit i = false := Nat.testBit_lt_two_pow (h.trans_le (Nat.pow_le_pow_right two_pos hni))
  simp [hzero] at hi

/-- The one bits of 2·n + b are b and those of n, one place up. -/
theorem count_testBit_bit (b : Bool) (n w : Nat) :
    Nat.count (fun i => (Nat.bit b n).testBit i = true) (w + 1) =
      Nat.count (fun i => n.testBit i = true) w + b.toNat := by
  simp only [Nat.count_succ', Nat.testBit_bit_succ, Nat.testBit_bit_zero]
  cases b <;> rfl

/-- z and (z − 1) has one bit fewer than z: the recursion peels off the zeros below the lowest one bit (R130). -/
theorem count_testBit_and_pred {w z : Nat} (hz : z < 2 ^ w) (hne : z ≠ 0) :
    Nat.count (fun i => z.testBit i = true) w = Nat.count (fun i => (z &&& (z - 1)).testBit i = true) w + 1 := by
  induction w generalizing z with
  | zero => omega
  | succ w ih =>
    obtain ⟨b, n, rfl⟩ : ∃ b n, z = Nat.bit b n := ⟨_, _, (Nat.bit_bodd_div2 z).symm⟩
    cases b with
    | true =>
      have hpred : Nat.bit true n - 1 = Nat.bit false n := by simp [Nat.bit_val]
      rw [hpred, Nat.land_bit, Nat.and_self, count_testBit_bit, count_testBit_bit]
      rfl
    | false =>
      simp only [Nat.bit_val, Bool.toNat_false] at hz hne
      have hpred : Nat.bit false n - 1 = Nat.bit true (n - 1) := by
        simp only [Nat.bit_val, Bool.toNat_false, Bool.toNat_true]
        omega
      rw [hpred, Nat.land_bit, count_testBit_bit, count_testBit_bit, ih (by omega) (by omega)]
      rfl

/-- Clearing the lowest one bit takes one off the popcount (R130). -/
theorem popcount64_and_pred {z : Nat} (hz : z < 2 ^ 64) (hne : z ≠ 0) :
    popcount64 z = popcount64 (z &&& (z - 1)) + 1 := by
  simp only [popcount64_eq_count]
  exact count_testBit_and_pred hz hne

/-- Two values differ in at most 64 of their low 64 bits (R130). -/
theorem hamming_le (a b : Nat) : hamming a b ≤ 64 := popcount64_le _

/-- Two values of n bits differ in at most n bits. -/
theorem hamming_le_of_lt {a b n : Nat} (ha : a < 2 ^ n) (hb : b < 2 ^ n) : hamming a b ≤ n :=
  popcount64_le_of_lt (Nat.xor_lt_two_pow ha hb)

/-- A value differs from itself in no bit. -/
@[simp] theorem hamming_self (a : Nat) : hamming a a = 0 := by
  rw [hamming, Nat.xor_self]
  rfl

end Sys2Proof.Machine
end

section
/-!
SUPPORT. Completion of any command with its body's data space (70_reset_and_hazards.md R288), and what it leaves alone
(20_memory.md R66).
-/

namespace Sys2Proof.Machine

open Sys2Proof

/-- A legal command whose body finds its inputs written completes with the body's data space, and every byte outside the
buffers it writes is unchanged (R66, R288). -/
theorem completes_of_body {i : Instr} {s : State} {m : Memory} (hlegal : Legal i s) (hi : i ≠ .nop)
    (hbody : bodyOf i s.cfg s.mem = some m) :
    Completes i s m ∧ SameOutside ((Instr.writes i).map s.cfg.region) s.mem m :=
  ⟨(exec_eq_perform hi s).trans (perform_of_legal hlegal hbody), (storesInto_bodyOf hbody).sameOutside⟩

end Sys2Proof.Machine
end

section
/-!
SUPPORT. The cost volume (41_cost.md R131 to R135): the value of a cell, and COST's completion with every cell of the volume
written.
-/

namespace Sys2Proof.Machine

open Sys2Proof

/-- The clamp of R132 with natural subtraction: a column left of 0 is clamped to c like one at 0. -/
theorem rightColumn_eq_max (c : ConfigRegs) (x d : Nat) : rightColumn c x d = max (x - d) c.halfW := by
  simp only [rightColumn]
  omega

/-- The cost of R131 and R134 with the interior and the clamp in natural numbers. -/
theorem matchCost_eq (c : ConfigRegs) (left right : Nat → Nat → Nat) (y x d : Nat) :
    matchCost c left right y x d =
      if c.halfH ≤ y ∧ y + c.halfH < c.height ∧ c.halfW ≤ x ∧ x + c.halfW < c.width then
        hamming (left y x) (right y (max (x - d) c.halfW))
      else 0 := by
  simp only [matchCost, ConfigRegs.interior_iff, rightColumn_eq_max]

/-- At disparity 0 an interior pixel is compared with the same column (R132, R135). -/
theorem rightColumn_zero {c : ConfigRegs} {y x : Nat} (hin : c.interior y x = true) : rightColumn c x 0 = x := by
  obtain ⟨-, -, hx, -⟩ := (c.interior_iff y x).1 hin
  rw [rightColumn_eq_max, Nat.sub_zero, max_eq_left hx]

/-- An interior pixel's cost (R131). -/
theorem matchCost_of_interior {c : ConfigRegs} {y x : Nat} (hin : c.interior y x = true) (left right : Nat → Nat → Nat)
    (d : Nat) : matchCost c left right y x d = hamming (left y x) (right y (rightColumn c x d)) := if_pos hin

/-- The sentinel cost of the border band (R134). -/
theorem matchCost_of_border {c : ConfigRegs} {y x : Nat} (hout : ¬c.interior y x = true) (left right : Nat → Nat → Nat)
    (d : Nat) : matchCost c left right y x d = 0 := if_neg hout

/-- A cost is at most 64 (R130, R133). -/
theorem matchCost_le (c : ConfigRegs) (left right : Nat → Nat → Nat) (y x d : Nat) :
    matchCost c left right y x d ≤ 64 := by
  by_cases hin : c.interior y x = true
  · rw [matchCost_of_interior hin]
    exact hamming_le _ _
  · simp [matchCost_of_border hin]

/-- Over interior descriptors of n bits a cost is at most n (R133). -/
theorem matchCost_le_of_lt {c : ConfigRegs} {left right : Nat → Nat → Nat} {n : Nat}
    (h : ∀ y x, c.interior y x = true → left y x < 2 ^ n ∧ right y x < 2 ^ n) (y x d : Nat) :
    matchCost c left right y x d ≤ n := by
  by_cases hin : c.interior y x = true
  · rw [matchCost_of_interior hin]
    exact hamming_le_of_lt (h y x hin).1 (h y _ (interior_rightColumn hin d)).2
  · simp [matchCost_of_border hin]

/-- Where the two descriptors of a pixel are equal, its cost at disparity 0 is 0 (R135). -/
theorem matchCost_zero_of_eq {c : ConfigRegs} {left right : Nat → Nat → Nat} {y x : Nat} (h : left y x = right y x) :
    matchCost c left right y x 0 = 0 := by
  by_cases hin : c.interior y x = true
  · rw [matchCost_of_interior hin, rightColumn_zero hin, h, hamming_self]
  · exact matchCost_of_border hin left right 0

/-- An interior row lies in the image (R14). -/
theorem lt_height_of_interior {c : ConfigRegs} {y x : Nat} (hin : c.interior y x = true) : y < c.height := by
  obtain ⟨-, h, -⟩ := (c.interior_iff y x).1 hin
  omega

/-- Two cells of the volume at one address are the same cell (R71). -/
theorem ConfigRegs.costAddr_inj {c : ConfigRegs} {y x d y' x' d' : Nat} (hx : x < c.width) (hx' : x' < c.width)
    (hd : d < c.disparities) (hd' : d' < c.disparities) (h : c.costAddr y x d = c.costAddr y' x' d') :
    y = y' ∧ x = x' ∧ d = d' := by
  obtain ⟨hpixel, rfl⟩ := raster_inj hd hd' (Nat.add_left_cancel h)
  obtain ⟨rfl, rfl⟩ := raster_inj hx hx' hpixel
  exact ⟨rfl, rfl, rfl⟩

/-- After COST's stores each cell of the volume is written and reads as its cost (R131). -/
theorem costAt_storeAll_costStores (c : ConfigRegs) (m : Memory) {y x d : Nat} (hy : y < c.height) (hx : x < c.width)
    (hd : d < c.disparities) :
    c.hasCost (Memory.storeAll m (costStores c m)) y x d = true ∧
    c.costAt (Memory.storeAll m (costStores c m)) y x d = matchCost c (c.pixel m .cenL) (c.pixel m .cenR) y x d := by
  have hfits : matchCost c (c.pixel m .cenL) (c.pixel m .cenR) y x d % 256 ^ 1 =
      matchCost c (c.pixel m .cenL) (c.pixel m .cenR) y x d :=
    Nat.mod_eq_of_lt ((matchCost_le c _ _ y x d).trans_lt (by norm_num))
  rw [← hfits]
  refine Memory.memRead_of_bytes fun i hi => Memory.byte?_storeAll_covered
    ⟨_, mem_costStores.2 ⟨y, hy, x, hx, d, hd, rfl⟩, Nat.le_add_right _ _, Nat.add_lt_add_left hi _⟩
    fun st hst hcov => ?_
  obtain ⟨y', -, x', hx', d', hd', rfl⟩ := mem_costStores.1 hst
  have haddr : c.costAddr y' x' d' = c.costAddr y x d := by
    dsimp only at hcov
    omega
  obtain ⟨rfl, rfl, rfl⟩ := ConfigRegs.costAddr_inj hx' hx hd' hd haddr
  rw [Nat.add_sub_cancel_left]

/-- COST leaves the cost of every pixel and disparity in its volume, and every byte outside it alone (R131). -/
theorem completes_cost {s : State} (hlegal : Legal .cost s) (hdescriptors : DescriptorsWritten s.cfg s.mem) :
    ∃ m, Completes .cost s m ∧
      (∀ y < s.cfg.height, ∀ x < s.cfg.width, ∀ d < s.cfg.disparities, s.cfg.hasCost m y x d = true ∧
        s.cfg.costAt m y x d = matchCost s.cfg (s.cfg.pixel s.mem .cenL) (s.cfg.pixel s.mem .cenR) y x d) ∧
      SameOutside [s.cfg.region .cost] s.mem m := by
  obtain ⟨hcompletes, houtside⟩ := completes_of_body hlegal (by decide)
    (Memory.transform_eq_some.2 ⟨costReadable_of_descriptorsWritten hdescriptors, rfl⟩)
  exact ⟨_, hcompletes, fun y hy x hx d hd => costAt_storeAll_costStores s.cfg s.mem hy hx hd, houtside⟩

end Sys2Proof.Machine

namespace Sys2Proof.Proofs

open Sys2Proof Sys2Proof.Machine

/-- Settles O38: the distance is the popcount of the xor by definition, and clearing the lowest one bit takes one off it. -/
theorem hammingCountsClearedBits : Obligations.HammingCountsClearedBits := by
  refine ⟨fun a _ b _ => ⟨rfl, hamming_le a b⟩, fun z hz => ?_⟩
  split
  · next hzero => rw [hzero]; rfl
  · next hne => exact popcount64_and_pred hz hne

/-- Settles O39: the cells COST leaves, with the interior and the clamp of the right column in natural numbers. -/
theorem costWritesTheHammingVolume : Obligations.CostWritesTheHammingVolume := by
  intro s hlegal hdescriptors
  obtain ⟨m, hcompletes, hcosts, houtside⟩ := completes_cost hlegal hdescriptors
  refine ⟨m, hcompletes, fun y hy x hx d hd => ?_, houtside⟩
  obtain ⟨hwritten, hcost⟩ := hcosts y hy x hx d hd
  rw [hcost]
  exact ⟨hwritten, matchCost_le _ _ _ y x d, matchCost_eq _ _ _ y x d⟩

/-- Settles O40: descriptors of N bits differ in at most N bits, in memory as over any two maps. -/
theorem costsOfDescriptorsAreAtMostN : Obligations.CostsOfDescriptorsAreAtMostN := by
  refine ⟨fun s hlegal hdescriptors hbits => ?_, fun c left right hbits => matchCost_le_of_lt hbits⟩
  obtain ⟨m, hcompletes, hcosts, -⟩ := completes_cost hlegal hdescriptors
  refine ⟨m, hcompletes, fun y hy x hx d hd => ?_⟩
  obtain ⟨hwritten, hcost⟩ := hcosts y hy x hx d hd
  rw [hcost]
  exact ⟨hwritten, matchCost_le_of_lt
    (fun y x hin => hbits y (lt_height_of_interior hin) x (lt_width_of_interior hin) hin) y x d⟩

/-- Settles O41: at disparity 0 each interior descriptor is compared with its equal, and the border band costs 0. -/
theorem identicalDescriptorsCostZeroAtDisparityZero : Obligations.IdenticalDescriptorsCostZeroAtDisparityZero := by
  intro s hlegal hdescriptors hequal
  obtain ⟨m, hcompletes, hcosts, -⟩ := completes_cost hlegal hdescriptors
  obtain ⟨⟨-, -, -, hdisparities, -⟩, -⟩ := hlegal
  refine ⟨m, hcompletes, fun y hy x hx => ?_⟩
  rw [(hcosts y hy x hx 0 hdisparities).2, matchCost_zero_of_eq (hequal y hy x hx)]

end Sys2Proof.Proofs
end

section
/-!
SUPPORT. The path recurrence (42_aggregate.md R150, R151, R159 to R161): the running and the inner minimum, the vectors of a
slice by position, the short form of the inner minimum, and the recurrence without the guard.
-/

namespace Sys2Proof.Machine

open Sys2Proof

/-! ### The least element -/

/-- The element at a position of a list is in the list. -/
theorem getD_mem {α : Type} {l : List α} {i : Nat} (h : i < l.length) (a : α) : l.getD i a ∈ l :=
  List.getD_eq_getElem l a h ▸ List.getElem_mem h

/-- The least element of a non-empty list is one of its elements. -/
theorem minOf_mem {l : List Nat} (h : l ≠ []) : minOf l ∈ l := by
  rw [minOf, List.min?_eq_some_min h, Option.getD_some]
  exact List.min_mem h

/-- No element of a list lies below its least. -/
theorem minOf_le {l : List Nat} {v : Nat} (h : v ∈ l) : minOf l ≤ v := by
  have hne : l ≠ [] := List.ne_nil_of_mem h
  rw [minOf, List.min?_eq_some_min hne, Option.getD_some]
  exact List.min_le_of_mem h

/-- A bound below every element of a non-empty list lies below its least. -/
theorem le_minOf {l : List Nat} {b : Nat} (hne : l ≠ []) (h : ∀ v ∈ l, b ≤ v) : b ≤ minOf l :=
  h _ (minOf_mem hne)

/-- A monotone map takes the least element to the least element. -/
theorem minOf_map {l : List Nat} {f : Nat → Nat} (hf : Monotone f) (hne : l ≠ []) :
    minOf (l.map f) = f (minOf l) := by
  refine le_antisymm (minOf_le (List.mem_map_of_mem (minOf_mem hne))) (le_minOf (by simpa using hne) fun v hv => ?_)
  obtain ⟨u, hu, rfl⟩ := List.mem_map.1 hv
  exact hf (minOf_le hu)

/-- The least element as the least value over the list's positions. -/
theorem isLeastOver_minOf {l : List Nat} (h : l ≠ []) :
    IsLeastOver l.length (fun d => l.getD d 0) (minOf l) := by
  obtain ⟨d, hd, hmin⟩ := List.getElem_of_mem (minOf_mem h)
  refine ⟨⟨d, hd, by simpa [hd] using hmin⟩, fun d hd => minOf_le ?_⟩
  simp [hd]

/-- The least value depends on the values below n only. -/
theorem isLeastOver_congr {n v : Nat} {f g : Nat → Nat} (h : ∀ d < n, f d = g d) :
    IsLeastOver n f v ↔ IsLeastOver n g v := by
  refine and_congr (exists_congr fun d => and_congr_right fun hd => ?_) (forall₂_congr fun d hd => ?_)
  · rw [h d hd]
  · rw [h d hd]

/-! ### The penalised vector -/

/-- The penalty of R150 for two neighbours, or any two disparities, is at most P2 where P1 ≤ P2. -/
theorem penalty_le {p1 p2 : Nat} (h : p1 ≤ p2) (d d' : Nat) : penalty p1 p2 d d' ≤ p2 := by
  simp only [penalty]
  split_ifs <;> omega

/-- The penalty of R150 by distance. -/
theorem penalty_eq_pathPenalty (c : ConfigRegs) (d d' : Nat) :
    penalty c.penalty1 c.penalty2 d d' = pathPenalty c d d' := by
  simp only [penalty, pathPenalty]
  split_ifs <;> omega

/-- The terms L[d'] + pen(d, d') of the inner minimum of R151, d' in 0 .. D−1. -/
def penalised (p1 p2 : Nat) (prev : List Nat) (d : Nat) : List Nat :=
  prev.zipIdx.map fun e => e.1 + penalty p1 p2 d e.2

/-- There is one term a disparity. -/
@[simp] theorem length_penalised (p1 p2 : Nat) (prev : List Nat) (d : Nat) :
    (penalised p1 p2 prev d).length = prev.length := by
  simp [penalised]

/-- There is no term only where there is no disparity. -/
@[simp] theorem penalised_eq_nil {p1 p2 : Nat} {prev : List Nat} {d : Nat} :
    penalised p1 p2 prev d = [] ↔ prev = [] := by
  simp [penalised]

/-- The term of d' in the inner minimum. -/
theorem getD_penalised (p1 p2 : Nat) {prev : List Nat} (d : Nat) {d' : Nat} (h : d' < prev.length) :
    (penalised p1 p2 prev d).getD d' 0 = prev.getD d' 0 + penalty p1 p2 d d' := by
  simp [penalised, h]

/-- The inner minimum of R151 as the least over the disparities. -/
theorem isLeastOver_minOf_penalised (p1 p2 : Nat) {prev : List Nat} (h : prev ≠ []) (d : Nat) :
    IsLeastOver prev.length (fun d' => prev.getD d' 0 + penalty p1 p2 d d') (minOf (penalised p1 p2 prev d)) := by
  have hleast := isLeastOver_minOf (mt penalised_eq_nil.1 h : penalised p1 p2 prev d ≠ [])
  rw [length_penalised] at hleast
  exact (isLeastOver_congr fun d' hd' => getD_penalised p1 p2 d hd').1 hleast

/-- The inner minimum is at least the running minimum, so the subtraction of R151 never goes below 0 (R160). -/
theorem minOf_le_minOf_penalised (p1 p2 : Nat) (prev : List Nat) (d : Nat) :
    minOf prev ≤ minOf (penalised p1 p2 prev d) := by
  by_cases h : prev = []
  · subst h; rfl
  · obtain ⟨⟨d', hd', heq⟩, -⟩ := isLeastOver_minOf_penalised p1 p2 h d
    have hmin := (isLeastOver_minOf h).2 d' hd'
    dsimp only at hmin heq
    omega

/-- The inner minimum is at most the running minimum and P2 (R160). -/
theorem minOf_penalised_le {p1 p2 : Nat} (hp : p1 ≤ p2) (prev : List Nat) (d : Nat) :
    minOf (penalised p1 p2 prev d) ≤ minOf prev + p2 := by
  by_cases h : prev = []
  · subst h; exact Nat.zero_le _
  · obtain ⟨⟨d', hd', heq⟩, -⟩ := isLeastOver_minOf h
    have hterm := (isLeastOver_minOf_penalised p1 p2 h d).2 d' hd'
    have hpen := penalty_le hp d d'
    dsimp only at hterm heq
    omega

/-- R151 without subtraction: L_i[d] + m = C_i[d] + min over d' of (L_(i−1)[d'] + pen(d, d')). -/
theorem getD_nextPath_add_minOf (p1 p2 : Nat) (prev : List Nat) {cost : List Nat} {d : Nat} (hd : d < cost.length) :
    (nextPath p1 p2 prev cost).getD d 0 + minOf prev = cost.getD d 0 + minOf (penalised p1 p2 prev d) := by
  have hmin := minOf_le_minOf_penalised p1 p2 prev d
  have hnext : (nextPath p1 p2 prev cost).getD d 0 =
      cost.getD d 0 + minOf (penalised p1 p2 prev d) - minOf prev := by
    simp [nextPath, penalised, hd]
  omega

/-! ### The vectors of a slice -/

/-- Each vector of a slice after its first comes from the one before it and its costs (R151). -/
theorem getD_pathFrom (p1 p2 : Nat) (prev : List Nat) (costs : List (List Nat)) (i : Nat) :
    (pathFrom p1 p2 prev costs).getD i [] =
      nextPath p1 p2 ((prev :: pathFrom p1 p2 prev costs).getD i []) (costs.getD i []) := by
  induction costs generalizing prev i with
  | nil => rfl
  | cons cost rest ih =>
    cases i with
    | zero => rfl
    | succ i => simpa [pathFrom] using ih (nextPath p1 p2 prev cost) i

/-- A slice starts with its raw costs (R159). -/
theorem getD_pathCost_zero (p1 p2 : Nat) (costs : List (List Nat)) :
    (pathCost p1 p2 costs).getD 0 [] = costs.getD 0 [] := by
  cases costs <;> rfl

/-- PathCost at position i + 1 comes from position i (R151). -/
theorem getD_pathCost_succ (p1 p2 : Nat) (costs : List (List Nat)) (i : Nat) :
    (pathCost p1 p2 costs).getD (i + 1) [] =
      nextPath p1 p2 ((pathCost p1 p2 costs).getD i []) (costs.getD (i + 1) []) := by
  cases costs with
  | nil => rfl
  | cons cost rest => exact getD_pathFrom p1 p2 cost rest i

/-- A slice's vectors are as long as its cost vectors. -/
theorem length_getD_pathCost (p1 p2 : Nat) (costs : List (List Nat)) (i : Nat) :
    ((pathCost p1 p2 costs).getD i []).length = (costs.getD i []).length := by
  cases i with
  | zero => rw [getD_pathCost_zero]
  | succ i => rw [getD_pathCost_succ, length_nextPath]

/-- R160: a path cost after the slice's start lies between the cost and the cost plus P2. -/
theorem entry_pathCost_succ_bounds {p1 p2 : Nat} (hp : p1 ≤ p2) {costs : List (List Nat)} {i d : Nat}
    (hd : d < (costs.getD (i + 1) []).length) :
    entry costs (i + 1) d ≤ entry (pathCost p1 p2 costs) (i + 1) d ∧
      entry (pathCost p1 p2 costs) (i + 1) d ≤ entry costs (i + 1) d + p2 := by
  have hstep := getD_nextPath_add_minOf p1 p2 ((pathCost p1 p2 costs).getD i []) hd
  have hlow := minOf_le_minOf_penalised p1 p2 ((pathCost p1 p2 costs).getD i []) d
  have hhigh := minOf_penalised_le hp ((pathCost p1 p2 costs).getD i []) d
  rw [entry, entry, getD_pathCost_succ]
  omega

/-- So does every path cost, the slice's start among them. -/
theorem entry_pathCost_le {p1 p2 : Nat} (hp : p1 ≤ p2) {costs : List (List Nat)} {i d : Nat}
    (hd : d < (costs.getD i []).length) : entry (pathCost p1 p2 costs) i d ≤ entry costs i d + p2 := by
  cases i with
  | zero => rw [entry, getD_pathCost_zero]; exact Nat.le_add_right _ _
  | succ i => exact (entry_pathCost_succ_bounds hp hd).2

/-! ### The short form -/

/-- The terms of the short form of the inner minimum (R161). -/
def shortTerms (p1 p2 : Nat) (prev : List Nat) (d : Nat) : List Nat :=
  [prev.getD d 0, minOf prev + p2] ++ (if 1 ≤ d then [prev.getD (d - 1) 0 + p1] else []) ++
    (if d + 1 < prev.length then [prev.getD (d + 1) 0 + p1] else [])

/-- The four terms, those of the neighbours d − 1 and d + 1 only inside 0 .. D−1. -/
theorem mem_shortTerms {p1 p2 : Nat} {prev : List Nat} {d v : Nat} :
    v ∈ shortTerms p1 p2 prev d ↔ v = prev.getD d 0 ∨ v = minOf prev + p2 ∨
      (1 ≤ d ∧ v = prev.getD (d - 1) 0 + p1) ∨ (d + 1 < prev.length ∧ v = prev.getD (d + 1) 0 + p1) := by
  simp only [shortTerms, List.mem_append, List.mem_cons, List.mem_ite_nil_right, List.not_mem_nil, or_false, or_assoc]

/-- R161: the inner minimum over all d' is that over d, its neighbours and m + P2. -/
theorem minOf_penalised_eq_minOf_shortTerms {p1 p2 : Nat} (hp : p1 ≤ p2) {prev : List Nat} {d : Nat}
    (hd : d < prev.length) : minOf (penalised p1 p2 prev d) = minOf (shortTerms p1 p2 prev d) := by
  have hne : prev ≠ [] := List.ne_nil_of_length_pos (by omega)
  obtain ⟨⟨d', hd', hstep⟩, hterm⟩ := isLeastOver_minOf_penalised p1 p2 hne d
  refine le_antisymm (le_minOf (by simp [shortTerms]) fun v hv => ?_) ?_
  · have hle (e pen : Nat) (he : e < prev.length) (hpen : penalty p1 p2 d e = pen) :
        minOf (penalised p1 p2 prev d) ≤ prev.getD e 0 + pen := hpen ▸ hterm e he
    obtain rfl | rfl | ⟨h, rfl⟩ | ⟨h, rfl⟩ := mem_shortTerms.1 hv
    · exact hle d 0 hd (by simp [penalty])
    · exact minOf_penalised_le hp prev d
    · exact hle (d - 1) p1 (by omega) (by simp only [penalty]; split_ifs <;> omega)
    · exact hle (d + 1) p1 h (by simp [penalty])
  · have hge {v : Nat} (hv : v = _ ∨ _) : minOf (shortTerms p1 p2 prev d) ≤ v := minOf_le (mem_shortTerms.2 hv)
    have hmin : minOf prev ≤ prev.getD d' 0 := (isLeastOver_minOf hne).2 d' hd'
    rw [← hstep]
    simp only [penalty]
    split_ifs with hsame hnear
    · exact hge (.inl (by rw [hsame, Nat.add_zero]))
    · obtain rfl | rfl := hnear
      · exact hge (.inr (.inr (.inr ⟨hd', rfl⟩)))
      · exact hge (.inr (.inr (.inl ⟨by omega, rfl⟩)))
    · exact (hge (.inr (.inl rfl))).trans (Nat.add_le_add_right hmin p2)

/-! ### The recurrence without the guard -/

/-- A step of the recurrence without the subtraction (R161). -/
def plainNext (p1 p2 : Nat) (prev cost : List Nat) : List Nat :=
  cost.zipIdx.map fun e => e.1 + minOf (penalised p1 p2 prev e.2)

/-- The recurrence without the guard, a step at a time (R161). -/
theorem plainFrom_cons (p1 p2 : Nat) (prev cost : List Nat) (rest : List (List Nat)) :
    plainFrom p1 p2 prev (cost :: rest) =
      plainNext p1 p2 prev cost :: plainFrom p1 p2 (plainNext p1 p2 prev cost) rest := rfl

/-- From a vector that is higher by k at every disparity, the step without the guard ends higher by k + m (R161). -/
theorem plainNext_map_add (p1 p2 k : Nat) {prev : List Nat} (h : prev ≠ []) (cost : List Nat) :
    plainNext p1 p2 (prev.map (· + k)) cost = (nextPath p1 p2 prev cost).map (· + (k + minOf prev)) := by
  have hpen (d : Nat) : penalised p1 p2 (prev.map (· + k)) d = (penalised p1 p2 prev d).map (· + k) := by
    simp [penalised, List.zipIdx_map, Nat.add_right_comm]
  have hmin (d : Nat) : minOf (penalised p1 p2 (prev.map (· + k)) d) = minOf (penalised p1 p2 prev d) + k := by
    rw [hpen, minOf_map (f := (· + k)) add_left_mono (by simpa using h)]
  refine List.ext_getElem (by simp [plainNext]) fun d hd hd' => ?_
  have hcost : d < cost.length := by simpa [plainNext] using hd
  have hnext := getD_nextPath_add_minOf p1 p2 prev hcost
  rw [List.getD_eq_getElem _ _ (by simpa using hcost), List.getD_eq_getElem _ _ hcost] at hnext
  simp only [plainNext, List.getElem_map, List.getElem_zipIdx, hmin, Nat.zero_add]
  omega

/-- R161: along a slice the vectors without the guard are those with it, each raised by one amount. -/
theorem exists_getD_plainFrom (p1 p2 : Nat) {n : Nat} (hn : 1 ≤ n) (prev : List Nat) (costs : List (List Nat))
    (hprev : prev.length = n) (hcosts : ∀ c ∈ costs, c.length = n) (k i : Nat) :
    ∃ k', (plainFrom p1 p2 (prev.map (· + k)) costs).getD i [] =
      ((pathFrom p1 p2 prev costs).getD i []).map (· + k') := by
  induction costs generalizing prev k i with
  | nil => exact ⟨0, rfl⟩
  | cons cost rest ih =>
    obtain ⟨hcost, hrest⟩ := List.forall_mem_cons.1 hcosts
    have hstep := plainNext_map_add p1 p2 k (List.ne_nil_of_length_pos (by omega) : prev ≠ []) cost
    rw [plainFrom_cons, hstep]
    cases i with
    | zero => exact ⟨_, rfl⟩
    | succ i => exact ih (nextPath p1 p2 prev cost) (by rw [length_nextPath, hcost]) hrest _ i

/-- R161, from the slice's start. -/
theorem exists_getD_plainPathCost (p1 p2 : Nat) {n : Nat} (hn : 1 ≤ n) (costs : List (List Nat))
    (hcosts : ∀ c ∈ costs, c.length = n) (i : Nat) :
    ∃ k, (plainPathCost p1 p2 costs).getD i [] = ((pathCost p1 p2 costs).getD i []).map (· + k) := by
  cases costs with
  | nil => exact ⟨0, rfl⟩
  | cons cost rest =>
    obtain ⟨hcost, hrest⟩ := List.forall_mem_cons.1 hcosts
    cases i with
    | zero => exact ⟨0, by simp [plainPathCost, pathCost]⟩
    | succ i => simpa [plainPathCost, pathCost] using exists_getD_plainFrom p1 p2 hn cost rest hcost hrest 0 i

/-- The winner depends on the order of the values only (R191). -/
theorem winner_map {f : Nat → Nat} (hf : StrictMono f) (l : List Nat) : winner (l.map f) = winner l := by
  have hfold (ds : List Nat) (hds : ∀ d ∈ ds, d < l.length) (best : Nat) (hbest : best < l.length) :
      ds.foldl (fun best d => if (l.map f).getD d 0 < (l.map f).getD best 0 then d else best) best =
        ds.foldl (fun best d => if l.getD d 0 < l.getD best 0 then d else best) best := by
    induction ds generalizing best with
    | nil => rfl
    | cons d ds ih =>
      obtain ⟨hd, hds⟩ := List.forall_mem_cons.1 hds
      have hcompare : (l.map f).getD d 0 < (l.map f).getD best 0 ↔ l.getD d 0 < l.getD best 0 := by
        simp [hd, hbest, hf.lt_iff_lt]
      simp only [List.foldl_cons, hcompare]
      exact ih hds _ (by split_ifs <;> assumption)
  cases l with
  | nil => rfl
  | cons v l =>
    rw [winner, winner, List.length_map]
    exact hfold _ (fun d hd => by simp at hd ⊢; omega) 0 (Nat.zero_lt_succ _)

end Sys2Proof.Machine

namespace Sys2Proof.Proofs

open Sys2Proof Sys2Proof.Machine

/-- Settles O45: m ≤ inner minimum ≤ m + P2 at every step, and a slice starts at its costs. -/
theorem pathCostsStayInRange : Obligations.PathCostsStayInRange := by
  intro p1 p2 n costs hp hn hcosts i hi d hd
  have hmem : costs.getD i [] ∈ costs := getD_mem hi []
  have hlen : d < (costs.getD i []).length := hd.trans_eq (hcosts _ hmem).symm
  refine ⟨fun h1 => ?_, fun h255 hp2 => ?_⟩
  · obtain ⟨i, rfl⟩ := Nat.exists_eq_add_of_le' h1
    exact entry_pathCost_succ_bounds hp hlen
  · have hcost : entry costs i d ≤ 255 := h255 _ hmem _ (getD_mem hlen 0)
    have hle := entry_pathCost_le (costs := costs) hp hlen
    omega

/-- Settles O46: the vectors at a position differ by one amount, and raising every value keeps the winner. -/
theorem guardKeepsDifferencesAndArgmin : Obligations.GuardKeepsDifferencesAndArgmin := by
  intro p1 p2 n costs hn hcosts i hi
  obtain ⟨k, hk⟩ := exists_getD_plainPathCost p1 p2 hn costs hcosts i
  have hmem : costs.getD i [] ∈ costs := getD_mem hi []
  refine ⟨⟨k, fun d hd => ?_⟩, ?_⟩
  · have hlen : d < ((pathCost p1 p2 costs).getD i []).length := by
      rwa [length_getD_pathCost, hcosts _ hmem]
    rw [entry, entry, hk, List.getD_eq_getElem _ _ hlen, List.getD_eq_getElem _ _ (by rwa [List.length_map]),
      List.getElem_map]
  · rw [hk]
    exact winner_map (f := (· + k)) (add_left_strictMono) _

/-- Settles O47: the short form is a form of the inner minimum, whatever cost is added to it. -/
theorem innerMinimumHasTheShortForm : Obligations.InnerMinimumHasTheShortForm := by
  intro p1 p2 prev cost d hp hlen hd
  rw [getD_nextPath_add_minOf p1 p2 prev hd, minOf_penalised_eq_minOf_shortTerms hp (hlen ▸ hd), shortTerms]

end Sys2Proof.Proofs
end

section
/-!
SUPPORT. The slices of a direction as walks (42_aggregate.md R152 to R157): each goes by the direction's step from the edge of
the image, and no pixel lies on two of them.
-/

namespace Sys2Proof.Machine

open Sys2Proof

/-! ### Slices are disjoint -/

/-- Lists whose elements each tell which of the lists they belong to share no element. -/
theorem pairwise_disjoint_map {κ α : Type} {keys : List κ} {f : κ → List α} (key : α → κ) (hkeys : keys.Nodup)
    (hkey : ∀ k ∈ keys, ∀ a ∈ f k, key a = k) : (keys.map f).Pairwise List.Disjoint :=
  List.pairwise_map.2 <| hkeys.imp_of_mem fun hk hk' hne _ ha ha' =>
    hne ((hkey _ hk _ ha).symm.trans (hkey _ hk' _ ha'))

/-- No diagonal offset comes twice (R155). -/
theorem nodup_diagonalOffsets (h w : Nat) : (diagonalOffsets h w).Nodup :=
  List.nodup_range.map fun a b hab => by simpa using hab

/-- No pixel lies on two slices of a direction: its row, its column, x − y or x + y tells which slice it is on (R157). -/
theorem pairwise_disjoint_slices (dir : Direction) (h w : Nat) : (slices dir h w).Pairwise List.Disjoint := by
  cases dir with
  | e | w =>
    refine pairwise_disjoint_map (fun p => p.1) List.nodup_range fun y _ p hp => ?_
    obtain ⟨i, -, rfl⟩ := List.mem_map.1 hp
    rfl
  | s | n =>
    refine pairwise_disjoint_map (fun p => p.2) List.nodup_range fun x _ p hp => ?_
    obtain ⟨i, -, rfl⟩ := List.mem_map.1 hp
    rfl
  | se =>
    exact pairwise_disjoint_map (fun p => (p.2 : Int) - p.1) (nodup_diagonalOffsets h w)
      fun _ _ _ hp => (mem_diagonal.1 hp).2.2
  | nw =>
    exact pairwise_disjoint_map (fun p => (p.2 : Int) - p.1) (nodup_diagonalOffsets h w)
      fun _ _ _ hp => (mem_diagonalBack.1 hp).2.2
  | sw =>
    exact pairwise_disjoint_map (fun p => p.1 + p.2) List.nodup_range fun _ _ _ hp => (mem_antidiagonal.1 hp).2.2
  | ne =>
    exact pairwise_disjoint_map (fun p => p.1 + p.2) List.nodup_range fun _ _ _ hp => (mem_antidiagonalBack.1 hp).2.2

/-! ### Slices follow the step -/

/-- Position i of the list is the start and i steps of the direction (R152). -/
def WalksFrom (dir : Direction) (y x : Int) (ps : List (Nat × Nat)) : Prop :=
  ∀ (i : Nat) (p : Nat × Nat), ps[i]? = some p →
    (p.1 : Int) = y + i * (directionStep dir).1 ∧ (p.2 : Int) = x + i * (directionStep dir).2

/-- The pixel before (y, x) in a direction lies in the image. -/
abbrev PredecessorInside (dir : Direction) (h w : Nat) (y x : Int) : Prop :=
  0 ≤ y - (directionStep dir).1 ∧ y - (directionStep dir).1 < h ∧
    0 ≤ x - (directionStep dir).2 ∧ x - (directionStep dir).2 < w

/-- The walks that the slices' formulas describe. -/
theorem walksFrom_map_range {dir : Direction} {y x : Int} {n : Nat} {f : Nat → Nat × Nat}
    (hf : ∀ i < n, ((f i).1 : Int) = y + i * (directionStep dir).1 ∧ ((f i).2 : Int) = x + i * (directionStep dir).2) :
    WalksFrom dir y x ((List.range n).map f) := by
  intro i p hp
  obtain ⟨hi, rfl⟩ := List.getElem?_eq_some_iff.1 hp
  simpa using hf i (by simpa using hi)

/-- Every slice of a direction walks by its step from the edge of the image (R153 to R156). -/
theorem exists_walksFrom_of_mem_slices {dir : Direction} {h w : Nat} {ps : List (Nat × Nat)}
    (hps : ps ∈ slices dir h w) : ∃ y x, WalksFrom dir y x ps ∧ ¬PredecessorInside dir h w y x := by
  cases dir with
  | e =>
    obtain ⟨y, hy, rfl⟩ := List.mem_map.1 hps
    refine ⟨y, 0, walksFrom_map_range fun i hi => ?_, ?_⟩ <;> simp only [directionStep, PredecessorInside] <;> omega
  | w =>
    obtain ⟨y, hy, rfl⟩ := List.mem_map.1 hps
    refine ⟨y, w - 1, walksFrom_map_range fun i hi => ?_, ?_⟩ <;>
      simp only [directionStep, PredecessorInside] <;> omega
  | s =>
    obtain ⟨x, hx, rfl⟩ := List.mem_map.1 hps
    refine ⟨0, x, walksFrom_map_range fun i hi => ?_, ?_⟩ <;> simp only [directionStep, PredecessorInside] <;> omega
  | n =>
    obtain ⟨x, hx, rfl⟩ := List.mem_map.1 hps
    refine ⟨h - 1, x, walksFrom_map_range fun i hi => ?_, ?_⟩ <;>
      simp only [directionStep, PredecessorInside] <;> omega
  | se =>
    obtain ⟨k, hk, rfl⟩ := List.mem_map.1 hps
    refine ⟨max 0 (-k), max 0 (-k) + k, walksFrom_map_range fun i hi => ?_, ?_⟩ <;>
      simp only [directionStep, PredecessorInside] <;> omega
  | nw =>
    obtain ⟨k, hk, rfl⟩ := List.mem_map.1 hps
    refine ⟨min ((h : Int) - 1) (w - 1 - k), min ((h : Int) - 1) (w - 1 - k) + k,
      walksFrom_map_range fun i hi => ?_, ?_⟩ <;>
      simp only [directionStep, PredecessorInside] <;> omega
  | sw =>
    obtain ⟨s, hs, rfl⟩ := List.mem_map.1 hps
    refine ⟨max 0 (s - (w - 1)), s - max 0 (s - (w - 1)), walksFrom_map_range fun i hi => ?_, ?_⟩ <;>
      simp only [directionStep, PredecessorInside] <;> omega
  | ne =>
    obtain ⟨s, hs, rfl⟩ := List.mem_map.1 hps
    refine ⟨min ((h : Int) - 1) s, s - min ((h : Int) - 1) s, walksFrom_map_range fun i hi => ?_, ?_⟩ <;>
      simp only [directionStep, PredecessorInside] <;> omega

/-- No pixel comes twice on a walk, since every direction's step moves. -/
theorem WalksFrom.eq_of_getElem? {dir : Direction} {y x : Int} {ps : List (Nat × Nat)} (h : WalksFrom dir y x ps)
    {i j : Nat} {p : Nat × Nat} (hi : ps[i]? = some p) (hj : ps[j]? = some p) : i = j := by
  obtain ⟨hiy, hix⟩ := h i p hi
  obtain ⟨hjy, hjx⟩ := h j p hj
  cases dir <;> simp only [directionStep] at hiy hix hjy hjx <;> omega

/-- Along a slice each position is the one before it and one step (R152). -/
theorem slice_succ {dir : Direction} {h w : Nat} {ps : List (Nat × Nat)} (hps : ps ∈ slices dir h w) {i : Nat}
    {p q : Nat × Nat} (hp : ps[i]? = some p) (hq : ps[i + 1]? = some q) :
    (q.1 : Int) = p.1 + (directionStep dir).1 ∧ (q.2 : Int) = p.2 + (directionStep dir).2 := by
  obtain ⟨y, x, hwalk, -⟩ := exists_walksFrom_of_mem_slices hps
  obtain ⟨hpy, hpx⟩ := hwalk i p hp
  obtain ⟨hqy, hqx⟩ := hwalk (i + 1) q hq
  push_cast at hqy hqx
  constructor <;> linarith

/-- A slice's first pixel has its predecessor outside the image (R152, R159). -/
theorem not_predecessorInside_of_first {dir : Direction} {h w : Nat} {ps : List (Nat × Nat)}
    (hps : ps ∈ slices dir h w) {p : Nat × Nat} (hp : ps[0]? = some p) : ¬PredecessorInside dir h w p.1 p.2 := by
  obtain ⟨y, x, hwalk, hedge⟩ := exists_walksFrom_of_mem_slices hps
  obtain ⟨hy, hx⟩ := hwalk 0 p hp
  simpa [hy, hx] using hedge

/-- A pixel has one position on one slice of a direction (R157). -/
theorem slice_position_unique {dir : Direction} {h w : Nat} {ps qs : List (Nat × Nat)} (hps : ps ∈ slices dir h w)
    (hqs : qs ∈ slices dir h w) {i j : Nat} {p : Nat × Nat} (hi : ps[i]? = some p) (hj : qs[j]? = some p) :
    ps = qs ∧ i = j := by
  obtain rfl : ps = qs := by
    by_contra hne
    have : Std.Symm (List.Disjoint (α := Nat × Nat)) := ⟨fun _ _ hd => hd.symm⟩
    exact (pairwise_disjoint_slices dir h w).forall hps hqs hne
      (List.mem_of_getElem? hi) (List.mem_of_getElem? hj)
  obtain ⟨y, x, hwalk, -⟩ := exists_walksFrom_of_mem_slices hps
  exact ⟨rfl, hwalk.eq_of_getElem? hi hj⟩

end Sys2Proof.Machine

namespace Sys2Proof.Proofs

open Sys2Proof Sys2Proof.Machine

/-- Settles O48: each slice walks by the direction's step from the edge, and no pixel lies on two slices. -/
theorem slicesPartitionTheImage : Obligations.SlicesPartitionTheImage := by
  intro dir h w
  refine ⟨List.nodup_flatten.2 ⟨fun ps hps => ?_, pairwise_disjoint_slices dir h w⟩,
    fun p => List.mem_flatten.trans mem_slices, fun ps hps => ⟨fun i hi => ?_, fun hpos => ?_⟩⟩
  · exact List.nodup_iff_injective_getElem.2 fun i j hij => Fin.ext <| And.right <|
      slice_position_unique hps hps (List.getElem?_eq_getElem i.2)
        ((List.getElem?_eq_getElem j.2).trans (congrArg some hij.symm))
  · have hi' : i < ps.length := by omega
    rw [List.getD_eq_getElem _ _ hi, List.getD_eq_getElem _ _ hi']
    exact slice_succ hps (List.getElem?_eq_getElem hi') (List.getElem?_eq_getElem hi)
  · rw [List.getD_eq_getElem _ _ hpos]
    exact not_predecessorInside_of_first hps (List.getElem?_eq_getElem hpos)

end Sys2Proof.Proofs
end

section
/-!
SUPPORT. The path costs in memory (42_aggregate.md R152, R157 to R170): the stores of any directions share no byte, so each
cell reads as the path cost of its pixel's position, whatever the order of the directions.
-/

namespace Sys2Proof.Machine

open Sys2Proof

/-! ### Stores that share no byte -/

/-- Two stores of the list that cover one byte are the same store. -/
def Separate (l : List Store) : Prop :=
  ∀ st ∈ l, ∀ st' ∈ l, ∀ a, st.covers a → st'.covers a → st = st'

/-- After separate stores a covered byte reads as the store that covers it spells it (R62). -/
theorem Separate.byte?_storeAll {l : List Store} (h : Separate l) {st : Store} (hst : st ∈ l) {a : Nat}
    (hcov : st.covers a) (m : Memory) :
    Memory.byte? (Memory.storeAll m l) a = some (byteOfNat st.value (a - st.addr)) :=
  Memory.byte?_storeAll_covered ⟨st, hst, hcov⟩ fun st' hst' hcov' => by rw [h st hst st' hst' a hcov hcov']

/-- After separate stores each stored element is written and reads as its value (R62). -/
theorem Separate.read_storeAll {l : List Store} (h : Separate l) {st : Store} (hst : st ∈ l) (m : Memory) :
    Memory.written (Memory.storeAll m l) st.addr st.bytes = true ∧
    Memory.memRead (Memory.storeAll m l) st.addr st.bytes = st.value % 256 ^ st.bytes :=
  Memory.memRead_of_bytes fun i hi => by
    rw [h.byte?_storeAll hst ⟨by omega, by omega⟩, Nat.add_sub_cancel_left]

/-- The order of separate stores cannot be observed. -/
theorem Separate.storeAll_eq {l l' : List Store} (h : Separate l) (hmem : ∀ st, st ∈ l ↔ st ∈ l') {m : Memory}
    (hwf : Memory.wf m) : Memory.storeAll m l = Memory.storeAll m l' := by
  have h' : Separate l' := fun st hst st' hst' => h st ((hmem st).2 hst) st' ((hmem st').2 hst')
  refine Memory.ext_of_wf (Memory.wf_storeAll hwf l) (Memory.wf_storeAll hwf l') fun a => ?_
  by_cases hcov : ∃ st ∈ l, st.covers a
  · obtain ⟨st, hst, hcov⟩ := hcov
    rw [h.byte?_storeAll hst hcov, h'.byte?_storeAll ((hmem st).1 hst) hcov]
  · rw [Memory.byte?_storeAll_outside fun st hst hc => hcov ⟨st, hst, hc⟩,
      Memory.byte?_storeAll_outside fun st hst hc => hcov ⟨st, (hmem st).2 hst, hc⟩]

/-! ### The cells of AGG -/

/-- No two directions have one slot (R152). -/
theorem Direction.slot_inj {dir dir' : Direction} (h : dir.slot = dir'.slot) : dir = dir' := by
  have hall (dir : Direction) : Direction.all[dir.slot]? = some dir := by cases dir <;> rfl
  exact Option.some.inj (by rw [← hall dir, ← hall dir', h])

/-- Two cells of AGG that share a byte are the same cell (R72). -/
theorem ConfigRegs.aggAddr_inj {c : ConfigRegs} {y x d k y' x' d' k' a : Nat} (hx : x < c.width) (hx' : x' < c.width)
    (hd : d < c.disparities) (hd' : d' < c.disparities) (hk : k < 8) (hk' : k' < 8)
    (h : c.aggAddr y x d k ≤ a ∧ a < c.aggAddr y x d k + 4)
    (h' : c.aggAddr y' x' d' k' ≤ a ∧ a < c.aggAddr y' x' d' k' + 4) : y = y' ∧ x = x' ∧ d = d' ∧ k = k' := by
  obtain ⟨hcell, rfl⟩ := raster_inj hk hk' (element_eq_of_shared_byte h h')
  obtain ⟨hpixel, rfl⟩ := raster_inj hd hd' hcell
  obtain ⟨rfl, rfl⟩ := raster_inj hx hx' hpixel
  exact ⟨rfl, rfl, rfl, rfl⟩

/-- What a direction stores: the path cost of each position of each slice, into its slot of the pixel there (R152). -/
theorem mem_aggStores {c : ConfigRegs} {m : Memory} {dir : Direction} {st : Store} :
    st ∈ aggStores c m dir ↔ ∃ ps ∈ slices dir c.height c.width, ∃ i p d, ps[i]? = some p ∧ d < c.disparities ∧
      st = ⟨c.aggAddr p.1 p.2 d dir.slot, 4, entry (slicePaths c m ps) i d⟩ := by
  simp only [aggStores, List.mem_flatMap, mem_sliceStores]

/-- The stores of several directions are separate: a cell is one direction's, one slice's and one position's (R157). -/
theorem separate_aggStores (c : ConfigRegs) (m : Memory) (dirs : List Direction) :
    Separate (dirs.flatMap (aggStores c m)) := by
  intro st hst st' hst' a hcov hcov'
  obtain ⟨dir, -, hst⟩ := List.mem_flatMap.1 hst
  obtain ⟨dir', -, hst'⟩ := List.mem_flatMap.1 hst'
  obtain ⟨ps, hps, i, ⟨y, x⟩, d, hp, hd, rfl⟩ := mem_aggStores.1 hst
  obtain ⟨qs, hqs, j, ⟨y', x'⟩, d', hq, hd', rfl⟩ := mem_aggStores.1 hst'
  obtain ⟨-, hx⟩ := mem_slices.1 ⟨ps, hps, List.mem_of_getElem? hp⟩
  obtain ⟨-, hx'⟩ := mem_slices.1 ⟨qs, hqs, List.mem_of_getElem? hq⟩
  obtain ⟨rfl, rfl, rfl, hslot⟩ := ConfigRegs.aggAddr_inj hx hx' hd hd' dir.slot_lt dir'.slot_lt hcov hcov'
  obtain rfl := Direction.slot_inj hslot
  obtain ⟨rfl, rfl⟩ := slice_position_unique hps hqs hp hq
  rfl

/-! ### Path costs fit their cells -/

/-- An element of n bytes is below 256^n (R62). -/
theorem Memory.memRead_lt (m : Memory) (addr n : Nat) : Memory.memRead m addr n < 256 ^ n := by
  induction n with
  | zero => exact Nat.one_pos
  | succ k ih =>
    have hbyte : ((Memory.byte? m (addr + k)).getD 0).toNat ≤ 255 := Nat.le_of_lt_succ (BitVec.isLt _)
    calc Memory.memRead m addr (k + 1)
        = Memory.memRead m addr k + ((Memory.byte? m (addr + k)).getD 0).toNat * 256 ^ k := by
          rw [Memory.memRead, Nat.pow_mul]
      _ < 256 ^ k + 255 * 256 ^ k := Nat.add_lt_add_of_lt_of_le ih (Nat.mul_le_mul_right _ hbyte)
      _ = 256 ^ (k + 1) := by ring

/-- The costs of a slice's position are those of the pixel there (R152). -/
theorem getD_map_costVector {c : ConfigRegs} {m : Memory} {ps : List (Nat × Nat)} {i : Nat} {p : Nat × Nat}
    (hp : ps[i]? = some p) : (ps.map (costVector c m)).getD i [] = costVector c m p := by
  simp [hp]

/-- The cost of a pixel at a disparity. -/
theorem getD_costVector {c : ConfigRegs} {m : Memory} {p : Nat × Nat} {d : Nat} (hd : d < c.disparities) :
    (costVector c m p).getD d 0 = c.costAt m p.1 p.2 d := by
  simp [costVector, hd]

/-- A pixel has D costs. -/
@[simp] theorem length_costVector (c : ConfigRegs) (m : Memory) (p : Nat × Nat) :
    (costVector c m p).length = c.disparities := by
  simp [costVector]

/-- A path cost fits the four bytes of its cell (R160). -/
theorem entry_slicePaths_lt {c : ConfigRegs} (hp : c.penalty1 ≤ c.penalty2) {m : Memory} {ps : List (Nat × Nat)}
    {i : Nat} {p : Nat × Nat} (hi : ps[i]? = some p) {d : Nat} (hd : d < c.disparities) :
    entry (slicePaths c m ps) i d < 256 ^ 4 := by
  have hle := entry_pathCost_le hp (costs := ps.map (costVector c m)) (i := i) (d := d)
    (by rwa [getD_map_costVector hi, length_costVector])
  have hcost : entry (ps.map (costVector c m)) i d < 256 ^ 1 := by
    rw [entry, getD_map_costVector hi, getD_costVector hd]
    exact Memory.memRead_lt m _ 1
  have hpenalty : c.penalty2 < 2 ^ 16 := c.p2.isLt
  rw [slicePaths]
  omega

/-- The recurrence of R151 between two neighbouring pixels of a slice. -/
theorem entry_slicePaths_succ {c : ConfigRegs} (m : Memory) {ps : List (Nat × Nat)} {i : Nat} {p : Nat × Nat}
    (hi : ps[i + 1]? = some p) {d : Nat} (hd : d < c.disparities) :
    entry (slicePaths c m ps) (i + 1) d + minOf ((slicePaths c m ps).getD i []) =
      c.costAt m p.1 p.2 d + minOf (penalised c.penalty1 c.penalty2 ((slicePaths c m ps).getD i []) d) := by
  rw [entry, slicePaths, getD_pathCost_succ, getD_map_costVector hi,
    getD_nextPath_add_minOf _ _ _ (by rwa [length_costVector]), getD_costVector hd]

/-- The vector at a position of a slice has D entries. -/
theorem length_getD_slicePaths {c : ConfigRegs} (m : Memory) {ps : List (Nat × Nat)} {i : Nat} (hi : i < ps.length) :
    ((slicePaths c m ps).getD i []).length = c.disparities :=
  length_of_mem_slicePaths (getD_mem (by rwa [length_slicePaths]) [])

/-! ### The path costs in memory -/

/-- After the stores of some directions, each of them has its path costs in its slot (R152). -/
theorem aggAt_storeAll_aggStores {c : ConfigRegs} (hp : c.penalty1 ≤ c.penalty2) (m : Memory) {dirs : List Direction}
    {dir : Direction} (hdir : dir ∈ dirs) {ps : List (Nat × Nat)} (hps : ps ∈ slices dir c.height c.width) {i : Nat}
    {p : Nat × Nat} (hi : ps[i]? = some p) {d : Nat} (hd : d < c.disparities) :
    c.hasAgg (Memory.storeAll m (dirs.flatMap (aggStores c m))) p.1 p.2 d dir.slot = true ∧
    c.aggAt (Memory.storeAll m (dirs.flatMap (aggStores c m))) p.1 p.2 d dir.slot =
      entry (slicePaths c m ps) i d := by
  rw [← Nat.mod_eq_of_lt (entry_slicePaths_lt hp (m := m) hi hd)]
  exact (separate_aggStores c m dirs).read_storeAll
    (List.mem_flatMap.2 ⟨dir, hdir, mem_aggStores.2 ⟨ps, hps, i, p, d, hi, hd, rfl⟩⟩) m

/-- After the stores of some directions, each of them has its path costs in its slot as the recurrence gives them from the
predecessor pixel (R151, R152, R159). -/
theorem holdsPathCosts_storeAll_aggStores {c : ConfigRegs} (hp : c.penalty1 ≤ c.penalty2) (m : Memory)
    {dirs : List Direction} {dir : Direction} (hdir : dir ∈ dirs) :
    HoldsPathCosts c m (Memory.storeAll m (dirs.flatMap (aggStores c m))) dir := by
  intro y hy x hx d hd
  obtain ⟨ps, hps, hmem⟩ := mem_slices.2 (show (y, x).1 < c.height ∧ (y, x).2 < c.width from ⟨hy, hx⟩)
  obtain ⟨i, hi⟩ := List.mem_iff_getElem?.1 hmem
  have hcell {i : Nat} {p : Nat × Nat} (hi : ps[i]? = some p) {d : Nat} (hd : d < c.disparities) :=
    aggAt_storeAll_aggStores hp m hdir hps hi hd
  refine ⟨(hcell hi hd).1, ?_⟩
  rw [(hcell hi hd).2]
  cases i with
  | zero =>
    rw [if_neg (not_predecessorInside_of_first hps hi), entry, slicePaths, getD_pathCost_zero, getD_map_costVector hi,
      getD_costVector hd]
  | succ j =>
    have hj : j < ps.length := by
      have := (List.getElem?_eq_some_iff.1 hi).1
      omega
    have hq : ps[j]? = some ps[j] := List.getElem?_eq_getElem hj
    obtain ⟨hqy, hqx⟩ := mem_slices.1 ⟨ps, hps, List.mem_of_getElem? hq⟩
    obtain ⟨hstepy, hstepx⟩ := slice_succ hps hq hi
    have hpy : (y : Int) - (directionStep dir).1 = ps[j].1 := by dsimp only at hstepy; omega
    have hpx : (x : Int) - (directionStep dir).2 = ps[j].2 := by dsimp only at hstepx; omega
    have hlen := length_getD_slicePaths (c := c) m hj
    have hne : (slicePaths c m ps).getD j [] ≠ [] := List.ne_nil_of_length_pos (by omega)
    rw [hpy, hpx, if_pos ⟨by omega, by omega, by omega, by omega⟩, Int.toNat_natCast, Int.toNat_natCast]
    refine ⟨_, _, (isLeastOver_congr fun d' hd' => ?_).1 (hlen ▸ isLeastOver_minOf hne),
      (isLeastOver_congr fun d' hd' => ?_).1 (hlen ▸ isLeastOver_minOf_penalised _ _ hne d),
      entry_slicePaths_succ m hi hd⟩
    · rw [(hcell hq hd').2]
    · rw [(hcell hq hd').2, penalty_eq_pathPenalty]

/-! ### The commands -/

/-- The body of a direction's command (R162 to R169). -/
theorem bodyOf_directionInstr (dir : Direction) : bodyOf (directionInstr dir) = bodyAgg dir := by
  cases dir <;> rfl

/-- A direction command uses and writes the buffers of AGG_ALL (R78). -/
theorem legal_directionInstr {dir : Direction} {s : State} : Legal (directionInstr dir) s ↔ Legal .aggAll s := by
  cases dir <;> exact Iff.rfl

/-- A direction's command is not NOP. -/
theorem directionInstr_ne_nop (dir : Direction) : directionInstr dir ≠ .nop := by
  cases dir <;> decide

/-- With the costs written, directions one after the other make all their stores (R170). -/
theorem foldlM_bodyAgg_of_legal {s : State} (hlegal : Legal .aggAll s) (hcosts : CostsWritten s.cfg s.mem)
    (dirs : List Direction) :
    dirs.foldlM (fun m dir => bodyAgg dir s.cfg m) s.mem =
      some (Memory.storeAll s.mem (dirs.flatMap (aggStores s.cfg s.mem))) := by
  obtain ⟨-, ⟨-, hapart⟩, -⟩ := hlegal
  rw [foldlM_bodyAgg (hapart .agg (by decide) .cost (by decide) (by decide))]
  exact Memory.transform_eq_some.2 ⟨List.all_eq_true.2 fun _ _ => aggReadable_iff.2 hcosts, rfl⟩

/-- Legal direction commands in a row do to the data space what their bodies in a row do. -/
theorem execAll_directionInstr {dirs : List Direction} {s : State} {m : Memory} (hlegal : Legal .aggAll s)
    (hbody : dirs.foldlM (fun m dir => bodyAgg dir s.cfg m) s.mem = some m) :
    ∃ u, execAll (dirs.map directionInstr) s = some u ∧ u.mem = m := by
  induction dirs generalizing s with
  | nil => exact ⟨s, rfl, by simpa using hbody⟩
  | cons dir dirs ih =>
    rw [List.foldlM_cons] at hbody
    obtain ⟨m₁, hdir, hrest⟩ := Option.bind_eq_some_iff.1 hbody
    rw [← bodyOf_directionInstr] at hdir
    obtain ⟨hexec, -⟩ := completes_of_body (legal_directionInstr.2 hlegal) (directionInstr_ne_nop dir) hdir
    simp only [List.map_cons, execAll, hexec]
    exact ih hlegal hrest

end Sys2Proof.Machine

namespace Sys2Proof.Proofs

open Sys2Proof Sys2Proof.Machine

/-- Settles O42: the command makes the stores of one direction. -/
theorem directionCommandsWritePathCosts : Obligations.DirectionCommandsWritePathCosts := by
  intro dir s hlegal hcosts
  have hbody : bodyOf (directionInstr dir) s.cfg s.mem =
      some (Memory.storeAll s.mem ([dir].flatMap (aggStores s.cfg s.mem))) := by
    rw [← foldlM_bodyAgg_of_legal (legal_directionInstr.1 hlegal) hcosts, bodyOf_directionInstr]
    simp
  obtain ⟨hcompletes, -⟩ := completes_of_body hlegal (directionInstr_ne_nop dir) hbody
  obtain ⟨⟨-, -, -, -, -, -, -, hpenalties, -⟩, -⟩ := hlegal
  refine ⟨_, hcompletes, holdsPathCosts_storeAll_aggStores hpenalties s.mem (List.mem_singleton_self dir),
    fun a hout => Memory.byte?_storeAll_outside fun st hst => ?_⟩
  rw [List.flatMap_singleton] at hst
  obtain ⟨ps, hps, i, p, d, hp, hd, rfl⟩ := mem_aggStores.1 hst
  refine hout ⟨_, 4⟩ (List.mem_flatMap.2 ⟨p, ?_, List.mem_map.2 ⟨d, List.mem_range.2 hd, rfl⟩⟩)
  exact ConfigRegs.mem_pixels.2 (mem_slices.1 ⟨ps, hps, List.mem_of_getElem? hp⟩)

/-- Settles O43: AGG_ALL makes the stores of all eight directions. -/
theorem aggAllWritesAllPathCosts : Obligations.AggAllWritesAllPathCosts := by
  intro s hlegal hcosts
  obtain ⟨hcompletes, houtside⟩ := completes_of_body hlegal (by decide)
    (foldlM_bodyAgg_of_legal hlegal hcosts Direction.all)
  obtain ⟨⟨-, -, -, -, -, -, -, hpenalties, -⟩, -⟩ := hlegal
  exact ⟨_, hcompletes, fun dir => holdsPathCosts_storeAll_aggStores hpenalties s.mem (by cases dir <;> decide),
    houtside⟩

/-- Settles O44: in any order the eight commands make the stores AGG_ALL makes, and no two of these share a byte. -/
theorem aggAllEqualsTheDirectionsInAnyOrder : Obligations.AggAllEqualsTheDirectionsInAnyOrder := by
  intro s dirs hwf hlegal hcosts hperm
  obtain ⟨hcompletes, -⟩ := completes_of_body hlegal (by decide)
    (foldlM_bodyAgg_of_legal hlegal hcosts Direction.all)
  obtain ⟨u, hexec, hmem⟩ := execAll_directionInstr hlegal (foldlM_bodyAgg_of_legal hlegal hcosts dirs)
  refine ⟨_, u, hcompletes, hexec, hmem.trans ?_⟩
  exact (separate_aggStores s.cfg s.mem dirs).storeAll_eq (fun st => (hperm.flatMap_right _).mem_iff) hwf

end Sys2Proof.Proofs
end

section
/-!
SUPPORT. The disparity selector and the post-filter (43_select.md): the winner as the lowest index of a least sum, the range
of rescaling, the sorted samples and their middle element.
-/

namespace Sys2Proof.Machine

open Sys2Proof

/-! ### SELECT -/

/-- `v` is the lowest of the indices below n at which f is least (R191). -/
def IsLowestLeast (n : Nat) (f : Nat → Nat) (v : Nat) : Prop :=
  v < n ∧ ∀ d < n, f v ≤ f d ∧ (d < v → f v < f d)

/-- The next index takes over only where its value is smaller (R190). -/
theorem IsLowestLeast.succ {n v : Nat} {f : Nat → Nat} (h : IsLowestLeast n f v) :
    IsLowestLeast (n + 1) f (if f n < f v then n else v) := by
  obtain ⟨hv, hleast⟩ := h
  split_ifs with hlt
  · refine ⟨Nat.lt_succ_self n, fun d hd => ?_⟩
    obtain hd | rfl := Nat.lt_succ_iff_lt_or_eq.1 hd
    · have hbelow := hlt.trans_le (hleast d hd).1
      exact ⟨hbelow.le, fun _ => hbelow⟩
    · exact ⟨le_rfl, fun hself => absurd hself (lt_irrefl d)⟩
  · refine ⟨Nat.lt_succ_of_lt hv, fun d hd => ?_⟩
    obtain hd | rfl := Nat.lt_succ_iff_lt_or_eq.1 hd
    · exact hleast d hd
    · exact ⟨not_lt.1 hlt, fun hdv => absurd hdv hv.not_gt⟩

/-- The loop of R190 over the indices 1 to n finds the lowest index of a least value. -/
theorem isLowestLeast_foldl (f : Nat → Nat) (n : Nat) :
    IsLowestLeast (n + 1) f ((List.range' 1 n).foldl (fun best d => if f d < f best then d else best) 0) := by
  induction n with
  | zero =>
    refine ⟨Nat.one_pos, fun d hd => ?_⟩
    obtain rfl := Nat.lt_one_iff.1 hd
    exact ⟨le_rfl, fun hself => absurd hself (lt_irrefl 0)⟩
  | succ n ih =>
    rw [List.range'_1_concat, List.foldl_concat, Nat.add_comm 1 n]
    exact ih.succ

/-- The winner of a non-empty list is the lowest index of a least element (R190, R191). -/
theorem isLowestLeast_winner {sums : List Nat} (h : 0 < sums.length) :
    IsLowestLeast sums.length (fun d => sums.getD d 0) (winner sums) := by
  have hfold := isLowestLeast_foldl (fun d => sums.getD d 0) (sums.length - 1)
  rwa [Nat.sub_add_cancel h] at hfold

/-- The lowest index of a least value depends on the values below n only. -/
theorem IsLowestLeast.congr {n v : Nat} {f g : Nat → Nat} (h : IsLowestLeast n f v) (hfg : ∀ d < n, f d = g d) :
    IsLowestLeast n g v := by
  obtain ⟨hv, hleast⟩ := h
  refine ⟨hv, fun d hd => ?_⟩
  rw [← hfg v hv, ← hfg d hd]
  exact hleast d hd

/-- The sum of a disparity's slots, written out (R190). -/
theorem slotSum_eq_add (agg : Nat → Nat → Nat) (d : Nat) :
    slotSum agg d =
      agg d 0 + agg d 1 + agg d 2 + agg d 3 + agg d 4 + agg d 5 + agg d 6 + agg d 7 := by
  simp [slotSum, List.range_succ, Nat.add_assoc]

/-- The winner at a pixel is the lowest disparity with the least sum of slots (R190, R191). -/
theorem isLowestLeast_winner_pixelSums {c : ConfigRegs} (hd : 1 ≤ c.disparities) (m : Memory) (y x : Nat) :
    IsLowestLeast c.disparities (slotTotal c m y x) (winner (pixelSums c m y x)) := by
  have hlen : (pixelSums c m y x).length = c.disparities := by simp [pixelSums]
  have hwinner := isLowestLeast_winner (hlen ▸ hd : 0 < (pixelSums c m y x).length)
  rw [hlen] at hwinner
  refine hwinner.congr fun d hd => ?_
  rw [pixelSums, List.getD_eq_getElem _ _ (by simpa using hd), List.getElem_map, List.getElem_range, slotSum_eq_add]

/-- A disparity index fits the two bytes of its element (R193). -/
theorem ConfigRegs.disparities_lt (c : ConfigRegs) : c.disparities < 256 ^ 2 := c.ndisp.isLt

/-! ### RESCALE -/

/-- Rescaling is monotone (R197). -/
theorem rescale_mono (d : Nat) : Monotone (rescale d) := fun _ _ h =>
  min_le_min_left 255 (Nat.div_le_div_right (Nat.mul_le_mul_left 255 h))

/-- A rescaled index fits one byte (R196). -/
theorem rescale_le (d v : Nat) : rescale d v ≤ 255 := min_le_left _ _

/-- An index below D rescales to less than 255 (R195). -/
theorem rescale_lt_of_lt {d v : Nat} (h : v < d) : rescale d v < 255 :=
  (min_le_right _ _).trans_lt (Nat.div_lt_of_lt_mul (by omega))

/-! ### MEDIAN -/

/-- The model's sort is the library's insertion sort (R200). -/
theorem sortAscending_eq_insertionSort (l : List Nat) : sortAscending l = l.insertionSort (· ≤ ·) := by
  have hinsert (v : Nat) (l : List Nat) : insertAscending v l = l.orderedInsert (· ≤ ·) v := by
    induction l with
    | nil => rfl
    | cons a rest ih => rw [insertAscending, List.orderedInsert_cons, ih]
  induction l with
  | nil => rfl
  | cons a rest ih => rw [List.insertionSort_cons, ← ih, ← hinsert]; rfl

/-- Sorting keeps the samples. -/
theorem perm_sortAscending (l : List Nat) : (sortAscending l).Perm l :=
  sortAscending_eq_insertionSort l ▸ List.perm_insertionSort _ l

/-- The sorted samples ascend. -/
theorem sortedLE_sortAscending (l : List Nat) : (sortAscending l).SortedLE :=
  sortAscending_eq_insertionSort l ▸ List.sortedLE_insertionSort

/-- Sorting commutes with every monotone map (R202). -/
theorem sortAscending_map {f : Nat → Nat} (hf : Monotone f) (l : List Nat) :
    sortAscending (l.map f) = (sortAscending l).map f := by
  have hsorted : ((sortAscending l).map f).SortedLE :=
    ((sortedLE_sortAscending l).pairwise.map f fun _ _ h => hf h).sortedLE
  exact ((perm_sortAscending _).trans ((perm_sortAscending l).map f).symm).eq_of_sortedLE
    (sortedLE_sortAscending _) hsorted

/-- At most i elements of an ascending list lie below the one at index i, and more than i lie at or below it. -/
theorem countP_bounds_of_sortedLE {l : List Nat} (h : l.SortedLE) {i : Nat} (hi : i < l.length) :
    l.countP (· < l[i]) ≤ i ∧ i < l.countP (· ≤ l[i]) := by
  constructor
  · have hdrop : (l.drop i).countP (· < l[i]) = 0 := by
      refine List.countP_eq_zero.2 fun v hv => ?_
      obtain ⟨j, hj, rfl⟩ := List.getElem_of_mem hv
      simpa using h.getElem_le_getElem_of_le (Nat.le_add_right i j)
    calc l.countP (· < l[i])
        = (l.take i).countP (· < l[i]) + (l.drop i).countP (· < l[i]) := by
          rw [← List.countP_append, List.take_append_drop]
      _ ≤ i := by
          rw [hdrop]
          exact List.countP_le_length.trans (List.length_take_le i l)
  · have htake : (l.take (i + 1)).countP (· ≤ l[i]) = (l.take (i + 1)).length := by
      refine List.countP_eq_length.2 fun v hv => ?_
      obtain ⟨j, hj, rfl⟩ := List.getElem_of_mem hv
      rw [List.length_take] at hj
      simpa using h.getElem_le_getElem_of_le (show j ≤ i by omega)
    calc i < (l.take (i + 1)).length := by rw [List.length_take]; omega
      _ = (l.take (i + 1)).countP (· ≤ l[i]) := htake.symm
      _ ≤ l.countP (· ≤ l[i]) := (List.take_sublist _ l).countP_le

/-- The middle index of K·K samples is one of theirs (R200). -/
theorem middle_lt_length_sortAscending {k : Nat} {samples : List Nat} (hk : k % 2 = 1) (hlen : samples.length = k * k) :
    (k * k - 1) / 2 < (sortAscending samples).length := by
  have hpos : 0 < k * k := Nat.mul_pos (by omega) (by omega)
  rw [(perm_sortAscending samples).length_eq, hlen]
  omega

/-- The median of K·K samples is their middle element (R200). -/
theorem isMiddle_medianOf {k : Nat} {samples : List Nat} (hk : k % 2 = 1) (hlen : samples.length = k * k) :
    IsMiddle k samples (medianOf k samples) := by
  have hmiddle := middle_lt_length_sortAscending hk hlen
  have hperm := perm_sortAscending samples
  rw [medianOf, List.getD_eq_getElem _ _ hmiddle, IsMiddle, ← hperm.countP_eq, ← hperm.countP_eq]
  exact ⟨hperm.mem_iff.1 (List.getElem_mem hmiddle), countP_bounds_of_sortedLE (sortedLE_sortAscending _) hmiddle⟩

/-- The clamp of R201 with natural subtraction: a coordinate left of 0 is clamped to 0. -/
theorem clampCoord_window (v h i : Nat) {n : Nat} (hn : 1 ≤ n) :
    clampCoord ((v : Int) + ((i : Int) - (h : Int))) n = min (n - 1) (v + i - h) := by
  simp only [clampCoord]
  omega

/-- The samples MEDIAN sorts at a pixel are those of its K·K window with edge samples repeated (R200, R201). -/
theorem map_windowPixels_eq_medianSamples {c : ConfigRegs} (hk : c.postK % 2 = 1) (hheight : 1 ≤ c.height)
    (hwidth : 1 ≤ c.width) (m : Memory) (y x : Nat) :
    ((windowPixels c y x).map fun p => c.pixel m .scaled p.1 p.2) = medianSamples c m y x := by
  have hoffsets : windowOffsets c.postK =
      (List.range c.postK).map fun t : Nat => (t : Int) - ((c.postK / 2 : Nat) : Int) := by
    rw [windowOffsets, show 2 * (c.postK / 2) + 1 = c.postK by omega]
  simp only [windowPixels, medianSamples, hoffsets, List.map_flatMap, List.flatMap_map, List.map_map, Function.comp_def,
    clampCoord_window _ _ _ hheight, clampCoord_window _ _ _ hwidth]

/-- A median window has K·K samples (R200). -/
theorem length_medianSamples (c : ConfigRegs) (m : Memory) (y x : Nat) :
    (medianSamples c m y x).length = c.postK * c.postK := by
  simp [medianSamples, List.length_flatMap]

/-- OUT at a pixel is the middle of its window (R200). -/
theorem isMiddle_medianAt {c : ConfigRegs} (h : ParametersLegal c) (m : Memory) (y x : Nat) :
    IsMiddle c.postK (medianSamples c m y x) (medianAt c (c.pixel m .scaled) y x) := by
  obtain ⟨-, hheight, hwidth, -, -, -, -, -, hk⟩ := h
  rw [medianAt, map_windowPixels_eq_medianSamples hk hheight hwidth]
  exact isMiddle_medianOf hk (length_medianSamples c m y x)

/-- A sample of a median window fits one byte (R200). -/
theorem lt_of_mem_medianSamples {c : ConfigRegs} {m : Memory} {y x v : Nat} (h : v ∈ medianSamples c m y x) :
    v < 256 ^ 1 := by
  simp only [medianSamples, List.mem_flatMap, List.mem_map] at h
  obtain ⟨i, -, j, -, rfl⟩ := h
  exact Memory.memRead_lt m _ 1

end Sys2Proof.Machine

namespace Sys2Proof.Proofs

open Sys2Proof Sys2Proof.Machine

/-- Settles O49: SELECT stores the winner of each pixel's sums, which the loop of R190 keeps the lowest index of a least
sum. -/
theorem selectWritesTheLowestMinimum : Obligations.SelectWritesTheLowestMinimum := by
  intro s hlegal hslots
  obtain ⟨m, hcompletes, hpixels, houtside⟩ := completes_of_pixelStores hlegal (b := .disp)
    (f := fun y x => winner (pixelSums s.cfg s.mem y x)) (by decide) rfl
    (Memory.transform_eq_some.2 ⟨selectReadable_iff.2 hslots, rfl⟩)
  obtain ⟨⟨-, -, -, hdisparities, -⟩, -⟩ := hlegal
  refine ⟨m, hcompletes, fun y hy x hx => ?_, houtside⟩
  obtain ⟨hwritten, hvalue⟩ := hpixels y hy x hx
  have hlowest := isLowestLeast_winner_pixelSums hdisparities s.mem y x
  have hfits : winner (pixelSums s.cfg s.mem y x) < 256 ^ 2 := hlowest.1.trans s.cfg.disparities_lt
  rw [hvalue, Buffer.elemBytes, Nat.mod_eq_of_lt hfits]
  exact ⟨hwritten, hlowest⟩

/-- Settles O50: RESCALE stores the rescaled index of each pixel, which fits its byte. -/
theorem rescaleWritesTheScaledIndex : Obligations.RescaleWritesTheScaledIndex := by
  intro s hlegal hdisp
  obtain ⟨m, hcompletes, hpixels, houtside⟩ := completes_of_pixelStores hlegal (b := .scaled)
    (f := fun y x => rescale s.cfg.disparities (s.cfg.pixel s.mem .disp y x)) (by decide) rfl
    (Memory.transform_eq_some.2 ⟨rescaleReadable_iff.2 hdisp, rfl⟩)
  refine ⟨m, hcompletes, fun y hy x hx => ?_, houtside⟩
  obtain ⟨hwritten, hvalue⟩ := hpixels y hy x hx
  rw [hvalue, Buffer.elemBytes, Nat.mod_eq_of_lt ((rescale_le _ _).trans_lt (by norm_num))]
  exact ⟨hwritten, rfl⟩

/-- Settles O51: the quotient is monotone in the index, and below 255 for an index below D. -/
theorem rescalingIsMonotoneAndBounded : Obligations.RescalingIsMonotoneAndBounded :=
  fun d v _ _ => ⟨fun h => rescale_mono d h, rescale_le d v, fun h => Nat.le_of_lt_succ (rescale_lt_of_lt h)⟩

/-- Settles O52: MEDIAN stores the middle of each pixel's window, which is one of its samples and so fits its byte. -/
theorem medianWritesTheMiddleSample : Obligations.MedianWritesTheMiddleSample := by
  intro s hlegal hscaled
  have hreadable : medianReadable s.cfg s.mem = true :=
    (sound_medianPass s.cfg).readable_of_ready s.mem (List.forall_mem_singleton.2 hscaled)
  obtain ⟨m, hcompletes, hpixels, houtside⟩ := completes_of_pixelStores hlegal (b := .out)
    (f := medianAt s.cfg (s.cfg.pixel s.mem .scaled)) (by decide) rfl
    (Memory.transform_eq_some.2 ⟨hreadable, rfl⟩)
  obtain ⟨hparameters, -⟩ := hlegal
  refine ⟨m, hcompletes, fun y hy x hx => ?_, houtside⟩
  obtain ⟨hwritten, hvalue⟩ := hpixels y hy x hx
  have hmiddle := isMiddle_medianAt hparameters s.mem y x
  rw [hvalue, Buffer.elemBytes, Nat.mod_eq_of_lt (lt_of_mem_medianSamples hmiddle.1)]
  exact ⟨hwritten, hmiddle⟩

/-- Settles O53: the mapped samples sort to the map of the sorted samples, and the middle index is inside them. -/
theorem medianCommutesWithMonotoneMaps : Obligations.MedianCommutesWithMonotoneMaps := by
  intro k samples f hk hlen hf
  have hmiddle := middle_lt_length_sortAscending hk hlen
  rw [medianOf, medianOf, sortAscending_map (fun a b => hf a b), List.getD_eq_getElem _ _ (by simpa using hmiddle),
    List.getElem_map, List.getD_eq_getElem _ _ hmiddle]

end Sys2Proof.Proofs
end

section
/-!
SUPPORT. Commands in a row (44_control.md R221): a command that uses no other buffers than a legal one is legal, and legal
commands do to the data space what their bodies in a row do.
-/

namespace Sys2Proof.Machine

open Sys2Proof

/-- A command that uses and writes no other buffers than a legal one is legal (R78, R241). -/
theorem legal_of_subset {i j : Instr} {s : State} (h : Legal j s) (hused : Instr.used i ⊆ Instr.used j)
    (hwrites : Instr.writes i ⊆ Instr.writes j) : Legal i s := by
  obtain ⟨hparameters, ⟨hplaced, hapart⟩, hbacked⟩ := h
  exact ⟨hparameters, ⟨fun b hb => hplaced b (hused hb), fun a ha b hb => hapart a (hwrites ha) b (hused hb)⟩,
    fun b hb => hbacked b (hused hb)⟩

/-- Legal commands in a row all complete where their bodies in a row do, and leave the data space of these. -/
theorem execAll_of_foldlM_bodyOf {l : List Instr} {s : State} {m : Memory} (hlegal : ∀ i ∈ l, i ≠ .nop ∧ Legal i s)
    (hbody : l.foldlM (fun m i => bodyOf i s.cfg m) s.mem = some m) : ∃ u, execAll l s = some u ∧ u.mem = m := by
  induction l generalizing s with
  | nil => exact ⟨s, rfl, by simpa using hbody⟩
  | cons i l ih =>
    rw [List.foldlM_cons] at hbody
    obtain ⟨m₁, hi, hrest⟩ := Option.bind_eq_some_iff.1 hbody
    obtain ⟨⟨hnop, hilegal⟩, hlegal⟩ := List.forall_mem_cons.1 hlegal
    obtain ⟨hexec, -⟩ := completes_of_body hilegal hnop hi
    simp only [execAll, hexec]
    exact ih hlegal hrest

/-- The commands whose bodies RUN performs (R221). -/
def runCommands : List Instr := [.censusL, .censusR, .cost, .aggAll, .select, .rescale, .median]

/-- The body of RUN is the bodies of its commands in a row (R221). -/
theorem bodyRun_eq_foldlM_bodyOf (c : ConfigRegs) (m : Memory) :
    bodyRun c m = runCommands.foldlM (fun m i => bodyOf i c m) m := by
  simp only [bodyRun, runCommands, bodyOf, List.foldlM_cons, List.foldlM_nil, bind_pure]

/-- Where RUN is legal, so is each of its commands (R78). -/
theorem legal_runCommands {s : State} (h : Legal .run s) : ∀ i ∈ runCommands, i ≠ .nop ∧ Legal i s := by
  have hbuffers : ∀ i ∈ runCommands,
      i ≠ .nop ∧ Instr.used i ⊆ Instr.used .run ∧ Instr.writes i ⊆ Instr.writes .run := by decide
  intro i hi
  obtain ⟨hnop, hused, hwrites⟩ := hbuffers i hi
  exact ⟨hnop, legal_of_subset h hused hwrites⟩

end Sys2Proof.Machine
end

section
/-!
SUPPORT. Stages that hold: after a list of stages none of which undoes another (44_control.md R221), the buffer of each holds
what the stage computes from its sources as they are in the final data space.
-/

namespace Sys2Proof.Machine

open Sys2Proof

/-! ### Any stages -/

/-- The stage's buffer holds what the stage would store there. -/
def Pass.Holds (p : Pass) (c : ConfigRegs) (m : Memory) : Prop := SameBuffer c p.dst (p.apply c m) m

/-- After stages none of which undoes another every stage holds: it finds its sources at the end as they were when it ran,
and no later stage wrote its buffer. -/
theorem holds_applyAll {c : ConfigRegs} {ps : List Pass} (hs : ∀ p ∈ ps, p.Sound c) (hapart : NoneUndone c ps) :
    ∀ (m : Memory), ∀ p ∈ ps, p.Holds c (applyAll ps c m) := by
  induction ps with
  | nil => simp
  | cons p ps ih =>
    obtain ⟨hown, hlater⟩ := hapart
    obtain ⟨hlater, hrest⟩ := List.pairwise_cons.1 hlater
    obtain ⟨hp, hs'⟩ := List.forall_mem_cons.1 hs
    obtain ⟨hsrc, hown⟩ := List.forall_mem_cons.1 hown
    refine fun m => List.forall_mem_cons.2 ⟨fun a hlow hhigh => ?_, ih hs' ⟨hown, hrest⟩ (p.apply c m)⟩
    have hstores : p.stores c (applyAll (p :: ps) c m) = p.stores c m :=
      (hp.stores_congr _ _ fun b hb => sameBuffer_applyAll hs (List.forall_mem_cons.2
        ⟨hsrc b hb, fun q hq => hlater q hq b (List.mem_cons_of_mem _ hb)⟩) m).symm
    have hkept : Memory.byte? (p.apply c m) a = Memory.byte? (applyAll (p :: ps) c m) a :=
      sameBuffer_applyAll hs' (fun q hq => hlater q hq _ List.mem_cons_self) _ a hlow hhigh
    rw [Pass.apply, hstores]
    by_cases hcov : ∃ st ∈ p.stores c m, st.covers a
    · rw [← hkept]
      exact Memory.byte?_storeAll_of_covered hcov
    · exact Memory.byte?_storeAll_outside fun st hst hc => hcov ⟨st, hst, hc⟩

/-- A stage that stores one element a pixel and holds: each element is written and reads as the stored value. -/
theorem Pass.Holds.pixel {p : Pass} {c : ConfigRegs} {m : Memory} (h : p.Holds c m) (hb : p.dst.onePerPixel = true)
    {f : Nat → Nat → Nat} (hstores : p.stores c m = pixelStores c p.dst f) {y x : Nat} (hy : y < c.height)
    (hx : x < c.width) :
    c.hasPixel m p.dst y x = true ∧ c.pixel m p.dst y x = f y x % 256 ^ p.dst.elemBytes := by
  obtain ⟨hwritten, hvalue⟩ := c.pixel_storeAll m p.dst f hy hx
  rw [Pass.Holds, Pass.apply, hstores] at h
  exact ⟨(h.written (c.pixelAddr_in_region hb hy hx)).symm.trans hwritten, (h.pixel hb hy hx).symm.trans hvalue⟩

/-! ### The stages of RUN -/

section

variable {c : ConfigRegs} {m : Memory}

/-- A map whose stage holds: the census of the image, in every data space that holds the image alike (R113, R114). -/
theorem Pass.Holds.census {src dst : Buffer} (h : (censusPass src dst).Holds c m) (hp : ParametersLegal c)
    (hsrc : src.onePerPixel = true) (hdst : dst.onePerPixel = true) (hbytes : dst.elemBytes = 8) {m₀ : Memory}
    (himage : SameBuffer c src m₀ m) {y x : Nat} (hy : y < c.height) (hx : x < c.width) :
    c.hasPixel m dst y x = true ∧ c.pixel m dst y x = Machine.census c (c.pixel m₀ src) y x := by
  obtain ⟨hwritten, hvalue⟩ := h.pixel hdst (f := Machine.census c (c.pixel m src)) rfl hy hx
  have hbytes : (censusPass src dst).dst.elemBytes = 8 := hbytes
  rw [hbytes, Nat.mod_eq_of_lt (census_lt hp _ y x)] at hvalue
  exact ⟨hwritten, hvalue.trans (census_congr (fun y hy x hx => (himage.pixel hsrc hy hx).symm) hy hx)⟩

/-- COST where its stage holds: the cost over the two maps at every pixel and disparity (R131). -/
theorem Pass.Holds.costAt (h : costPass.Holds c m) {y x d : Nat} (hy : y < c.height) (hx : x < c.width)
    (hd : d < c.disparities) :
    c.hasCost m y x d = true ∧ c.costAt m y x d = matchCost c (c.pixel m .cenL) (c.pixel m .cenR) y x d := by
  obtain ⟨hwritten, hvalue⟩ := costAt_storeAll_costStores c m hy hx hd
  exact ⟨(SameBuffer.written h (c.costAddr_in_region hy hx hd)).symm.trans hwritten,
    (SameBuffer.costAt h hy hx hd).symm.trans hvalue⟩

/-- AGG where its stage holds: each direction's path costs over COST in its slot (R170). -/
theorem Pass.Holds.pathCosts (h : aggAllPass.Holds c m) (hp : c.penalty1 ≤ c.penalty2) (dir : Direction) :
    HoldsPathCosts c m m dir := by
  intro y hy x hx d hd
  obtain ⟨hwritten, hrecurrence⟩ :=
    holdsPathCosts_storeAll_aggStores hp m (dirs := Direction.all) (dir := dir) (by cases dir <;> decide) y hy x hx d hd
  have hcell {y x d : Nat} (hy : y < c.height) (hx : x < c.width) (hd : d < c.disparities) :
      c.aggAt (Memory.storeAll m (Direction.all.flatMap (aggStores c m))) y x d dir.slot = c.aggAt m y x d dir.slot :=
    SameBuffer.aggAt h hy hx hd dir.slot_lt
  refine ⟨(SameBuffer.written h (c.aggAddr_in_region hy hx hd dir.slot_lt)).symm.trans hwritten, ?_⟩
  rw [hcell hy hx hd] at hrecurrence
  split at hrecurrence
  · next hinside =>
    obtain ⟨least, step, hleast, hstep, heq⟩ := hrecurrence
    have hprev {d' : Nat} (hd' : d' < c.disparities) := hcell (y := ((y : Int) - (directionStep dir).1).toNat)
      (x := ((x : Int) - (directionStep dir).2).toNat) (by omega) (by omega) hd'
    rw [if_pos hinside]
    exact ⟨least, step, (isLeastOver_congr fun d' hd' => hprev hd').1 hleast,
      (isLeastOver_congr fun d' hd' => by rw [hprev hd']).1 hstep, heq⟩
  · next houtside => rwa [if_neg houtside]

/-- DISP where its stage holds: the lowest disparity with the least sum of slots (R190, R191). -/
theorem Pass.Holds.disp (h : selectPass.Holds c m) (hd : 1 ≤ c.disparities) {y x : Nat} (hy : y < c.height)
    (hx : x < c.width) :
    c.hasPixel m .disp y x = true ∧ IsLowestLeast c.disparities (slotTotal c m y x) (c.pixel m .disp y x) := by
  have hlowest := isLowestLeast_winner_pixelSums hd m y x
  obtain ⟨hwritten, hvalue⟩ := h.pixel rfl (f := fun y x => winner (pixelSums c m y x)) rfl hy hx
  refine ⟨hwritten, ?_⟩
  rwa [show c.pixel m .disp y x = winner (pixelSums c m y x) from
    hvalue.trans (Nat.mod_eq_of_lt (hlowest.1.trans c.disparities_lt))]

/-- SCALED where its stage holds: the rescaled disparity (R195). -/
theorem Pass.Holds.scaled (h : rescalePass.Holds c m) {y x : Nat} (hy : y < c.height) (hx : x < c.width) :
    c.hasPixel m .scaled y x = true ∧ c.pixel m .scaled y x = rescale c.disparities (c.pixel m .disp y x) := by
  obtain ⟨hwritten, hvalue⟩ := h.pixel rfl (f := fun y x => rescale c.disparities (c.pixel m .disp y x)) rfl hy hx
  exact ⟨hwritten, hvalue.trans (Nat.mod_eq_of_lt (Nat.lt_succ_of_le (rescale_le _ _)))⟩

/-- OUT where its stage holds: the middle sample of the window in SCALED (R200). -/
theorem Pass.Holds.out (h : medianPass.Holds c m) (hp : ParametersLegal c) {y x : Nat} (hy : y < c.height)
    (hx : x < c.width) :
    c.hasPixel m .out y x = true ∧ IsMiddle c.postK (medianSamples c m y x) (c.pixel m .out y x) := by
  have hmiddle := isMiddle_medianAt hp m y x
  obtain ⟨hwritten, hvalue⟩ := h.pixel rfl (f := medianAt c (c.pixel m .scaled)) rfl hy hx
  refine ⟨hwritten, ?_⟩
  rwa [show c.pixel m .out y x = medianAt c (c.pixel m .scaled) y x from
    hvalue.trans (Nat.mod_eq_of_lt (lt_of_mem_medianSamples hmiddle.1))]

end

/-! ### RUN -/

/-- What RUN makes of `m` in `m'`: the images are kept, and each of its seven stages holds (R221). -/
structure RunHolds (c : ConfigRegs) (m m' : Memory) : Prop where
  imgL : SameBuffer c .imgL m m'
  imgR : SameBuffer c .imgR m m'
  censusL : (censusPass .imgL .cenL).Holds c m'
  censusR : (censusPass .imgR .cenR).Holds c m'
  cost : costPass.Holds c m'
  aggAll : aggAllPass.Holds c m'
  select : selectPass.Holds c m'
  rescale : rescalePass.Holds c m'
  median : medianPass.Holds c m'

/-- No stage of RUN fills an image, and none undoes another (R78, R251). -/
theorem runHolds_applyAll {c : ConfigRegs} (h : BuffersLegal .run c) (m : Memory) :
    RunHolds c m (applyAll runPasses c m) := by
  have hholds := holds_applyAll (sound_runPasses c) (noneUndone_runPasses h) m
  obtain ⟨-, hlegal⟩ := h
  have hkept : ∀ b ∈ [Buffer.imgL, .imgR], SameBuffer c b m (applyAll runPasses c m) := by
    have hapart : ∀ b ∈ [Buffer.imgL, .imgR], b ∈ Instr.used .run ∧
        ∀ p ∈ runPasses, p.dst ∈ Instr.writes .run ∧ p.dst ≠ b := by decide
    refine fun b hb => sameBuffer_applyAll (sound_runPasses c) (fun p hp => ?_) m
    obtain ⟨hused, hwrites⟩ := hapart b hb
    obtain ⟨hdst, hne⟩ := hwrites p hp
    exact hlegal _ hdst b hused hne
  generalize applyAll runPasses c m = m' at hholds hkept ⊢
  simp only [runPasses, List.forall_mem_cons] at hholds hkept
  obtain ⟨hcensusL, hcensusR, hcost, haggAll, hselect, hrescale, hmedian, -⟩ := hholds
  obtain ⟨himgL, himgR, -⟩ := hkept
  exact ⟨himgL, himgR, hcensusL, hcensusR, hcost, haggAll, hselect, hrescale, hmedian⟩

/-- A legal RUN over written images completes, every stage holds in the data space it leaves, and every byte outside its
seven buffers is unchanged (R221, R66). -/
theorem completes_run {s : State} (hlegal : Legal .run s) (hl : CensusSamplesWritten s.cfg s.mem .imgL)
    (hr : CensusSamplesWritten s.cfg s.mem .imgR) :
    ∃ m, Completes .run s m ∧ RunHolds s.cfg s.mem m ∧ SameOutside ((Instr.writes .run).map s.cfg.region) s.mem m := by
  have ⟨_, hbuffers, _⟩ := hlegal
  obtain ⟨hcompletes, houtside⟩ := completes_of_body hlegal (by decide) (bodyRun_eq_applyAll hbuffers hl hr)
  exact ⟨_, hcompletes, runHolds_applyAll hbuffers s.mem, houtside⟩

end Sys2Proof.Machine
end

section
/-!
SUPPORT. Equal images (44_control.md R221): a cost of 0 at disparity 0 of every pixel passes through the path costs, the
selector and the post-filter as 0.
-/

namespace Sys2Proof.Machine

open Sys2Proof

variable {c : ConfigRegs} {m : Memory}

/-- No cost at disparity 0 along a slice, no path cost there: the predecessor's own 0 is a term of the inner minimum, with
penalty 0 (R150, R151). -/
theorem entry_slicePaths_eq_zero (hd : 0 < c.disparities) {ps : List (Nat × Nat)}
    (hcosts : ∀ p ∈ ps, c.costAt m p.1 p.2 0 = 0) {i : Nat} {p : Nat × Nat} (hp : ps[i]? = some p) :
    entry (slicePaths c m ps) i 0 = 0 := by
  have hcost := hcosts p (List.mem_of_getElem? hp)
  induction i generalizing p with
  | zero => rwa [entry, slicePaths, getD_pathCost_zero, getD_map_costVector hp, getD_costVector hd]
  | succ i ih =>
    have hi : i < ps.length := by
      have := (List.getElem?_eq_some_iff.1 hp).1
      omega
    have hprev : entry (slicePaths c m ps) i 0 = 0 :=
      ih (List.getElem?_eq_getElem hi) (hcosts _ (List.getElem_mem hi))
    have hlen : 0 < ((slicePaths c m ps).getD i []).length := by rwa [length_getD_slicePaths m hi]
    have hleast : minOf (penalised c.penalty1 c.penalty2 ((slicePaths c m ps).getD i []) 0) ≤ 0 :=
      calc minOf (penalised c.penalty1 c.penalty2 ((slicePaths c m ps).getD i []) 0)
          ≤ (penalised c.penalty1 c.penalty2 ((slicePaths c m ps).getD i []) 0).getD 0 0 :=
            minOf_le (getD_mem (by rwa [length_penalised]) 0)
        _ = entry (slicePaths c m ps) i 0 + penalty c.penalty1 c.penalty2 0 0 := getD_penalised _ _ 0 hlen
        _ = 0 := hprev
    have hstep := entry_slicePaths_succ m hp hd
    omega

/-- Where AGG's stage holds over costs of 0 at disparity 0, every slot is 0 there (R151). -/
theorem Pass.Holds.aggAt_eq_zero (h : aggAllPass.Holds c m) (hp : ParametersLegal c)
    (hcosts : ∀ y < c.height, ∀ x < c.width, c.costAt m y x 0 = 0) {y x k : Nat} (hy : y < c.height)
    (hx : x < c.width) (hk : k < 8) : c.aggAt m y x 0 k = 0 := by
  obtain ⟨-, -, -, hd, -, -, -, hpenalties, -⟩ := hp
  obtain ⟨dir, hdir, rfl⟩ := Direction.exists_slot_eq hk
  obtain ⟨ps, hps, hmem⟩ := mem_slices.2 (show (y, x).1 < c.height ∧ (y, x).2 < c.width from ⟨hy, hx⟩)
  obtain ⟨i, hi⟩ := List.mem_iff_getElem?.1 hmem
  have hslice : ∀ p ∈ ps, c.costAt m p.1 p.2 0 = 0 := fun p hp =>
    have hin := mem_slices.1 ⟨ps, hps, hp⟩
    hcosts p.1 hin.1 p.2 hin.2
  calc c.aggAt m y x 0 dir.slot
      = c.aggAt (aggAllPass.apply c m) y x 0 dir.slot := (SameBuffer.aggAt h hy hx hd hk).symm
    _ = entry (slicePaths c m ps) i 0 := (aggAt_storeAll_aggStores hpenalties m hdir hps hi hd).2
    _ = 0 := entry_slicePaths_eq_zero hd hslice hi

/-- Where AGG's stage holds over costs of 0 at disparity 0, the sum of the slots is 0 there (R190). -/
theorem Pass.Holds.slotTotal_eq_zero (h : aggAllPass.Holds c m) (hp : ParametersLegal c)
    (hcosts : ∀ y < c.height, ∀ x < c.width, c.costAt m y x 0 = 0) {y x : Nat} (hy : y < c.height) (hx : x < c.width) :
    slotTotal c m y x 0 = 0 := by
  have hslot {k : Nat} (hk : k < 8) := h.aggAt_eq_zero hp hcosts hy hx hk
  simp [slotTotal, hslot]

/-- An index whose value is 0 beats every index above it (R191). -/
theorem IsLowestLeast.eq_zero {n v : Nat} {f : Nat → Nat} (h : IsLowestLeast n f v) (hf : f 0 = 0) : v = 0 := by
  obtain ⟨hv, hleast⟩ := h
  by_contra hne
  have := (hleast 0 (by omega)).2 (by omega)
  omega

/-- Disparity 0 rescales to 0 (R195). -/
@[simp] theorem rescale_zero (d : Nat) : rescale d 0 = 0 := by simp [rescale]

/-- The samples of a window are pixels of SCALED (R201). -/
theorem exists_pixel_of_mem_medianSamples (hp : ParametersLegal c) {y x v : Nat} (h : v ∈ medianSamples c m y x) :
    ∃ y' < c.height, ∃ x' < c.width, c.pixel m .scaled y' x' = v := by
  obtain ⟨-, hheight, hwidth, -⟩ := hp
  simp only [medianSamples, List.mem_flatMap, List.mem_map] at h
  obtain ⟨i, -, j, -, rfl⟩ := h
  exact ⟨_, by omega, _, by omega, rfl⟩

end Sys2Proof.Machine
end

section
/-!
SUPPORT. The control commands (44_control.md): NOP, and RUN as its seven stages, each holding in the data space RUN leaves.
-/

namespace Sys2Proof.Proofs

open Sys2Proof Sys2Proof.Machine

/-- Settles O54: every stage holds in the data space RUN leaves, and the images the maps are of are the ones it found. -/
theorem runComputesTheWholePipeline : Obligations.RunComputesTheWholePipeline := by
  intro s hlegal hl hr
  obtain ⟨m, hcompletes, hrun, houtside⟩ := completes_run hlegal hl hr
  obtain ⟨hp, -⟩ := hlegal
  have ⟨_, _, _, hdisparities, _, _, _, hpenalties, _⟩ := hp
  refine ⟨m, hcompletes, fun y hy x hx => ?_, hrun.aggAll.pathCosts hpenalties, houtside⟩
  obtain ⟨hcenL, hleft⟩ := hrun.censusL.census hp rfl rfl rfl hrun.imgL hy hx
  obtain ⟨hcenR, hright⟩ := hrun.censusR.census hp rfl rfl rfl hrun.imgR hy hx
  obtain ⟨hdisp, hlowest⟩ := hrun.select.disp hdisparities hy hx
  obtain ⟨hscaled, hrescaled⟩ := hrun.rescale.scaled hy hx
  obtain ⟨hout, hmiddle⟩ := hrun.median.out hp hy hx
  refine ⟨by simp [hcenL, hcenR, hdisp, hscaled, hout], hleft ▸ isDescriptor_census hp _ y x,
    hright ▸ isDescriptor_census hp _ y x, fun d hd => ?_, hlowest.1, hlowest.2,
    hrescaled, hmiddle⟩
  rw [← matchCost_eq]
  exact hrun.cost.costAt hy hx hd

/-- Settles O55: each of the seven commands is legal where RUN is, and their bodies in a row are RUN's body. -/
theorem runEqualsTheSevenCommands : Obligations.RunEqualsTheSevenCommands := by
  intro s hlegal hl hr
  have ⟨_, hbuffers, _⟩ := hlegal
  have hbody := bodyRun_eq_applyAll hbuffers hl hr
  rw [bodyRun_eq_foldlM_bodyOf] at hbody
  obtain ⟨u, hexec, hmem⟩ := execAll_of_foldlM_bodyOf (legal_runCommands hlegal) hbody
  exact ⟨_, u, exec_run_of_written hlegal hl hr, hexec, hmem⟩

/-- Settles O57: equal images have equal maps, so disparity 0 costs nothing anywhere and wins everywhere. -/
theorem runOnEqualImagesGivesDisparityZero : Obligations.RunOnEqualImagesGivesDisparityZero := by
  intro s hlegal hl hr hequal
  obtain ⟨m, hcompletes, hrun, -⟩ := completes_run hlegal hl hr
  obtain ⟨hp, -⟩ := hlegal
  have ⟨_, _, _, hdisparities, _⟩ := hp
  have hmaps : ∀ y < s.cfg.height, ∀ x < s.cfg.width, s.cfg.pixel m .cenL y x = s.cfg.pixel m .cenR y x := by
    intro y hy x hx
    rw [(hrun.censusL.census hp rfl rfl rfl hrun.imgL hy hx).2, (hrun.censusR.census hp rfl rfl rfl hrun.imgR hy hx).2]
    exact census_congr hequal hy hx
  have hcosts : ∀ y < s.cfg.height, ∀ x < s.cfg.width, s.cfg.costAt m y x 0 = 0 := fun y hy x hx =>
    (hrun.cost.costAt hy hx hdisparities).2.trans (matchCost_zero_of_eq (hmaps y hy x hx))
  have hdisp : ∀ y < s.cfg.height, ∀ x < s.cfg.width, s.cfg.pixel m .disp y x = 0 := fun y hy x hx =>
    (hrun.select.disp hdisparities hy hx).2.eq_zero (hrun.aggAll.slotTotal_eq_zero hp hcosts hy hx)
  have hscaled : ∀ y < s.cfg.height, ∀ x < s.cfg.width, s.cfg.pixel m .scaled y x = 0 := fun y hy x hx => by
    rw [(hrun.rescale.scaled hy hx).2, hdisp y hy x hx, rescale_zero]
  refine ⟨m, hcompletes, fun y hy x hx => ⟨hdisp y hy x hx, hscaled y hy x hx, ?_⟩⟩
  obtain ⟨-, hsample, -⟩ := hrun.median.out hp hy hx
  obtain ⟨y', hy', x', hx', hpixel⟩ := exists_pixel_of_mem_medianSamples hp hsample
  exact hpixel.symm.trans (hscaled y' hy' x' hx')

/-- Settles O34: word 0 is the encoding of NOP, and NOP completes with the data space as it is. -/
theorem nopCompletes : Obligations.NopCompletes := ⟨decode_encode .nop, exec_nop⟩

end Sys2Proof.Proofs
end

section
/-!
SUPPORT. The core's turn (70_reset_and_hazards.md R288), and the rejection of an illegal word on it (60_exceptions.md R242).
-/

namespace Sys2Proof.Machine

open Sys2Proof

/-- The sequencer's test of whose turn it is, in the words of R288. -/
theorem State.coreTurn_iff (s : State) : s.coreTurn = true ↔ CoreActs s := by
  simp only [State.coreTurn, Bool.and_eq_true, Bool.or_eq_true, beq_iff_eq, List.isEmpty_iff]

/-- On the core's turn a next state of the core's step is the machine's next state (R288). -/
theorem step_of_coreStep_next {s t : State} (hturn : CoreActs s) (h : coreStep s = .next t) : step s = .next t := by
  rw [step, agentStep, if_pos (s.coreTurn_iff.2 hturn), h]

/-- The core rejects a word that is no command (60_exceptions.md R242). -/
theorem coreStep_of_illegalWord {s : State} (h : ¬∃ i, decode s.curCmd = .ok i) :
    coreStep s = .next (s.reject .illegalCommand .illegalWord) := by
  rw [coreStep]
  split
  · next i hi => exact absurd ⟨i, hi⟩ h
  · rfl

/-- OPCODE is bit 7 of ERR_INFO (10_state.md R28). -/
theorem ErrInfo.word_illegalWord : ErrInfo.illegalWord.word = 0x080#32 := by decide

end Sys2Proof.Machine

namespace Sys2Proof.Proofs

open Sys2Proof Sys2Proof.Machine

/-- Settles O5: such a word does not decode, and the core rejects a word that does not. -/
theorem illegalWordIsRejected : Obligations.IllegalWordIsRejected := by
  intro s hturn hword
  obtain ⟨hdefined, -⟩ := wordIsDefinedExactlyByReservedBitsAndOpcode s.curCmd
  have hillegal : ¬∃ i, decode s.curCmd = .ok i := by
    rw [hdefined]
    exact fun ⟨hreserved, hopcode⟩ => hword.elim (· hreserved) (· hopcode)
  exact ⟨.illegalWord, ErrInfo.word_illegalWord, step_of_coreStep_next hturn (coreStep_of_illegalWord hillegal)⟩

end Sys2Proof.Proofs
end

section
/-!
SUPPORT. The entry check bit by bit (60_exceptions.md R241 to R251): when each address check fails, which code a failed check
gives, and the rejection of a command that fails one (R252).
-/

namespace Sys2Proof.Machine

open Sys2Proof

/-! ### The address checks, as they fail (R249 to R251) -/

/-- R249: some used buffer is misaligned. -/
theorem misaligned_eq_true_iff (i : Instr) (c : ConfigRegs) :
    misaligned i c = true ↔ ∃ b ∈ Instr.used i, c.base b % b.elemBytes ≠ 0 := by
  simp only [misaligned, List.any_eq_true, bne_iff_ne]

/-- R250: some used buffer ends past 2^32. -/
theorem outOfRange_eq_true_iff (i : Instr) (c : ConfigRegs) :
    outOfRange i c = true ↔ ∃ b ∈ Instr.used i, 2 ^ 32 < c.base b + c.size b := by
  simp only [outOfRange, List.any_eq_true, decide_eq_true_eq]
  exact Iff.rfl

/-- R251: some written buffer and another used one have bytes, and each begins before the other ends. -/
theorem overlapping_eq_true_iff (i : Instr) (c : ConfigRegs) :
    overlapping i c = true ↔ ∃ a ∈ Instr.writes i, ∃ b ∈ Instr.used i, a ≠ b ∧ 0 < c.size a ∧ 0 < c.size b ∧
      c.base a < c.base b + c.size b ∧ c.base b < c.base a + c.size a := by
  simp only [overlapping, Region.meets, List.any_eq_true, Bool.and_eq_true, bne_iff_ne, decide_eq_true_eq, and_assoc]
  exact Iff.rfl

/-! ### The code (R240, R257) -/

/-- R243: the shape check fails where the right image's size differs. -/
theorem checkEntry_shape_iff (i : Instr) (c : ConfigRegs) : (checkEntry i c).shape = true ↔ c.dimR ≠ c.dim := bne_iff_ne

/-- R244 to R248: between images of one size, a check of a single parameter fails exactly when the parameters are not
legal. -/
theorem checkEntry_anyParameter_iff (i : Instr) {c : ConfigRegs} (hshape : c.dimR = c.dim) :
    (checkEntry i c).anyParameter = true ↔ ¬ParametersLegal c := by
  simp only [checkEntry, ErrInfo.anyParameter, Bool.or_eq_true, beq_iff_eq, decide_eq_true_eq, ParametersLegal, hshape,
    true_and]
  omega

/-- R249 to R251: with legal parameters, an address check fails exactly when the buffers are not legal. -/
theorem checkEntry_anyAddress_iff (i : Instr) {c : ConfigRegs} (hparameters : ParametersLegal c) :
    (checkEntry i c).anyAddress = true ↔ ¬BuffersLegal i c := by
  rw [← Bool.not_eq_false, not_iff_not]
  simp only [ErrInfo.anyAddress, checkEntry, Bool.or_eq_false_iff, misaligned_iff, outOfRange_iff,
    overlapping_iff hparameters]
  exact and_congr_left' forall₂_and.symm

/-- The code of the entry check: 1 for the shape, else 2 for a parameter, else 4 for a buffer. -/
theorem checkEntry_code (i : Instr) (c : ConfigRegs) :
    (checkEntry i c).code =
      if c.dimR ≠ c.dim then .shapeMismatch
      else if ¬ParametersLegal c then .invalidParameter
      else if ¬BuffersLegal i c then .addressError
      else .none := by
  have hopcode : ¬(checkEntry i c).opcode = true := Bool.false_ne_true
  rw [ErrInfo.code, if_neg hopcode]
  refine ite_congr (propext (checkEntry_shape_iff i c)) (fun _ => rfl) fun hshape => ?_
  refine ite_congr (propext (checkEntry_anyParameter_iff i (not_not.1 hshape))) (fun _ => rfl) fun hparameters => ?_
  exact if_congr (checkEntry_anyAddress_iff i (not_not.1 hparameters)) rfl rfl

/-! ### Rejection (R252) -/

/-- A command that fails a check is rejected with the code and the failed checks. -/
theorem exec_reject {i : Instr} {s : State} (hi : i ≠ .nop) (hfail : ¬(ParametersLegal s.cfg ∧ BuffersLegal i s.cfg)) :
    exec i s = .next (s.reject (checkEntry i s.cfg).code (checkEntry i s.cfg)) := by
  rw [exec_eq_perform hi]
  exact perform_reject (mt (checkEntry_code_eq_none_iff i s.cfg).1 hfail)

/-- With legal parameters and illegal buffers the code is ADDRESS_ERROR. -/
theorem exec_addressError {i : Instr} {s : State} (hi : i ≠ .nop) (hparameters : ParametersLegal s.cfg)
    (hbuffers : ¬BuffersLegal i s.cfg) : exec i s = .next (s.reject .addressError (checkEntry i s.cfg)) := by
  have hcode : (checkEntry i s.cfg).code = .addressError := by
    rw [checkEntry_code, if_neg (not_not.2 hparameters.1), if_neg (not_not.2 hparameters), if_pos hbuffers]
  rw [exec_reject hi fun h => hbuffers h.2, hcode]

/-! ### The error registers as words (10_state.md R27, R28) -/

/-- Offset 0x0C reads ERR_CODE. -/
theorem State.readOffset_errCode (s : State) : s.readOffset 0x0C = s.errCode.word := s.readOffset_offset .errCode

/-- Offset 0x10 reads ERR_INFO. -/
theorem State.readOffset_errInfo (s : State) : s.readOffset 0x10 = s.errInfo.word := s.readOffset_offset .errInfo

/-- The checks are bits 0 to 10 of ERR_INFO, SHAPE first. -/
theorem ErrInfo.getLsbD_word (e : ErrInfo) :
    e.word.getLsbD 0 = e.shape ∧ e.word.getLsbD 1 = e.dimZero ∧ e.word.getLsbD 2 = e.dZero ∧
    e.word.getLsbD 3 = e.kernelEven ∧ e.word.getLsbD 4 = e.kernelBits ∧ e.word.getLsbD 5 = e.pOrder ∧
    e.word.getLsbD 6 = e.postKEven ∧ e.word.getLsbD 7 = e.opcode ∧ e.word.getLsbD 8 = e.align ∧
    e.word.getLsbD 9 = e.range ∧ e.word.getLsbD 10 = e.overlap := by
  simp only [ErrInfo.word, BitVec.getLsbD_append, BitVec.getLsbD_ofBool]
  simp

end Sys2Proof.Machine

namespace Sys2Proof.Proofs

open Sys2Proof Sys2Proof.Machine

/-- Settles O26: the command is rejected with the entry check's code, which is not NONE. -/
theorem rejectionIsPrecise : Obligations.RejectionIsPrecise := by
  intro i s hi hfail
  exact ⟨_, _, mt (checkEntry_code_eq_none_iff i s.cfg).1 hfail, exec_reject hi hfail⟩

/-- Settles O27: ERR_INFO is the entry check bit by bit, and ERR_CODE its code. -/
theorem everyFailedCheckIsRecorded : Obligations.EveryFailedCheckIsRecorded := by
  intro i s hi hfail
  refine ⟨_, exec_reject hi hfail, ?_⟩
  obtain ⟨h0, h1, h2, h3, h4, h5, h6, h7, h8, h9, h10⟩ := (checkEntry i s.cfg).getLsbD_word
  rw [State.readOffset_errInfo, State.readOffset_errCode, State.reject_errInfo, State.reject_errCode, h0, h1, h2, h3, h4,
    h5, h6, h7, h8, h9, h10, checkEntry_code]
  refine ⟨bne_iff_ne, by simp [checkEntry], beq_iff_eq, by simp [checkEntry], decide_eq_true_iff, decide_eq_true_iff,
    beq_iff_eq, rfl, misaligned_eq_true_iff i s.cfg, outOfRange_eq_true_iff i s.cfg, overlapping_eq_true_iff i s.cfg, ?_⟩
  rw [apply_ite ErrCode.word, apply_ite ErrCode.word]
  refine ite_congr rfl (fun _ => rfl) fun _ => ite_congr rfl (fun _ => rfl) fun hparameters => ?_
  rw [if_pos fun hbuffers => hfail ⟨not_not.1 hparameters, hbuffers⟩]
  rfl

/-- Settles O28: each of the three makes the buffers illegal, so the command is rejected with ADDRESS_ERROR and the check that
fails. -/
theorem badBuffersAreAddressErrors : Obligations.BadBuffersAreAddressErrors := by
  intro i s b hi hparameters hb
  refine ⟨fun hbase => ?_, fun hend => ?_, fun a ha hab hlow hhigh => ?_⟩
  · refine ⟨_, exec_addressError hi hparameters fun ⟨hfit, _⟩ => hbase (hfit b hb).1, rfl, ?_, rfl⟩
    exact (misaligned_eq_true_iff i s.cfg).2 ⟨b, hb, hbase⟩
  · refine ⟨_, exec_addressError hi hparameters fun ⟨hfit, _⟩ => hend.not_ge (hfit b hb).2, rfl, ?_, rfl⟩
    exact (outOfRange_eq_true_iff i s.cfg).2 ⟨b, hb, hend⟩
  · have hbuffers : ¬BuffersLegal i s.cfg := fun ⟨_, hapart⟩ => by
      have := hapart a ha b hb hab
      omega
    refine ⟨_, exec_addressError hi hparameters hbuffers, rfl, ?_, rfl⟩
    exact (overlapping_eq_true_iff i s.cfg).2
      ⟨a, ha, b, hb, hab, ConfigRegs.size_pos hparameters a, ConfigRegs.size_pos hparameters b, hlow, hhigh⟩

end Sys2Proof.Proofs
end

section
/-!
SUPPORT. The interrupt line (60_exceptions.md R255) and the end of a command: DONE or ERR set, INT_EN kept.
-/

namespace Sys2Proof.Machine

open Sys2Proof

/-- Offset 0x08 reads STATUS (10_state.md R26). -/
theorem State.readOffset_status (s : State) : s.readOffset 0x08 = s.status := s.readOffset_offset .status

/-- Offset 0x14 reads INT_EN (10_state.md R29). -/
theorem State.readOffset_intEn (s : State) : s.readOffset 0x14 = s.intEn.setWidth 32 := s.readOffset_offset .intEn

/-- IRQ is up exactly when DONE, ERR or CMD_LOST is set with its enable (R255). -/
theorem State.irq_iff (s : State) : s.irq = true ↔
    (s.done = true ∧ s.intEn.getLsbD 0 = true) ∨ (s.err = true ∧ s.intEn.getLsbD 1 = true) ∨
      (s.cmdLost = true ∧ s.intEn.getLsbD 2 = true) := by
  simp only [State.irq, Bool.or_eq_true, Bool.and_eq_true, or_assoc]

/-- A command ends with ERR where it is rejected and with DONE where it completes, and keeps INT_EN (R252, R288). -/
theorem exec_ends {i : Instr} {s t : State} (h : exec i s = .next t) :
    t.intEn = s.intEn ∧ (t.err = true ∨ t.done = true) := by
  obtain ⟨-, -, rfl⟩ | ⟨m, -, -, rfl⟩ := exec_next h
  · exact ⟨rfl, .inl rfl⟩
  · exact ⟨rfl, .inr rfl⟩

/-- So does the core's step, which rejects an illegal word (R242). -/
theorem coreStep_ends {s t : State} (h : coreStep s = .next t) :
    t.intEn = s.intEn ∧ (t.err = true ∨ t.done = true) := by
  obtain ⟨i, -, hexec⟩ | ⟨e, -, rfl⟩ := coreStep_next h
  · exact exec_ends hexec
  · exact ⟨rfl, .inl rfl⟩

end Sys2Proof.Machine

namespace Sys2Proof.Proofs

open Sys2Proof Sys2Proof.Machine

/-- Settles O20: the flags and enables are bits of the two words, a command ends with DONE or ERR, and a CMD write while busy
is dropped with CMD_LOST. -/
theorem irqFollowsStatusAndEnables : Obligations.IrqFollowsStatusAndEnables := by
  refine ⟨fun s => ?_, fun s t h => ?_, fun s v rest hbusy hlost h => ?_⟩
  · obtain ⟨-, hdone, herr, hlost⟩ := s.getLsbD_status
    rw [State.readOffset_status, State.readOffset_intEn, hdone, herr, hlost]
    simp [State.irq]
  · obtain ⟨hintEn, hend⟩ : t.intEn = s.intEn ∧ (t.err = true ∨ t.done = true) :=
      h.elim coreStep_ends fun ⟨_, hexec⟩ => exec_ends hexec
    simp only [State.irq_iff, hintEn]
    exact ⟨fun herr henable => .inl ⟨hend.resolve_left (by simp [herr]), henable⟩,
      fun herr henable => .inr (.inl ⟨herr, henable⟩), fun hdone henable => .inl ⟨hdone, henable⟩⟩
  · have hstep : step s = .next (s.takeInput.writeCmd (v.setWidth 32)) := step_of_busWrite (by decide) (by decide) h
    rw [State.writeCmd, if_pos (by simpa using hbusy)] at hstep
    exact ⟨_, hstep, (State.irq_iff _).2 (.inr (.inr ⟨rfl, hlost⟩))⟩

end Sys2Proof.Proofs
end

section
/-!
SUPPORT. Whose turn it is (70_reset_and_hazards.md R288): the core's step of a command, the step of a stuck core
(20_memory.md R60), and the idle machine with no input.
-/

namespace Sys2Proof.Machine

open Sys2Proof

/-- The core performs the command its word decodes to (R288). -/
theorem coreStep_of_decode {s : State} {i : Instr} (h : decode s.curCmd = .ok i) : coreStep s = exec i s := by
  rw [coreStep, h]

/-- On its turn a core that is not stuck makes the machine's step (R288). -/
theorem step_of_coreActs {s : State} (hturn : CoreActs s) (hstuck : coreStep s ≠ .fault .coreStuck) :
    step s = coreStep s := by
  rw [step, agentStep, if_pos (s.coreTurn_iff.2 hturn)]
  split
  · next t ht => exact ht.symm
  · next hfault => exact absurd hfault hstuck
  · next f _ hfault => exact hfault.symm
  · next r hrefused => exact hrefused.symm

/-- On the turn of a stuck core the host goes on, or the machine stops when nothing is left to do (R60). -/
theorem step_of_stuck {s : State} (hturn : CoreActs s) (hstuck : coreStep s = .fault .coreStuck) :
    step s = if s.inputs = [] then .fault .coreStuck else hostStep s := by
  rw [step, agentStep, if_pos (s.coreTurn_iff.2 hturn), hstuck]
  simp only [List.isEmpty_iff]

/-- With the core idle the step is the host's (R288). -/
theorem step_of_idle {s : State} (hidle : s.busy = false) : step s = hostStep s := by
  have hturn : ¬s.coreTurn = true := by simp [s.coreTurn_iff, hidle]
  rw [step, agentStep, if_neg hturn]

end Sys2Proof.Machine

namespace Sys2Proof.Proofs

open Sys2Proof Sys2Proof.Machine

/-- Settles O4: the core's step is the decoded command's, and only the fault of a stuck core lets the host go on. -/
theorem stepPerformsTheAcceptedCommand : Obligations.StepPerformsTheAcceptedCommand := by
  intro s i hturn hdecode
  rw [← coreStep_of_decode hdecode]
  refine ⟨fun h => step_of_coreActs hturn fun hstuck => h _ hstuck rfl, fun hstuck hnil => ?_, fun hstuck hne => ?_⟩
  · rw [step_of_stuck hturn hstuck, if_pos hnil]
  · rw [step_of_stuck hturn hstuck, if_neg hne]

/-- Settles O6: the next input acts when the core does not, and an idle machine with no input has an empty host step. -/
theorem hostActsWhenTheCoreDoesNot : Obligations.HostActsWhenTheCoreDoesNot := by
  refine ⟨fun s input rest => step_of_hostActs, fun s hidle hnil => ?_⟩
  rw [step_of_idle hidle, hostStep, hnil]

end Sys2Proof.Proofs
end

section
/-!
SUPPORT. The host's forbidden accesses to the data space (70_reset_and_hazards.md R281, R291, R294, R296), each under the
conditions by which the faults before it are shut out.
-/

namespace Sys2Proof.Machine

open Sys2Proof

/-- An access races the running command exactly when it is not clear of its buffers (R291). -/
theorem State.races_eq_true_iff (s : State) (addr : Word) (w : Width) :
    s.races ⟨addr.toNat, w.bytes⟩ = true ↔ ¬AccessClear s addr w := by
  rw [← s.races_eq_false_iff, Bool.not_eq_false]

/-- A host read that races the running command is a HOST_RACE (R291). -/
theorem hostMemRead_of_race {addr : Word} {w : Width} {s : State} (hrace : ¬AccessClear s addr w) :
    hostMemRead addr w s = .fault .hostRace := by
  rw [hostMemRead, if_pos ((s.races_eq_true_iff addr w).2 hrace)]

/-- So is a host write (R291). -/
theorem hostMemWrite_of_race {addr : Word} {w : Width} {s : State} (hrace : ¬AccessClear s addr w) (v : DWord) :
    hostMemWrite addr w v s = .fault .hostRace := by
  rw [hostMemWrite, if_pos ((s.races_eq_true_iff addr w).2 hrace)]

/-- A host read that races nothing but meets an unseen output is early (R294, R296). -/
theorem hostMemRead_of_unseen {addr : Word} {w : Width} {s : State} (hclear : AccessClear s addr w)
    (hmeets : ∃ r ∈ s.unseen, AccessMeets addr w r) : hostMemRead addr w s = .fault .earlyRead := by
  have hraces : s.races ⟨addr.toNat, w.bytes⟩ = false := (s.races_eq_false_iff addr w).2 hclear
  have hunseen : s.unseen.any (Region.meets ⟨addr.toNat, w.bytes⟩) = true := by
    simpa only [List.any_eq_true, meets_access_iff] using hmeets
  simp [hostMemRead, hraces, hunseen]

/-- A host read that nothing else forbids is an UNWRITTEN_READ where a byte of it has no value (R281). -/
theorem hostMemRead_of_unwritten {addr : Word} {w : Width} {s : State} (hclear : AccessClear s addr w)
    (hseen : ∀ r ∈ s.unseen, ¬AccessMeets addr w r) (hbacked : AccessBacked s addr w)
    (hbyte : ∃ o < w.bytes, Memory.byte? s.mem (addr.toNat + o) = none) :
    hostMemRead addr w s = .fault .unwrittenRead := by
  have hraces : s.races ⟨addr.toNat, w.bytes⟩ = false := (s.races_eq_false_iff addr w).2 hclear
  have hunseen : s.unseen.any (Region.meets ⟨addr.toNat, w.bytes⟩) = false :=
    (s.unseen_any_meets_eq_false_iff addr w).2 hseen
  have hregion : s.platform.backsRegion ⟨addr.toNat, w.bytes⟩ = true := (Platform.backsRegion_iff _ _).2 hbacked
  have hwritten : Memory.written s.mem addr.toNat w.bytes = false := by
    obtain ⟨o, ho, hnone⟩ := hbyte
    refine Bool.eq_false_iff.2 fun hwritten => ?_
    simpa [hnone] using Memory.written_iff.1 hwritten o ho
  simp [hostMemRead, hraces, hunseen, hregion, hwritten]

end Sys2Proof.Machine

namespace Sys2Proof.Proofs

open Sys2Proof Sys2Proof.Machine

/-- Settles O22: an access that touches a buffer of the running command is not clear of them. -/
theorem touchingARunningBufferIsAHostRace : Obligations.TouchingARunningBufferIsAHostRace := by
  intro s i b addr w v rest hbusy hdecode hb htouches
  have hrace : ¬AccessClear s.takeInput addr w := fun hclear => hclear hbusy i hdecode b hb htouches
  exact ⟨fun h => (step_of_hostActs h).trans (hostMemRead_of_race hrace),
    fun h => (step_of_hostActs h).trans (hostMemWrite_of_race hrace v)⟩

/-- Settles O23: none of the faults that rank before it is raised. -/
theorem hostReadOfUnwrittenByteFaults : Obligations.HostReadOfUnwrittenByteFaults :=
  fun s _ _ _ h hbacked hclear hseen hbyte =>
    (step_of_hostActs h).trans (hostMemRead_of_unwritten (s := s.takeInput) hclear hseen hbacked hbyte)

end Sys2Proof.Proofs
end

section
/-!
SUPPORT. Which host actions show the completion (70_reset_and_hazards.md R294, 60_exceptions.md R257): what each input leaves
of the unseen outputs.
-/

namespace Sys2Proof.Machine

open Sys2Proof

/-- A bus access that reaches an offset of the window is a 32-bit one at that offset (10_state.md R39). -/
theorem busTarget_eq_offset {p : Platform} {addr off : Nat} {w : Width} (h : busTarget p addr w = .offset off) :
    addr = p.regBase + off ∧ w = .w32 := by
  rw [busTarget] at h
  split at h
  · cases h
  · split at h
    · next hregister =>
      obtain ⟨hw, hbase, -⟩ := hregister
      cases h
      exact ⟨by omega, hw⟩
    · cases h

/-- A sample of the IRQ line shows DONE exactly when DONE is set and DONE_IE alone enabled (60_exceptions.md R255, R257). -/
theorem State.irqShowsDone_iff (s : State) : s.irqShowsDone = true ↔ s.done = true ∧ s.intEn = 1#3 := by
  simp only [State.irqShowsDone, Bool.and_eq_true, beq_iff_eq, State.irq_iff]
  refine and_congr_left fun henables => ?_
  simp [henables]

/-- A register write leaves the unseen outputs (R294). -/
theorem State.writeOffset_unseen (s : State) (off : Nat) (v : Word) : (s.writeOffset off v).unseen = s.unseen := by
  generalize s.writeOffset off v = t, s.windowWrite_writeOffset off v = hwrite
  cases hwrite <;> rfl

/-- Of what the host or the platform can do, only an input that shows the completion empties the unseen outputs (R294). -/
theorem hostAct_unseen {input : Input} {s t : State} (h : hostAct input s = .next t) :
    t.unseen = if ShowsCompletion s input then [] else s.unseen := by
  cases input with
  | reset =>
    cases h
    simp
  | busRead addr w =>
    obtain ⟨off, htarget, rfl⟩ := hostBusRead_next h
    obtain ⟨rfl, rfl⟩ := busTarget_eq_offset htarget
    simp [ShowsCompletion, State.hostReadOffset_eq, Reg.atOffset_eq_status_iff, State.showsCompletion_iff]
  | busWrite addr w v =>
    obtain ⟨off, -, rfl⟩ := hostBusWrite_next h
    simp [State.writeOffset_unseen]
  | memRead addr w =>
    obtain ⟨-, -, -, rfl⟩ := hostMemRead_next h
    simp
  | memWrite addr w v =>
    obtain ⟨-, -, rfl⟩ := hostMemWrite_next h
    simp
  | pollIdle =>
    cases h
    simp [ShowsCompletion, State.hostReadOffset_eq, Reg.atOffset_eq_status_iff, State.showsCompletion_iff]
  | readIrq =>
    cases h
    simp [ShowsCompletion, State.hostReadIrq_eq, State.irqShowsDone_iff]

/-- An input that shows the completion is no fault. -/
theorem exists_hostAct_of_showsCompletion {input : Input} {s : State} (h : ShowsCompletion s input) :
    ∃ t, hostAct input s = .next t := by
  obtain ⟨rfl | rfl, -⟩ | ⟨rfl, -⟩ := h
  · exact ⟨_, by rw [hostAct, hostBusRead, busTarget_of_aligned _ (by decide) (by decide)]⟩
  · exact ⟨_, rfl⟩
  · exact ⟨_, rfl⟩

end Sys2Proof.Machine

namespace Sys2Proof.Proofs

open Sys2Proof Sys2Proof.Machine

/-- Settles O24: a read that meets an unseen output is early, and an input empties them exactly when it shows the
completion. -/
theorem outputsAreReadOnlyAfterDoneIsSeen : Obligations.OutputsAreReadOnlyAfterDoneIsSeen := by
  refine ⟨fun s addr w r rest h hclear hr hmeets => ?_, fun s input rest h hshows => ?_,
    fun s t input rest h hshows hstep => ?_⟩
  · exact (step_of_hostActs h).trans (hostMemRead_of_unseen (s := s.takeInput) hclear ⟨r, hr, hmeets⟩)
  · obtain ⟨t, ht⟩ := exists_hostAct_of_showsCompletion (s := s.takeInput) hshows
    exact ⟨t, (step_of_hostActs h).trans ht, (hostAct_unseen ht).trans (if_pos hshows)⟩
  · rw [step_of_hostActs h] at hstep
    exact (hostAct_unseen hstep).trans (if_neg hshows)

end Sys2Proof.Proofs
end

section
/-!
SUPPORT. The reset input (70_reset_and_hazards.md R280 to R282): the registers it leaves, and the free bytes it draws for an
abandoned command's outputs.
-/

namespace Sys2Proof.Machine

open Sys2Proof

/-- Reset leaves every register as power-up does (R280). -/
theorem State.readOffset_applyReset (s : State) (off : Nat) :
    s.applyReset.readOffset off = (State.resetOn s.platform).readOffset off := by
  have hreg (r : Reg) : s.applyReset.readReg r = (State.resetOn s.platform).readReg r := by cases r <;> rfl
  obtain hreserved | ⟨r, rfl⟩ := Reg.reserved_or_offset off
  · rw [State.readOffset_of_reserved _ hreserved, State.readOffset_of_reserved _ hreserved]
  · rw [State.readOffset_offset, State.readOffset_offset, hreg]

/-- Each drawn address holds one of the drawn bytes, by its number (R282). -/
theorem Memory.byte?_drawAll_of_mem {m : Memory} {n : Nat} {l : List Nat} {a : Nat} (h : a ∈ l) :
    ∃ k, n ≤ k ∧ k < n + l.length ∧ Memory.byte? (Memory.drawAll m n l) a = some (Config.resetByte k) := by
  induction l generalizing m n with
  | nil => cases h
  | cons x rest ih =>
    rw [Memory.drawAll, List.length_cons]
    by_cases hrest : a ∈ rest
    · obtain ⟨k, hlow, hhigh, hbyte⟩ := ih hrest
      exact ⟨k, by omega, by omega, hbyte⟩
    · obtain rfl : a = x := (List.mem_cons.1 h).resolve_right hrest
      refine ⟨n, le_rfl, by omega, ?_⟩
      rw [Memory.byte?_drawAll_outside hrest, Memory.byte?_writeByte, if_pos rfl]

/-- A reset leaves open the backed bytes of the written buffers of a command it abandons (R282). -/
theorem State.mem_abandoned {s : State} {a : Nat} : a ∈ s.abandoned ↔ s.busy = true ∧ s.platform.backs a = true ∧
    ∃ i, decode s.curCmd = .ok i ∧ ∃ b ∈ Instr.writes i, s.cfg.base b ≤ a ∧ a < s.cfg.base b + s.cfg.size b := by
  have hregion (b : Buffer) : (∃ o < s.cfg.size b, s.cfg.base b + o = a) ↔
      s.cfg.base b ≤ a ∧ a < s.cfg.base b + s.cfg.size b :=
    ⟨by rintro ⟨o, ho, rfl⟩; omega, fun _ => ⟨a - s.cfg.base b, by omega, by omega⟩⟩
  rw [State.abandoned, State.commandWrites]
  cases s.busy with
  | false => simp
  | true =>
    cases decode s.curCmd with
    | error e => simp
    | ok i => simpa [outputs, ConfigRegs.region, hregion] using and_comm

end Sys2Proof.Machine

namespace Sys2Proof.Proofs

open Sys2Proof Sys2Proof.Machine

/-- Settles O25: the registers are those of power-up, and the data space changes by the draws for the abandoned command. -/
theorem resetInputRestoresRegistersAndKeepsMemory : Obligations.ResetInputRestoresRegistersAndKeepsMemory := by
  intro s rest h
  have hinputs : s.takeInput.inputs = rest := by rw [State.takeInput_of_inputs h.1 (by simp)]
  obtain ⟨hregisters, -⟩ := resetLeavesTheResetValues s.platform
  refine ⟨s.takeInput.applyReset, step_of_hostActs h, fun off => ?_, rfl, rfl, hinputs, rfl, fun hidle => ?_,
    fun a hout => ?_, fun i b a hbusy hdecode hb hbacked hlow hhigh => ?_⟩
  · rw [State.readOffset_applyReset]
    exact hregisters off
  · simp [State.abandoned, hidle, Memory.drawAll]
  · refine Memory.byte?_drawAll_outside fun hmem => ?_
    obtain ⟨-, -, i, hdecode, b, hb, hin⟩ := State.mem_abandoned.1 hmem
    exact hout i hdecode b hb hin
  · exact Memory.byte?_drawAll_of_mem (State.mem_abandoned.2 ⟨hbusy, hbacked, i, hdecode, b, hb, hlow, hhigh⟩)

end Sys2Proof.Proofs
end

section
/-!
SUPPORT. Reads of unwritten elements by a command (70_reset_and_hazards.md R281): what each body's check asks for, and the
fault where a legal command's body finds an element unwritten.
-/

namespace Sys2Proof.Machine

open Sys2Proof

/-- A body that finds an element it reads unwritten has no effect (R281). -/
theorem Memory.transform_eq_none {m : Memory} {readable : Bool} {l : List Store} (h : ¬readable = true) :
    Memory.transform m readable l = none := if_neg h

/-- A legal command whose body finds an element it reads unwritten is an UNWRITTEN_READ (R281). -/
theorem exec_unwritten {i : Instr} {s : State} (hlegal : Legal i s) (hi : i ≠ .nop)
    (hbody : bodyOf i s.cfg s.mem = none) : exec i s = .fault .unwrittenRead := by
  obtain ⟨hparameters, hbuffers, hbacked⟩ := hlegal
  rw [exec_eq_perform hi]
  simp [perform, (checkEntry_code_eq_none_iff i s.cfg).2 ⟨hparameters, hbuffers⟩,
    (buffersBacked_iff i s).2 hbacked, hbody]

/-- The pairs of descriptors that COST checks are those it compares (41_cost.md R131, R132). -/
theorem costReadable_iff {c : ConfigRegs} {m : Memory} :
    costReadable c m = true ↔ ∀ y < c.height, ∀ x < c.width, c.interior y x = true → ∀ d < c.disparities,
      c.hasPixel m .cenL y x = true ∧ c.hasPixel m .cenR y (rightColumn c x d) = true := by
  rw [costReadable, ConfigRegs.all_pixels]
  simp only [Bool.or_eq_true, Bool.not_eq_true', List.all_eq_true, List.mem_range, Bool.and_eq_true]
  refine forall₂_congr fun y _ => forall₂_congr fun x _ => ?_
  rw [← Bool.not_eq_true, ← imp_iff_not_or]

/-- At disparity 0 COST compares the two descriptors of each interior pixel, so it reads them all (R132). -/
theorem descriptorsWritten_of_costReadable {c : ConfigRegs} {m : Memory} (hd : 1 ≤ c.disparities)
    (h : costReadable c m = true) : DescriptorsWritten c m := by
  intro y hy x hx hin
  simpa [rightColumn_zero hin] using costReadable_iff.1 h y hy x hx hin 0 hd

/-- The samples that MEDIAN checks are those of the windows (43_select.md R200). -/
theorem medianReadable_iff {c : ConfigRegs} {m : Memory} :
    medianReadable c m = true ↔ ∀ y < c.height, ∀ x < c.width, ∀ q ∈ windowPixels c y x,
      c.hasPixel m .scaled q.1 q.2 = true := by
  rw [medianReadable, ConfigRegs.all_pixels]
  simp only [List.all_eq_true]

/-- The pixel is a sample of its own window (R200). -/
theorem mem_windowPixels_self {c : ConfigRegs} {y x : Nat} (hy : y < c.height) (hx : x < c.width) :
    (y, x) ∈ windowPixels c y x := by
  have hzero : (0 : Int) ∈ windowOffsets c.postK :=
    List.mem_map.2 ⟨c.postK / 2, List.mem_range.2 (by omega), sub_self _⟩
  have hclamp {v n : Nat} (h : v < n) : clampCoord ((v : Int) + 0) n = v := by
    simp only [clampCoord]
    omega
  exact List.mem_flatMap.2 ⟨0, hzero, List.mem_map.2 ⟨0, hzero, by rw [hclamp hy, hclamp hx]⟩⟩

/-- So MEDIAN reads the whole of SCALED (R200). -/
theorem pixelsWritten_of_medianReadable {c : ConfigRegs} {m : Memory} (h : medianReadable c m = true) :
    PixelsWritten c m .scaled :=
  fun y hy x hx => medianReadable_iff.1 h y hy x hx _ (mem_windowPixels_self hy hx)

/-- Data spaces that hold an image alike have the same of its samples written (40_census.md R110). -/
theorem SameBuffer.censusSamplesWritten_iff {c : ConfigRegs} {b : Buffer} {m m' : Memory} (h : SameBuffer c b m m')
    (hb : b.onePerPixel = true) : CensusSamplesWritten c m b ↔ CensusSamplesWritten c m' b := by
  have hpixel {y x : Nat} (hy : y < c.height) (hx : x < c.width) : c.hasPixel m b y x = c.hasPixel m' b y x :=
    h.written (c.pixelAddr_in_region hb hy hx)
  refine forall₂_congr fun y hy => forall₂_congr fun x hx => imp_congr_right fun hin =>
    forall₂_congr fun i hi => forall₂_congr fun j hj => imp_congr_right fun hne => ?_
  obtain ⟨hqy, hqx⟩ := neighbours_in_image hin (mem_neighbours.2 ⟨i, hi, j, hj, hne, rfl⟩)
  rw [hpixel hqy hqx, hpixel hy hx]

/-- AGG_ALL finds an unwritten cost when its first direction does (42_aggregate.md R170). -/
theorem bodyAggAll_eq_none {c : ConfigRegs} {m : Memory} (h : ¬CostsWritten c m) : bodyAggAll c m = none := by
  have hfirst : bodyAgg .e c m = none := Memory.transform_eq_none (mt aggReadable_iff.1 h)
  rw [bodyAggAll, Direction.all, List.foldlM_cons, hfirst]
  rfl

/-- Where RUN's body has an effect, the samples of both images were written before it: CENSUS_L does not write IMG_R
(44_control.md R221, R251). -/
theorem censusSamplesWritten_of_bodyRun {c : ConfigRegs} {m m' : Memory} (hapart : c.Apart .cenL .imgR)
    (h : bodyRun c m = some m') : CensusSamplesWritten c m .imgL ∧ CensusSamplesWritten c m .imgR := by
  simp only [bodyRun, Option.bind_eq_bind, Option.bind_eq_some_iff] at h
  obtain ⟨m₁, hcenL, m₂, hcenR, -⟩ := h
  obtain ⟨hl, rfl⟩ := Memory.transform_eq_some.1 hcenL
  obtain ⟨hr, -⟩ := Memory.transform_eq_some.1 hcenR
  have hsound : (censusPass .imgL .cenL).Sound c := sound_censusPass c rfl rfl fun _ h => h
  have himgR := sameBuffer_storeAll (hsound.stores_inside m) hapart m
  exact ⟨censusReadable_iff.1 hl, (himgR.censusSamplesWritten_iff rfl).2 (censusReadable_iff.1 hr)⟩

end Sys2Proof.Machine

namespace Sys2Proof.Proofs

open Sys2Proof Sys2Proof.Machine

/-- Settles O30: each body's check asks for the elements its command reads, and RUN's for the samples of both images before
it writes anything into them. -/
theorem commandReadingUnwrittenElementFaults : Obligations.CommandReadingUnwrittenElementFaults := by
  refine fun s => ⟨fun hlegal h => ?_, fun hlegal h => ?_, fun hlegal h => ?_, fun dir hlegal h => ?_, fun hlegal h => ?_,
    fun hlegal h => ?_, fun hlegal h => ?_, fun hlegal h => ?_, fun hlegal h => ?_⟩
  · exact exec_unwritten hlegal (by decide) (Memory.transform_eq_none (mt censusReadable_iff.1 h))
  · exact exec_unwritten hlegal (by decide) (Memory.transform_eq_none (mt censusReadable_iff.1 h))
  · have ⟨⟨_, _, _, hd, _⟩, _⟩ := hlegal
    exact exec_unwritten hlegal (by decide) (Memory.transform_eq_none (mt (descriptorsWritten_of_costReadable hd) h))
  · refine exec_unwritten hlegal (directionInstr_ne_nop dir) ?_
    rw [bodyOf_directionInstr]
    exact Memory.transform_eq_none (mt aggReadable_iff.1 h)
  · exact exec_unwritten hlegal (by decide) (bodyAggAll_eq_none h)
  · exact exec_unwritten hlegal (by decide) (Memory.transform_eq_none (mt selectReadable_iff.1 h))
  · exact exec_unwritten hlegal (by decide) (Memory.transform_eq_none (mt rescaleReadable_iff.1 h))
  · exact exec_unwritten hlegal (by decide) (Memory.transform_eq_none (mt pixelsWritten_of_medianReadable h))
  · have ⟨_, ⟨_, hapart⟩, _⟩ := hlegal
    exact exec_unwritten hlegal (by decide) (Option.eq_none_iff_forall_ne_some.2 fun _ hbody =>
      h (censusSamplesWritten_of_bodyRun (hapart .cenL (by decide) .imgR (by decide) (by decide)) hbody))

end Sys2Proof.Proofs
end

section
/-!
SUPPORT. What a command makes of a data space in which more bytes are written (70_reset_and_hazards.md R281): a body reads
written elements only, so its effect there extends its effect on the smaller data space.
-/

namespace Sys2Proof.Machine

open Sys2Proof

/-! ### Elements and stores where more bytes are written -/

/-- A written element is written where more bytes are. -/
theorem keepsWritten_of_extends {m m' : Memory} (hext : Extends m m') : KeepsWritten m m' := fun a h => by
  obtain ⟨b, hb⟩ := Option.isSome_iff_exists.1 h
  exact Option.isSome_of_eq_some (hext a b hb)

/-- A written element has the same value where more bytes are written. -/
theorem memRead_of_extends {m m' : Memory} (hext : Extends m m') {addr n : Nat} (h : Memory.written m addr n = true) :
    Memory.memRead m' addr n = Memory.memRead m addr n :=
  Memory.memRead_congr fun i hi => by
    obtain ⟨b, hb⟩ := Option.isSome_iff_exists.1 (Memory.written_iff.1 h i hi)
    rw [hb, hext _ b hb]

/-- So has a pixel's element. -/
theorem pixel_of_extends {c : ConfigRegs} {b : Buffer} {m m' : Memory} (hext : Extends m m') {y x : Nat}
    (h : c.hasPixel m b y x = true) : c.pixel m' b y x = c.pixel m b y x := memRead_of_extends hext h

/-- The same stores on both sides keep the extension. -/
theorem extends_storeAll {m m' : Memory} (hext : Extends m m') (l : List Store) :
    Extends (Memory.storeAll m l) (Memory.storeAll m' l) := by
  intro a b hb
  by_cases hcov : ∃ st ∈ l, st.covers a
  · rwa [Memory.byte?_storeAll_of_covered (m' := m) hcov]
  · have hout : ∀ st ∈ l, ¬st.covers a := fun st hst hc => hcov ⟨st, hst, hc⟩
    rw [Memory.byte?_storeAll_outside hout] at hb ⊢
    exact hext a b hb

/-- Every number below h·w is a raster index. -/
theorem exists_raster_eq {h w n : Nat} (hn : n < h * w) : ∃ y < h, ∃ x < w, y * w + x = n :=
  ⟨n / w, Nat.div_lt_of_lt_mul (by rwa [Nat.mul_comm]), n % w,
    Nat.mod_lt n (Nat.pos_of_lt_mul_left hn), Nat.div_add_mod' n w⟩

/-- Where every cost is written, more written bytes leave COST as it is (20_memory.md R71). -/
theorem sameBuffer_cost_of_extends {c : ConfigRegs} {m m' : Memory} (hext : Extends m m') (h : CostsWritten c m) :
    SameBuffer c .cost m m' := by
  intro a hlow hhigh
  obtain ⟨n, rfl⟩ := Nat.exists_eq_add_of_le hlow
  obtain ⟨q, hq, d, hd, rfl⟩ := exists_raster_eq (Nat.lt_of_add_lt_add_left hhigh)
  obtain ⟨y, hy, x, hx, rfl⟩ := exists_raster_eq hq
  obtain ⟨b, hb⟩ := Option.isSome_iff_exists.1 (Memory.written_iff.1 (h y hy x hx d hd) 0 one_pos)
  exact hb.trans (hext _ b hb).symm

/-! ### Bodies -/

/-- `f` has, where more bytes are written, an effect that extends its effect where fewer are. -/
def KeepsExtension (f : Memory → Option Memory) : Prop :=
  ∀ m m' m₁, Extends m m' → f m = some m₁ → ∃ m₁', f m' = some m₁' ∧ Extends m₁ m₁'

/-- A body keeps extensions if it passes its check and makes the same stores where more bytes are written. -/
theorem keepsExtension_transform {readable : Memory → Bool} {stores : Memory → List Store}
    (h : ∀ m m', Extends m m' → readable m = true → readable m' = true ∧ stores m' = stores m) :
    KeepsExtension fun m => Memory.transform m (readable m) (stores m) := by
  intro m m' m₁ hext hm
  obtain ⟨hread, rfl⟩ := Memory.transform_eq_some.1 hm
  obtain ⟨hread', hstores⟩ := h m m' hext hread
  exact ⟨_, Memory.transform_eq_some.2 ⟨hread', rfl⟩, hstores ▸ extends_storeAll hext _⟩

/-- Bodies in a row keep extensions if each does. -/
theorem keepsExtension_foldlM {α : Type} {f : α → Memory → Option Memory} {l : List α}
    (h : ∀ a ∈ l, KeepsExtension (f a)) : KeepsExtension fun m => l.foldlM (fun m a => f a m) m := by
  induction l with
  | nil =>
    intro m m' m₁ hext hm
    obtain rfl : m = m₁ := by simpa using hm
    exact ⟨m', rfl, hext⟩
  | cons a l ih =>
    obtain ⟨ha, hl⟩ := List.forall_mem_cons.1 h
    intro m m' m₁ hext hm
    simp only [List.foldlM_cons, Option.bind_eq_bind] at hm ⊢
    obtain ⟨m₂, hfirst, hrest⟩ := Option.bind_eq_some_iff.1 hm
    obtain ⟨m₂', hfirst', hext₂⟩ := ha m m' m₂ hext hfirst
    obtain ⟨m₁', hrest', hext₁⟩ := ih hl m₂ m₂' m₁ hext₂ hrest
    exact ⟨m₁', Option.bind_eq_some_iff.2 ⟨m₂', hfirst', hrest'⟩, hext₁⟩

/-- The census compares samples that its check asks for (40_census.md R110). -/
theorem keepsExtension_census (c : ConfigRegs) (src dst : Buffer) : KeepsExtension ((censusPass src dst).body c) := by
  refine keepsExtension_transform fun m m' hext hread => ?_
  have hsamples := censusReadable_iff.1 hread
  have hw := keepsWritten_of_extends hext
  refine ⟨censusReadable_iff.2 fun y hy x hx hin i hi j hj hne =>
    (hsamples y hy x hx hin i hi j hj hne).imp hw.written hw.written, pixelStores_congr fun y hy x hx => ?_⟩
  simp only [census]
  split
  · next hin =>
    congr 1
    refine List.map_congr_left fun q hq => ?_
    obtain ⟨i, hi, j, hj, hne, rfl⟩ := mem_neighbours.1 hq
    obtain ⟨hneighbour, hcentre⟩ := hsamples y hy x hx hin i hi j hj hne
    rw [pixel_of_extends hext hneighbour, pixel_of_extends hext hcentre]
  · rfl

/-- COST compares descriptors that its check asks for (41_cost.md R131). -/
theorem keepsExtension_cost (c : ConfigRegs) : KeepsExtension (bodyCost c) := by
  refine keepsExtension_transform fun m m' hext hread => ?_
  have hpairs := costReadable_iff.1 hread
  have hw := keepsWritten_of_extends hext
  refine ⟨costReadable_iff.2 fun y hy x hx hin d hd => (hpairs y hy x hx hin d hd).imp hw.written hw.written,
    List.flatMap_congr fun p hp => List.map_congr_left fun d hd => ?_⟩
  obtain ⟨hy, hx⟩ := ConfigRegs.mem_pixels.1 hp
  simp only [matchCost]
  split
  · next hin =>
    obtain ⟨hl, hr⟩ := hpairs _ hy _ hx hin d (List.mem_range.1 hd)
    rw [pixel_of_extends hext hl, pixel_of_extends hext hr]
  · rfl

/-- A direction reads costs that its check asks for (42_aggregate.md R152). -/
theorem keepsExtension_agg (c : ConfigRegs) (dir : Direction) : KeepsExtension (bodyAgg dir c) := by
  refine keepsExtension_transform fun m m' hext hread => ?_
  have hcost := sameBuffer_cost_of_extends hext (aggReadable_iff.1 hread)
  exact ⟨(aggReadable_congr hcost dir).trans hread, (aggStores_congr hcost dir).symm⟩

/-- SELECT sums slots that its check asks for (43_select.md R190). -/
theorem keepsExtension_select (c : ConfigRegs) : KeepsExtension (bodySelect c) := by
  refine keepsExtension_transform fun m m' hext hread => ?_
  have hslots := selectReadable_iff.1 hread
  have hsums {y x : Nat} (hy : y < c.height) (hx : x < c.width) : pixelSums c m' y x = pixelSums c m y x :=
    List.map_congr_left fun d hd => congrArg List.sum <| List.map_congr_left fun k hk =>
      memRead_of_extends hext (hslots y hy x hx d (List.mem_range.1 hd) k (List.mem_range.1 hk))
  exact ⟨selectReadable_iff.2 (Ready.mono (b := .agg) hslots (keepsWritten_of_extends hext)),
    pixelStores_congr fun y hy x hx => congrArg winner (hsums hy hx)⟩

/-- RESCALE reads disparities that its check asks for (R195). -/
theorem keepsExtension_rescale (c : ConfigRegs) : KeepsExtension (bodyRescale c) := by
  refine keepsExtension_transform fun m m' hext hread => ?_
  have hdisp := rescaleReadable_iff.1 hread
  exact ⟨rescaleReadable_iff.2 (Ready.mono (b := .disp) hdisp (keepsWritten_of_extends hext)),
    pixelStores_congr fun y hy x hx => congrArg (rescale _) (pixel_of_extends hext (hdisp y hy x hx))⟩

/-- MEDIAN sorts samples that its check asks for (R200). -/
theorem keepsExtension_median (c : ConfigRegs) : KeepsExtension (bodyMedian c) := by
  refine keepsExtension_transform fun m m' hext hread => ?_
  have hsamples := medianReadable_iff.1 hread
  exact ⟨medianReadable_iff.2 fun y hy x hx q hq => (keepsWritten_of_extends hext).written (hsamples y hy x hx q hq),
    pixelStores_congr fun y hy x hx => congrArg (medianOf _) <| List.map_congr_left fun q hq =>
      pixel_of_extends hext (hsamples y hy x hx q hq)⟩

/-- Every command's body keeps extensions. -/
theorem keepsExtension_bodyOf (i : Instr) (c : ConfigRegs) : KeepsExtension (bodyOf i c) := by
  have haggAll : KeepsExtension (bodyAggAll c) := keepsExtension_foldlM fun dir _ => keepsExtension_agg c dir
  cases i with
  | nop =>
    intro m m' m₁ hext hm
    obtain rfl : m = m₁ := by simpa [bodyOf] using hm
    exact ⟨m', rfl, hext⟩
  | censusL => exact keepsExtension_census c .imgL .cenL
  | censusR => exact keepsExtension_census c .imgR .cenR
  | cost => exact keepsExtension_cost c
  | aggE | aggW | aggS | aggN | aggSE | aggNW | aggSW | aggNE => exact keepsExtension_agg c _
  | aggAll => exact haggAll
  | select => exact keepsExtension_select c
  | rescale => exact keepsExtension_rescale c
  | median => exact keepsExtension_median c
  | run =>
    have hrun : bodyOf .run c = fun m => runCommands.foldlM (fun m i => bodyOf i c m) m :=
      funext (bodyRun_eq_foldlM_bodyOf c)
    rw [hrun]
    refine keepsExtension_foldlM (f := fun i => bodyOf i c) ?_
    simp only [runCommands, List.forall_mem_cons]
    exact ⟨keepsExtension_census c .imgL .cenL, keepsExtension_census c .imgR .cenR, keepsExtension_cost c, haggAll,
      keepsExtension_select c, keepsExtension_rescale c, keepsExtension_median c, by simp⟩

end Sys2Proof.Machine

namespace Sys2Proof.Proofs

open Sys2Proof Sys2Proof.Machine

/-- Settles O33: a rejection looks at no byte of the data space, and a completion's body keeps the extension. -/
theorem unwrittenBytesInfluenceNoResult : Obligations.UnwrittenBytesInfluenceNoResult := by
  intro i s t m hexec hext
  obtain ⟨hi, hcode, rfl⟩ | ⟨m₁, hbody, hcheck, rfl⟩ := exec_next hexec
  · refine ⟨State.reject { s with mem := m } _ _, ?_, rfl, hext⟩
    rw [exec_eq_perform hi]
    exact perform_reject hcode
  · obtain ⟨m₁', hbody', hext'⟩ := keepsExtension_bodyOf i s.cfg s.mem m m₁ hext hbody
    refine ⟨State.complete { s with mem := m } (outputs i s.cfg) m₁', ?_, rfl, hext'⟩
    by_cases hi : i = .nop
    · subst hi
      obtain rfl : m = m₁' := by simpa [bodyOf] using hbody'
      exact exec_nop _
    · obtain ⟨hcode, hback⟩ := hcheck hi
      rw [exec_eq_perform hi]
      exact perform_complete hcode hback hbody'

end Sys2Proof.Proofs
end
